-- ==== Sys2Proof/Word.lean ====
section
/-! DEFINITION. The word types of the core (00_scope.md R8, R10): all values are unsigned. -/

namespace Sys2Proof

/-- A byte, `u8` (R10): register contents, memory bytes, immediates `NN`. -/
abbrev Byte := BitVec 8

/-- A 16-bit word, `u16` (R10): instruction words, `pc`, `I`, return addresses. -/
abbrev Word := BitVec 16

/-- A 4-bit register field `X` or `Y` (30_encoding.md R72): always a valid register index. -/
abbrev Reg := BitVec 4

/-- A 4-bit count `N` (30_encoding.md R71). -/
abbrev Nibble := BitVec 4

/-- A 12-bit address operand `NNN` (30_encoding.md R71). -/
abbrev Addr12 := BitVec 12

/-- A key identifier 0..15 (10_state.md R38). -/
abbrev Key := BitVec 4

end Sys2Proof
end

