-- ==== Sys2Proof/WellFormed.lean ====
section
/-! DEFINITION. Which terms of Instr are instructions of the core. The operand types already hold every field
to its width (30_encoding.md R71, R72); what is left is that 0x0E0 and 0x0EE are no operand of SYS, since the
words 00E0 and 00EE are CLS and RET (R75). -/

namespace Sys2Proof

/-- The well-formed instructions: each is the decoding of some word (R74, R75). -/
def Instr.wellFormed : Instr → Bool
  | .sys nnn => nnn != 0x0E0#12 && nnn != 0x0EE#12
  | .cls | .ret | .jp _ | .call _ => true
  | .seImm _ _ | .sneImm _ _ | .seReg _ _ | .ldImm _ _ | .addImm _ _ | .ldReg _ _ => true
  | .orReg _ _ | .andReg _ _ | .xorReg _ _ | .addReg _ _ | .subReg _ _ => true
  | .shr _ _ | .subn _ _ | .shl _ _ | .sneReg _ _ => true
  | .ldI _ | .jpV0 _ | .rnd _ _ | .drw _ _ _ | .skp _ | .sknp _ => true
  | .ldVxDT _ | .ldVxK _ | .ldDTVx _ | .ldSTVx _ | .addI _ => true
  | .ldF _ | .ldB _ | .ldMemI _ | .ldVxMem _ => true

end Sys2Proof
end

