-- ==== Sys2Proof/Config.lean ====
section
/-! DEFINITION. What an implementation fixes (the quirk configuration and the open parameters of
00_scope.md R9), and the free values of the model. The parameters are data that State holds and no step
changes, so that a statement about every state is a statement about every choice of them. -/

namespace Sys2Proof

/-- The quirk configuration `Q`: five independent flags (10_state.md R40). -/
structure Quirks where
  /-- 8XY6 shifts VY into VX, instead of VX. -/
  shrUsesVy : Bool
  /-- 8XYE shifts VY into VX, instead of VX. -/
  shlUsesVy : Bool
  /-- FX1E writes the 16-bit overflow to VF. -/
  indexAddSetsVf : Bool
  /-- FX55 advances I by X + 1. -/
  storeAdvancesI : Bool
  /-- FX65 advances I by X + 1. -/
  loadAdvancesI : Bool
deriving DecidableEq, Repr

/-- `sys_policy`: what SYS (0NNN) does (41_flow.md R120, 92 D3). -/
inductive SysPolicy where
  | nop
  | refuse
deriving DecidableEq, Repr

/-- `vf_write_order`: the order of the result write and the VF write (43_alu.md R160, 92 D7). -/
inductive VfWriteOrder where
  | flagLast
  | resultLast
  | flagFirstReread
deriving DecidableEq, Repr

/-- `font_code_policy`: FX29 with a code above 15 (44_index_memory.md R193, 92 D11). -/
inductive FontCodePolicy where
  | maskLowNibble
  | unmasked
deriving DecidableEq, Repr

/-- `subrate_policy`: ticks at rates below 60 Hz (60_exceptions.md R323, 92 D15). -/
inductive SubratePolicy where
  | multi
  | single
deriving DecidableEq, Repr

/-- The open parameters of 00_scope.md R9 that a step reads (the quirks, FONT and `init` are arguments of
construction). -/
structure Params where
  sysPolicy : SysPolicy
  vfWriteOrder : VfWriteOrder
  fontCodePolicy : FontCodePolicy
  subratePolicy : SubratePolicy
  playOnZero : Bool
deriving DecidableEq, Repr

/-- FREE VALUE (log 4): the platform capability's answer to the n-th random-byte request, any of the 256
values (60_exceptions.md R331, 92 D25). Nothing constrains it. -/
opaque Config.randomByte : Nat → Byte

/-- FREE VALUE (log 9): in the n-th partial fault, whether the slot-th byte, pixel or flag holds its new
value (44_index_memory.md R194, 45_display.md R222, 92 D21). Nothing constrains it. -/
opaque Config.freeChoice : Nat → Nat → Bool

end Sys2Proof
end

