-- ==== Sys2Proof/Machine/State.lean ====
section
/-! DEFINITION. The state of one core instance (10_state.md R42), with the inputs and outputs of a step
(40_execution_cycle.md R100) as plain data, the fault taxonomy (60_exceptions.md R300) and the state after
construction with the values of 95_test_vectors.md section 0. -/

namespace Sys2Proof.Machine

/-- The faults of the core (60_exceptions.md R300). The core RETURNS a fault as the typed result of the step
and goes on with the next one (R301, 40_execution_cycle.md R110), so a faulting step of the model is a NEXT
state that holds the fault in `State.result` and in `State.faultRecord` (log 1). `step` never answers
`Outcome.fault`. -/
inductive Fault where
  /-- Raised by RET on an empty stack (41_flow.md R121). Safe: the spec's own fault. -/
  | callStackEmpty
  /-- Raised by CALL on a full stack (41_flow.md R123). Safe: the spec's own fault. -/
  | callStackOverflow
  /-- Raised by the step when the fetched word `w` is no instruction (40_execution_cycle.md R106). Safe: the
  spec's own fault. -/
  | invalidOpcode (w : Word)
  /-- Raised by a checked register access at an index of 16 or more (10_state.md R22); no instruction reaches
  it. Safe. -/
  | invalidRegister (i : Nat)
  /-- Raised by the fetch, DXYN, FX33, FX55 and FX65 at the first address at or above 4096 (20_memory.md R52,
  R53). Safe: the spec's own fault. -/
  | memFault (addr : Nat)
  /-- Raised by nothing (93 I1): reserved by the spec. Safe. -/
  | displayFault
  /-- Raised by construction only (70_reset_and_hazards.md R400). Safe. -/
  | romTooLarge
  /-- Raised by nothing (93 I2): reserved by the spec. Safe. -/
  | nonMonotonicClockValue
deriving DecidableEq, Repr

/-- The refusals: inputs to which the spec gives no meaning (60_exceptions.md R306). -/
inductive Refusal where
  /-- An instruction that has no meaning yet, by its mnemonic: raised by no arm of this model. Safe. -/
  | notModelled (mnemonic : String)
  /-- A step whose tick rate is 0 or not an integer (40_execution_cycle.md R100): raised by `step`. Safe: the
  spec itself refuses such a step. -/
  | badRate
  /-- SYS under `sys_policy = refuse` (41_flow.md R120): raised by `execSys`. Safe: the spec itself refuses such
  a step. -/
  | sysRefused
deriving DecidableEq, Repr

/-- An exact non-negative rational `num / den`, in lowest terms with `den` positive when well formed. It holds a
timer's `acc` (10_state.md R35, 92 D14). -/
structure Frac where
  num : Nat
  den : Nat
deriving DecidableEq, Repr

/-- A countdown timer (10_state.md R35). -/
structure Timer where
  start : Byte
  current : Byte
  acc : Frac
deriving DecidableEq, Repr

/-- The memory as (address, byte) pairs in one canonical form (`Memory.wf`); an address that is not listed reads
as `Memory.unlisted` says. -/
abbrev Memory := List Host.Cell

/-- The display buffer (10_state.md R34): 32 rows (y) of 64 cells (x). -/
abbrev Display := Vector (Vector Bool 64) 32

/-- The tick rate of a step (40_execution_cycle.md R100): calls per second, or a rate that is no integer, which
the model refuses (92 D14). -/
inductive TickRate where
  | hz (n : Nat)
  | notInteger
deriving DecidableEq, Repr

/-- What the driver sets before a step: the tick rate and the current key (40_execution_cycle.md R100). -/
structure DriverInput where
  rate : TickRate
  key : Option Key
deriving DecidableEq, Repr

/-- A signal to the platform capability (60_exceptions.md R330). -/
inductive SoundEvent where
  | play
  | pause
deriving DecidableEq, Repr

/-- The result of a step (40_execution_cycle.md R108). -/
inductive StepResult where
  | executed (i : Instr)
  | waiting
  | keyResolved (x : Reg) (k : Key)
  | fault (f : Fault)
deriving DecidableEq, Repr

/-- The state: the spec's own (10_state.md R42) first, then the open parameters, the step's inputs and outputs
and the model's own records. -/
structure State where
  /-- The 4096 bytes of memory (20_memory.md R50). -/
  mem : Memory
  /-- V0..VF; V[15] is VF (R20, R21). -/
  v : Vector Byte 16
  /-- The index register I (R25). -/
  i : Word
  /-- The program counter (R23). -/
  pc : Word
  /-- The call stack, its top first (R30). -/
  stack : List Word
  /-- The display buffer (R34). -/
  display : Display
  /-- The delay timer (R35). -/
  dt : Timer
  /-- The sound timer (R35). -/
  st : Timer
  /-- Playback is flagged active (R36). -/
  playing : Bool
  /-- The key-wait latch (R37): none is Running, some is AwaitingKey. -/
  latch : Option Reg
  /-- The quirk configuration Q (R40), never changed. -/
  quirks : Quirks
  /-- The open parameters (00_scope.md R9), never changed. -/
  params : Params
  /-- The driver's current tick rate (40_execution_cycle.md R100). -/
  rate : TickRate
  /-- The driver's current key value (R38). -/
  key : Option Key
  /-- The driver's settings for the coming steps, oldest first: each step takes the first, if any (log 2). -/
  pending : List DriverInput
  /-- The result of the last step (40_execution_cycle.md R108). -/
  result : Option StepResult
  /-- The sound events of the last step, in order (60_exceptions.md R330). -/
  events : List SoundEvent
  /-- The sticky fault record: the first fault of the run (60_exceptions.md R305, 92 D29). -/
  faultRecord : Option Fault
  /-- The MODEL's counter of random-byte requests: the index of the next free byte (log 4). -/
  randomCount : Nat
  /-- The MODEL's counter of partial faults: the index of the next free choice (log 9). -/
  freeCount : Nat
deriving DecidableEq, Repr

/-- Every quirk off (95_test_vectors.md section 0). -/
def Quirks.off : Quirks := ⟨false, false, false, false, false⟩

/-- The open parameters as 95_test_vectors.md section 0 sets them. -/
def Params.standard : Params := ⟨.nop, .flagLast, .maskLowNibble, .multi, true⟩

/-- A timer with value 0 and nothing accumulated (70_reset_and_hazards.md R406). -/
def Timer.zero : Timer := ⟨0, 0, ⟨0, 1⟩⟩

/-- A display with every cell 0. -/
def Display.blank : Display := Vector.replicate 32 (Vector.replicate 64 false)

/-- The machine right after construction (70_reset_and_hazards.md R400 to R406) with the choices of
95_test_vectors.md section 0 for what the spec leaves open, the empty image, and no step taken. -/
def State.reset : State where
  mem := []
  v := Vector.replicate 16 0
  i := 0
  pc := 0x200
  stack := []
  display := Display.blank
  dt := Timer.zero
  st := Timer.zero
  playing := false
  latch := none
  quirks := Quirks.off
  params := Params.standard
  rate := .hz 60
  key := none
  pending := []
  result := none
  events := []
  faultRecord := none
  randomCount := 0
  freeCount := 0

end Sys2Proof.Machine
end

