-- ==== Sys2Proof/Machine/Ops.lean ====
section
/-! DEFINITION. The named operations over registers, memory, the call stack and the display, and raising a fault
(00_scope.md R12). Every meaning is written over these. -/

namespace Sys2Proof.Machine

/-- What a step or a meaning answers. -/
abbrev StepOutcome := Host.Outcome State Fault Refusal

/-! ## Named updates of one field -/

def State.setMem (s : State) (m : Memory) : State := { s with mem := m }
def State.setIndex (s : State) (a : Word) : State := { s with i := a }
def State.setPc (s : State) (a : Word) : State := { s with pc := a }
def State.setStack (s : State) (l : List Word) : State := { s with stack := l }
def State.setDisplay (s : State) (d : Display) : State := { s with display := d }
def State.setDT (s : State) (t : Timer) : State := { s with dt := t }
def State.setST (s : State) (t : Timer) : State := { s with st := t }
def State.setPlaying (s : State) (b : Bool) : State := { s with playing := b }
def State.setLatch (s : State) (l : Option Reg) : State := { s with latch := l }
def State.setResult (s : State) (r : Option StepResult) : State := { s with result := r }
/-- Appends a sound event to the step's output (60_exceptions.md R330). -/
def State.emit (s : State) (e : SoundEvent) : State := { s with events := s.events ++ [e] }
/-- The next free random byte has been taken (log 4). -/
def State.countRandom (s : State) : State := { s with randomCount := s.randomCount + 1 }
/-- The free choices of one partial fault have been taken (log 9). -/
def State.countFree (s : State) : State := { s with freeCount := s.freeCount + 1 }

/-! ## Faults (60_exceptions.md R300, R301, R305) -/

/-- The code of a fault (R300). -/
def Fault.code : Fault → Nat
  | .callStackEmpty => 1
  | .callStackOverflow => 2
  | .invalidOpcode _ => 3
  | .invalidRegister _ => 4
  | .memFault _ => 5
  | .displayFault => 6
  | .romTooLarge => 7
  | .nonMonotonicClockValue => 8

/-- `raise F`: TAKING A FAULT. The step's result is the fault (R301) and the sticky record keeps the first fault
(R305, 92 D29); nothing else of the core is stored or changed. There is no handler to return from (R304): the next
step goes on from this state (40_execution_cycle.md R110). -/
def State.raise (s : State) (f : Fault) : State :=
  { s with result := some (.fault f), faultRecord := some (s.faultRecord.getD f) }

/-- How a handler ends: without a fault, or with the fault it raised and the state its earlier writes left
(00_scope.md R13). -/
inductive Handled where
  | ok (s : State)
  | raised (f : Fault) (s : State)

/-- A handler's end as the step's outcome: a raised fault is taken. -/
def Handled.toOutcome : Handled → StepOutcome
  | .ok s => .next s
  | .raised f s => .next (s.raise f)

/-! ## Registers (10_state.md R20, R22) -/

/-- The flag register VF (R21). -/
def vf : Reg := 15#4

/-- `V[x]` for a register field (30_encoding.md R72: always a valid index). -/
def State.reg (s : State) (x : Reg) : Byte := s.v[x.toNat]'x.isLt

/-- `V[x] <- b`. -/
def State.setReg (s : State) (x : Reg) (b : Byte) : State :=
  { s with v := s.v.set x.toNat b x.isLt }

/-- `RegRead(i)`: index-checked (R22). -/
def State.regRead (s : State) (i : Nat) : Except Fault Byte :=
  if i < 16 then .ok (s.reg (BitVec.ofNat 4 i)) else .error (.invalidRegister i)

/-- `RegWrite(i, v)`: index-checked, no write when it raises (R22). -/
def State.regWrite (s : State) (i : Nat) (b : Byte) : Except Fault State :=
  if i < 16 then .ok (s.setReg (BitVec.ofNat 4 i) b) else .error (.invalidRegister i)

/-! ## Memory (20_memory.md R50 to R53) -/

/-- `MEM_SIZE` (00_scope.md R8). -/
def memSize : Nat := 4096

/-- The conventional glyph table (70_reset_and_hazards.md R402; 93 G3), glyph c at bytes 5c .. 5c + 4. -/
def fontTable : List Byte :=
  [0xF0, 0x90, 0x90, 0x90, 0xF0] ++ [0x20, 0x60, 0x20, 0x20, 0x70] ++
  [0xF0, 0x10, 0xF0, 0x80, 0xF0] ++ [0xF0, 0x10, 0xF0, 0x10, 0xF0] ++
  [0x90, 0x90, 0xF0, 0x10, 0x10] ++ [0xF0, 0x80, 0xF0, 0x10, 0xF0] ++
  [0xF0, 0x80, 0xF0, 0x90, 0xF0] ++ [0xF0, 0x10, 0x20, 0x40, 0x40] ++
  [0xF0, 0x90, 0xF0, 0x90, 0xF0] ++ [0xF0, 0x90, 0xF0, 0x10, 0xF0] ++
  [0xF0, 0x90, 0xF0, 0x90, 0x90] ++ [0xE0, 0x90, 0xE0, 0x90, 0xE0] ++
  [0xF0, 0x80, 0x80, 0x80, 0xF0] ++ [0xE0, 0x90, 0x90, 0x90, 0xE0] ++
  [0xF0, 0x80, 0xF0, 0x80, 0xF0] ++ [0xF0, 0x80, 0xF0, 0x80, 0x80]

/-- What an address that is not listed reads as: the conventional glyph table in 0x000..0x04F (log 6), else 0
(log 5). -/
def Memory.unlisted (a : Nat) : Byte := fontTable.getD a 0

/-- The canonical form: addresses strictly rising and inside the memory, no entry equal to what an unlisted address
reads as. -/
abbrev Memory.wf (m : Memory) : Prop :=
  m.Pairwise (fun c d => c.1 < d.1) ∧ ∀ c ∈ m, c.1 < memSize ∧ c.2 ≠ Memory.unlisted c.1

/-- The byte at an address. -/
def Memory.byteAt : Memory → Nat → Byte
  | [], a => Memory.unlisted a
  | (k, b) :: m, a => if k = a then b else Memory.byteAt m a

/-- A list without its entries for an address. -/
def Memory.erase (m : Memory) (a : Nat) : Memory := m.filter fun c => c.1 != a

/-- A list with an entry put before the first greater address. -/
def Memory.insert : Memory → Nat → Byte → Memory
  | [], a, b => [(a, b)]
  | (k, c) :: m, a, b =>
    if a < k then (a, b) :: (k, c) :: m else (k, c) :: Memory.insert m a b

/-- Stores a byte, keeping the canonical form: writing what an unlisted address reads as removes the entry. -/
def Memory.setByte (m : Memory) (a : Nat) (b : Byte) : Memory :=
  if b = Memory.unlisted a then m.erase a else Memory.insert (m.erase a) a b

/-- Stores bytes at rising addresses from `a`. -/
def Memory.setBytes : Memory → Nat → List Byte → Memory
  | m, _, [] => m
  | m, a, b :: bs => Memory.setBytes (m.setByte a b) (a + 1) bs

/-- `MemRead(addr, 1)` (R52). -/
def State.memRead (s : State) (a : Nat) : Except Fault Byte :=
  if a < memSize then .ok (s.mem.byteAt a) else .error (.memFault a)

/-- `MemWrite(addr, 1, v)` (R53). -/
def State.memWrite (s : State) (a : Nat) (b : Byte) : Except Fault State :=
  if a < memSize then .ok (s.setMem (s.mem.setByte a b)) else .error (.memFault a)

/-- MemWrite of bytes at rising addresses, in order: the first address out of range ends it, with the earlier bytes
written (44_index_memory.md R192). -/
def State.storeBytes (s : State) (a : Nat) : List Byte → Handled
  | [] => .ok s
  | b :: bs =>
    match s.memWrite a b with
    | .ok t => t.storeBytes (a + 1) bs
    | .error f => .raised f s

/-- After a partial fault, each of the bytes at rising addresses that is in range holds its old or its new value,
freely and independently (44_index_memory.md R194, 92 D21, log 9); `slot` numbers them. -/
def State.storeFreely (s : State) (event a slot : Nat) : List Byte → State
  | [] => s
  | b :: bs =>
    let t := if a < memSize ∧ Config.freeChoice event slot then s.setMem (s.mem.setByte a b) else s
    t.storeFreely event (a + 1) (slot + 1) bs

/-- FX55's loop: `MemWrite(a + k, 1, RegRead(k))` for each listed register index `k` (44_index_memory.md R195). -/
def State.storeRegs (s : State) (a : Nat) : List Nat → Handled
  | [] => .ok s
  | k :: ks =>
    match s.regRead k with
    | .error f => .raised f s
    | .ok b =>
      match s.memWrite (a + k) b with
      | .error f => .raised f s
      | .ok t => t.storeRegs a ks

/-- FX65's loop: `RegWrite(k, MemRead(a + k, 1))` for each listed register index `k` (44_index_memory.md R196). -/
def State.loadRegs (s : State) (a : Nat) : List Nat → Handled
  | [] => .ok s
  | k :: ks =>
    match s.memRead (a + k) with
    | .error f => .raised f s
    | .ok b =>
      match s.regWrite k b with
      | .error f => .raised f s
      | .ok t => t.loadRegs a ks

/-! ## Call stack (10_state.md R30 to R33) -/

/-- `STACK_CAP` (00_scope.md R8). -/
def stackCap : Nat := 16

/-- `Push(v)` (R31): raises CallStackOverflow when the stack holds 16 entries (or, in no reachable state, more). -/
def State.push (s : State) (a : Word) : Except Fault State :=
  if s.stack.length < stackCap then .ok (s.setStack (a :: s.stack)) else .error .callStackOverflow

/-- `Pop()` (R32). -/
def State.pop (s : State) : Except Fault (Word × State) :=
  match s.stack with
  | [] => .error .callStackEmpty
  | a :: l => .ok (a, s.setStack l)

/-- The diagnostic read of the call stack (R33): its contents in push order, or none when it is empty. -/
def State.stackSnapshot (s : State) : Option (List Word) :=
  match s.stack with
  | [] => none
  | a :: l => some (a :: l).reverse

/-! ## Display (10_state.md R34) -/

/-- `D[x][y]`. -/
def Display.cell (d : Display) (x : Fin 64) (y : Fin 32) : Bool := d[y][x]

/-- `D[x][y] <- D[x][y] ^ p`. -/
def Display.xorCell (d : Display) (x : Fin 64) (y : Fin 32) (p : Bool) : Display :=
  d.set y (d[y].set x (d.cell x y ^^ p))

/-- A display given cell by cell. -/
def Display.ofCells (f : Fin 64 → Fin 32 → Bool) : Display :=
  Vector.ofFn fun y => Vector.ofFn fun x => f x y

/-- The display read port (60_exceptions.md R333): the cells of a row, from x = 0. -/
def State.displayRow (s : State) (y : Fin 32) : List Bool := s.display[y].toList

/-! ## Program counter -/

/-- `pc <- pc + 2` when the condition holds (42_skip.md R140). -/
def State.skipIf (s : State) (c : Bool) : State := if c then s.setPc (s.pc + 2) else s

end Sys2Proof.Machine
end

