-- ==== Sys2Proof/Machine/Timers.lean ====
section
/-! DEFINITION. The countdown timer controller (60_exceptions.md R320 to R325). -/

namespace Sys2Proof.Machine

/-- The fraction `n / d` in lowest terms. -/
def Frac.reduce (n d : Nat) : Frac := ⟨n / Nat.gcd n d, d / Nat.gcd n d⟩

/-- A fraction in lowest terms with a positive denominator: the only form a run reaches. -/
abbrev Frac.wf (a : Frac) : Prop := 0 < a.den ∧ Nat.Coprime a.num a.den

/-- `acc + 60 / rate`, exactly (R322). -/
def Frac.addTick (a : Frac) (rate : Nat) : Frac := Frac.reduce (a.num * rate + 60 * a.den) (a.den * rate)

/-- `acc >= 1`. -/
def Frac.geOne (a : Frac) : Bool := decide (a.den ≤ a.num)

/-- `acc - 1`, where `acc >= 1`. -/
def Frac.subOne (a : Frac) : Frac := ⟨a.num - a.den, a.den⟩

/-- `TimerSet(t, v)` (R321). -/
def Timer.set (_t : Timer) (v : Byte) : Timer := ⟨v, v, ⟨0, 1⟩⟩

/-- One whole decrement: `acc - 1`, and `current - 1` unless it is 0 (R322). -/
def Timer.decrement (t : Timer) : Timer :=
  { t with acc := t.acc.subOne, current := if t.current = 0 then 0 else t.current - 1 }

/-- The loop `while acc >= 1` of R322, with a bound on its rounds. -/
def Timer.drain : Nat → Timer → Timer
  | 0, t => t
  | n + 1, t => if t.acc.geOne then Timer.drain n t.decrement else t

/-- The progress of one call is added (R322). -/
def Timer.progress (t : Timer) (rate : Nat) : Timer := { t with acc := t.acc.addTick rate }

/-- Every whole decrement that has accumulated: the loop runs `acc` rounded down times. -/
def Timer.drainAll (t : Timer) : Timer := Timer.drain (t.acc.num / t.acc.den) t

/-- At most one decrement (R322, `single` below 60 Hz). -/
def Timer.drainOne (t : Timer) : Timer := if t.acc.geOne then t.decrement else t

/-- `TimerTick(t, rate)` for a positive rate (R322, R323). -/
def Timer.tick (policy : SubratePolicy) (t : Timer) (rate : Nat) : Timer :=
  if 60 ≤ rate ∨ policy = .multi then (t.progress rate).drainAll else (t.progress rate).drainOne

/-- `SoundStopCheck()` (R324). -/
def State.soundStopCheck (s : State) : State :=
  if s.playing && s.st.current == 0 then (s.emit .pause).setPlaying false else s

/-- The tick phase of a step: the delay timer, the sound timer, the sound-stop check (40_execution_cycle.md R102). -/
def State.tickPhase (s : State) (rate : Nat) : State :=
  ((s.setDT (s.dt.tick s.params.subratePolicy rate)).setST
    (s.st.tick s.params.subratePolicy rate)).soundStopCheck

end Sys2Proof.Machine
end

