-- ==== Sys2Proof/Machine/Cycle.lean ====
section
/-! DEFINITION. The fetch-decode part of a step (40_execution_cycle.md R101 to R106): the inputs, the tick phase, the
key-wait resolution, the fetch, the advance of `pc`, the decoding. `step` only calls `State.prepare`. -/

namespace Sys2Proof.Machine

/-- How a step goes on after its fetch-decode part. -/
inductive Prepared where
  /-- The step is refused (R100). -/
  | refuse (r : Refusal)
  /-- The step ends without an instruction: waiting, key resolved, or a fault of the fetch or the decoder. -/
  | done (s : State)
  /-- The instruction runs from this state. -/
  | run (i : Instr) (s : State)

/-- A positive integer rate, or none where the model refuses the step (R100). -/
def TickRate.positive? : TickRate → Option Nat
  | .hz 0 => none
  | .hz (n + 1) => some (n + 1)
  | .notInteger => none

/-- The driver's setting for this step, where it has one; else rate and key stay as they are (log 2). -/
def State.takeInput (s : State) : State :=
  match s.pending with
  | [] => s
  | d :: ds => { s with rate := d.rate, key := d.key, pending := ds }

/-- The step's outputs start empty (R100). -/
def State.clearOutputs (s : State) : State := { s with result := none, events := [] }

/-- The start of a step: inputs taken, outputs empty. -/
def State.beginStep (s : State) : State := s.takeInput.clearOutputs

/-- The rate of the step that starts in this state. -/
def State.stepRate (s : State) : Option Nat := s.takeInput.rate.positive?

/-- Key-wait resolution (R103), when register `x` waits. -/
def State.awaitKey (s : State) (x : Reg) : State :=
  match s.key with
  | some k => ((s.setReg x (k.setWidth 8)).setLatch none).setResult (some (.keyResolved x k))
  | none => s.setResult (some .waiting)

/-- The fetch (20_memory.md R55): two reads, big-endian. -/
def State.fetch (s : State) : Except Fault Word :=
  match s.memRead s.pc.toNat with
  | .error f => .error f
  | .ok hi =>
    match s.memRead (s.pc.toNat + 1) with
    | .error f => .error f
    | .ok lo => .ok (wordOfBytes hi lo)

/-- `pc <- pc + 2` after a successful fetch (R105). -/
def State.advance (s : State) : State := s.setPc (s.pc + 2)

/-- Fetch, advance and decode in the Running state (R104 to R106). The result is `Executed` unless the handler raises
(R108). -/
def State.fetchDecode (s : State) : Prepared :=
  match s.fetch with
  | .error f => .done (s.raise f)
  | .ok w =>
    match decode w with
    | .ok i => .run i (s.advance.setResult (some (.executed i)))
    | .error _ => .done (s.advance.raise (.invalidOpcode w))

/-- What follows the tick phase (R101): the key wait, or an instruction. -/
def State.afterTicks (s : State) : Prepared :=
  match s.latch with
  | some x => .done (s.awaitKey x)
  | none => s.fetchDecode

/-- A step up to the execution of its instruction (R101). -/
def State.prepare (s : State) : Prepared :=
  match s.stepRate with
  | none => .refuse .badRate
  | some rate => (s.beginStep.tickPhase rate).afterTicks

/-- Where the next instruction is put for `withFetchWord`: at `pc`, or at 0x200 where no instruction fits at `pc`. -/
def State.fetchable (s : State) : State :=
  if s.pc.toNat + 1 < memSize then s else s.setPc 0x200

/-- A state whose next step has an admissible rate: unchanged where it has one. -/
def State.withGoodRate (s : State) : State :=
  match s.stepRate with
  | some _ => s
  | none => { s.takeInput with pending := [], rate := .hz 60 }

/-- `s` with the bytes of an instruction stored where the next step fetches, and running: no key wait, an admissible
rate, a `pc` inside the memory (log 7). -/
def State.placeNext (s : State) (bytes : List Byte) : State :=
  let t := (s.fetchable.setLatch none).withGoodRate
  t.setMem (t.mem.setBytes t.pc.toNat bytes)

end Sys2Proof.Machine
end

