-- ==== Sys2Proof/Machine/Operands.lean ====
section
/-! DEFINITION. Operand values: how the fields of an instruction become addresses, bytes and conditions
(30_encoding.md R73). -/

namespace Sys2Proof.Machine

/-- `zext_16(NNN)` (30_encoding.md R73). -/
def zextAddr (nnn : Addr12) : Word := nnn.setWidth 16

/-- BNNN's target `NNN + V0` (41_flow.md R124). -/
def State.offsetTarget (s : State) (nnn : Addr12) : Word := zextAddr nnn + (s.reg 0).setWidth 16

/-- The shifts' source value: VY with the quirk on, else VX (43_alu.md R169, R171). -/
def shiftSource (usesVy : Bool) (vx vy : Byte) : Byte := if usesVy then vy else vx

/-- The key in a register is the current key (42_skip.md R145). -/
def State.keyPressed (s : State) (b : Byte) : Bool :=
  match s.key with
  | some k => k.setWidth 8 == b
  | none => false

/-- FX29's glyph address of a character code (44_index_memory.md R193). -/
def glyphAddress (policy : FontCodePolicy) (c : Byte) : Word :=
  if c.toNat ≤ 15 then BitVec.ofNat 16 (c.toNat * 5)
  else match policy with
    | .maskLowNibble => BitVec.ofNat 16 ((c &&& 0xF#8).toNat * 5)
    | .unmasked => BitVec.ofNat 16 (c.toNat * 5)

/-- FX33's decimal digits: hundreds, tens, ones (44_index_memory.md R194). -/
def bcdDigits (v : Byte) : List Byte :=
  [BitVec.ofNat 8 (v.toNat / 100), BitVec.ofNat 8 (v.toNat / 10 % 10), BitVec.ofNat 8 (v.toNat % 10)]

/-- The register indices 0..X of FX55 and FX65, in order (44_index_memory.md R195, R196). -/
def regsUpTo (x : Reg) : List Nat := List.range (x.toNat + 1)

/-- `(I + X + 1) mod 65536` (44_index_memory.md R195, R196). -/
def State.advancedIndex (s : State) (x : Reg) : Word := BitVec.ofNat 16 (s.i.toNat + x.toNat + 1)

/-- The next random byte of the platform capability (60_exceptions.md R331): a free value (log 4). -/
def State.randomByte (s : State) : Byte := Config.randomByte s.randomCount

end Sys2Proof.Machine
end

