-- ==== Sys2Proof/Machine/Flags.lean ====
section
/-! DEFINITION. The flags that VF reports (10_state.md R21) and the shared result/flag write (43_alu.md R160). -/

namespace Sys2Proof.Machine

/-- A flag as a byte: 1 or 0. -/
def flagByte (b : Bool) : Byte := if b then 1 else 0

/-- The carry of 8XY4: 1 exactly when the exact sum exceeds 255 (43_alu.md R167). -/
def carryFlag (x y : Byte) : Byte := flagByte (decide (x.toNat + y.toNat > 255))

/-- The not-borrow of `a - b`: 0 exactly when `a < b` (43_alu.md R168, R170). -/
def notBorrowFlag (a b : Byte) : Byte := flagByte (decide (b.toNat ≤ a.toNat))

/-- The bit that a right shift by one moves out (43_alu.md R169). -/
def lowBitFlag (v : Byte) : Byte := v &&& 1#8

/-- The bit that a left shift by one moves out (43_alu.md R171). -/
def highBitFlag (v : Byte) : Byte := (v >>> 7) &&& 1#8

/-- The 16-bit overflow of `I + V[X]` (44_index_memory.md R191). -/
def indexOverflowFlag (i : Word) (b : Byte) : Byte := flagByte (decide (i.toNat + b.toNat > 0xFFFF))

/-- `WriteResultAndFlag(X, r, f)` (43_alu.md R160): `r` is computed from the values of VX and VY, read first, or read
again after the flag write under `flag_first_reread`. -/
def State.writeResultAndFlag (s : State) (x y : Reg) (r : Byte → Byte → Byte) (f : Byte) : State :=
  match s.params.vfWriteOrder with
  | .flagLast => (s.setReg x (r (s.reg x) (s.reg y))).setReg vf f
  | .resultLast => (s.setReg vf f).setReg x (r (s.reg x) (s.reg y))
  | .flagFirstReread => (s.setReg vf f).setReg x (r ((s.setReg vf f).reg x) ((s.setReg vf f).reg y))

end Sys2Proof.Machine
end

