-- ==== Sys2Proof/Machine/Alu.lean ====
section
/-! DEFINITION. Register loads, logic, arithmetic and shifts (43_alu.md). -/

namespace Sys2Proof.Machine

/-- LD 6XNN (R161). -/
def execLdImm (x : Reg) (nn : Byte) (s : State) : StepOutcome := .next (s.setReg x nn)

/-- ADD 7XNN (R162): no carry is written. -/
def execAddImm (x : Reg) (nn : Byte) (s : State) : StepOutcome := .next (s.setReg x (s.reg x + nn))

/-- LD 8XY0 (R163). -/
def execLdReg (x y : Reg) (s : State) : StepOutcome := .next (s.setReg x (s.reg y))

/-- OR 8XY1 (R164). -/
def execOrReg (x y : Reg) (s : State) : StepOutcome := .next (s.setReg x (s.reg x ||| s.reg y))

/-- AND 8XY2 (R165). -/
def execAndReg (x y : Reg) (s : State) : StepOutcome := .next (s.setReg x (s.reg x &&& s.reg y))

/-- XOR 8XY3 (R166). -/
def execXorReg (x y : Reg) (s : State) : StepOutcome := .next (s.setReg x (s.reg x ^^^ s.reg y))

/-- ADD 8XY4 (R167). -/
def execAddReg (x y : Reg) (s : State) : StepOutcome :=
  .next (s.writeResultAndFlag x y (fun vx vy => vx + vy) (carryFlag (s.reg x) (s.reg y)))

/-- SUB 8XY5 (R168). -/
def execSubReg (x y : Reg) (s : State) : StepOutcome :=
  .next (s.writeResultAndFlag x y (fun vx vy => vx - vy) (notBorrowFlag (s.reg x) (s.reg y)))

/-- SHR 8XY6 (R169). -/
def execShr (x y : Reg) (s : State) : StepOutcome :=
  .next (s.writeResultAndFlag x y (fun vx vy => shiftSource s.quirks.shrUsesVy vx vy >>> 1)
    (lowBitFlag (shiftSource s.quirks.shrUsesVy (s.reg x) (s.reg y))))

/-- SUBN 8XY7 (R170). -/
def execSubn (x y : Reg) (s : State) : StepOutcome :=
  .next (s.writeResultAndFlag x y (fun vx vy => vy - vx) (notBorrowFlag (s.reg y) (s.reg x)))

/-- SHL 8XYE (R171). -/
def execShl (x y : Reg) (s : State) : StepOutcome :=
  .next (s.writeResultAndFlag x y (fun vx vy => shiftSource s.quirks.shlUsesVy vx vy <<< 1)
    (highBitFlag (shiftSource s.quirks.shlUsesVy (s.reg x) (s.reg y))))

end Sys2Proof.Machine
end

