-- ==== Sys2Proof/Machine/Display.lean ====
section
/-! DEFINITION. The display instructions (45_display.md). -/

namespace Sys2Proof.Machine

/-- The display while a sprite is drawn, and whether a set pixel was cleared. -/
structure Canvas where
  display : Display
  hit : Bool

/-- The column of sprite pixel `c` (R221): wrapped per pixel. -/
def spriteColumn (x0 : Byte) (c : Nat) : Fin 64 := Fin.ofNat 64 (x0.toNat + c)

/-- The row of sprite row `r` (R221): wrapped per pixel (90_conflicts.md C2). -/
def spriteRow (y0 : Byte) (r : Nat) : Fin 32 := Fin.ofNat 32 (y0.toNat + r)

/-- Pixel `c` of a sprite byte: bit 7 is the leftmost (R221, 92 D1). -/
def spriteBit (b : Byte) (c : Nat) : Bool := b.getLsbD (7 - c)

/-- One pixel of a sprite row (R221). -/
def drawPixel (x0 : Byte) (py : Fin 32) (b : Byte) (k : Canvas) (c : Nat) : Canvas :=
  let px := spriteColumn x0 c
  { display := k.display.xorCell px py (spriteBit b c)
    hit := k.hit || (spriteBit b c && k.display.cell px py) }

/-- One row of a sprite: its eight pixels (R221). -/
def drawRow (x0 : Byte) (py : Fin 32) (b : Byte) (k : Canvas) : Canvas :=
  (List.range 8).foldl (drawPixel x0 py b) k

/-- The rows of a sprite, in order: each byte is read and its row drawn; the first byte out of range ends the drawing
(R221). The fault, if any, comes with what was drawn before it. -/
def drawRows (s : State) (x0 y0 : Byte) : List Nat → Canvas → Canvas × Option Fault
  | [], k => (k, none)
  | r :: rs, k =>
    match s.memRead (s.i.toNat + r) with
    | .error f => (k, some f)
    | .ok b => drawRows s x0 y0 rs (drawRow x0 (spriteRow y0 r) b k)

/-- After a partial fault each pixel holds its old or its drawn value and VF its old value or the collision of the
drawn rows, freely (R222, 92 D21, log 9). Pixel (x, y) has the slot 64 y + x and VF the slot 2048. -/
def State.drawFreely (s : State) (k : Canvas) : State :=
  let t := s.setDisplay (Display.ofCells fun x y =>
    if Config.freeChoice s.freeCount (64 * y.val + x.val) then k.display.cell x y else s.display.cell x y)
  t.setReg vf (if Config.freeChoice s.freeCount 2048 then flagByte k.hit else s.reg vf)

/-- CLS 00E0 (R220). -/
def execCls (s : State) : StepOutcome := .next (s.setDisplay Display.blank)

/-- DRW DXYN (R221, R222): VX and VY are read before VF is written; with a fault at the first row nothing changes. -/
def execDrw (x y : Reg) (n : Nibble) (s : State) : StepOutcome :=
  match drawRows s (s.reg x) (s.reg y) (List.range n.toNat) ⟨s.display, false⟩ with
  | (k, none) => .next ((s.setDisplay k.display).setReg vf (flagByte k.hit))
  | (k, some f) =>
    if s.i.toNat < memSize then .next (((s.drawFreely k).countFree).raise f) else .next (s.raise f)

end Sys2Proof.Machine
end

