-- ==== Sys2Proof/Machine/Flow.lean ====
section
/-! DEFINITION. Control transfer (41_flow.md). On entry `pc` is the instruction's address plus 2
(40_execution_cycle.md R105). -/

namespace Sys2Proof.Machine

/-- SYS 0NNN (R120): by the open parameter `sys_policy`, nothing, or the step is refused. -/
def execSys (_nnn : Addr12) (s : State) : StepOutcome :=
  match s.params.sysPolicy with
  | .nop => .next s
  | .refuse => .refused .sysRefused

/-- RET 00EE (R121). -/
def execRet (s : State) : StepOutcome :=
  match s.pop with
  | .ok (a, t) => .next (t.setPc a)
  | .error f => .next (s.raise f)

/-- JP 1NNN (R122). -/
def execJp (nnn : Addr12) (s : State) : StepOutcome := .next (s.setPc (zextAddr nnn))

/-- CALL 2NNN (R123): the pushed value is the already advanced `pc`. -/
def execCall (nnn : Addr12) (s : State) : StepOutcome :=
  match s.push s.pc with
  | .ok t => .next (t.setPc (zextAddr nnn))
  | .error f => .next (s.raise f)

/-- JP V0 BNNN (R124). -/
def execJpV0 (nnn : Addr12) (s : State) : StepOutcome := .next (s.setPc (s.offsetTarget nnn))

end Sys2Proof.Machine
end

