-- ==== Sys2Proof/Machine/Index.lean ====
section
/-! DEFINITION. The index register and the memory transfers through it (44_index_memory.md). -/

namespace Sys2Proof.Machine

/-- LD I, ANNN (R190). -/
def execLdI (nnn : Addr12) (s : State) : StepOutcome := .next (s.setIndex (zextAddr nnn))

/-- ADD I, FX1E (R191): VX is read before VF is written. -/
def execAddI (x : Reg) (s : State) : StepOutcome :=
  let t := s.setIndex (s.i + (s.reg x).setWidth 16)
  .next (if s.quirks.indexAddSetsVf then t.setReg vf (indexOverflowFlag s.i (s.reg x)) else t)

/-- LD F, FX29 (R193). -/
def execLdF (x : Reg) (s : State) : StepOutcome :=
  .next (s.setIndex (glyphAddress s.params.fontCodePolicy (s.reg x)))

/-- LD B, FX33 (R194): when a digit's address is out of range, each byte in range holds its old value or its digit,
freely (92 D21, log 9); from an index of 4096 on nothing is written. -/
def execLdB (x : Reg) (s : State) : StepOutcome :=
  match s.storeBytes s.i.toNat (bcdDigits (s.reg x)) with
  | .ok t => .next t
  | .raised f _ =>
    if s.i.toNat < memSize then
      .next (((s.storeFreely s.freeCount s.i.toNat 0 (bcdDigits (s.reg x))).countFree).raise f)
    else .next (s.raise f)

/-- LD [I], FX55 (R195): a fault keeps the earlier bytes and does not advance I. -/
def execLdMemI (x : Reg) (s : State) : StepOutcome :=
  match s.storeRegs s.i.toNat (regsUpTo x) with
  | .ok t => .next (if s.quirks.storeAdvancesI then t.setIndex (s.advancedIndex x) else t)
  | .raised f t => .next (t.raise f)

/-- LD Vx, [I] FX65 (R196): a fault keeps the earlier registers and does not advance I. -/
def execLdVxMem (x : Reg) (s : State) : StepOutcome :=
  match s.loadRegs s.i.toNat (regsUpTo x) with
  | .ok t => .next (if s.quirks.loadAdvancesI then t.setIndex (s.advancedIndex x) else t)
  | .raised f t => .next (t.raise f)

end Sys2Proof.Machine
end

