-- ==== Sys2Proof/Machine/Platform.lean ====
section
/-! DEFINITION. Random, timers and key wait (46_timer_key_random.md). -/

namespace Sys2Proof.Machine

/-- RND CXNN (R230): one request to the platform capability, whose answer is a free value (log 4). -/
def execRnd (x : Reg) (nn : Byte) (s : State) : StepOutcome :=
  .next ((s.setReg x (s.randomByte &&& nn)).countRandom)

/-- LD Vx, DT FX07 (R231). -/
def execLdVxDT (x : Reg) (s : State) : StepOutcome := .next (s.setReg x s.dt.current)

/-- LD Vx, K FX0A (R232): the wait begins; it is resolved by a later step (40_execution_cycle.md R103). -/
def execLdVxK (x : Reg) (s : State) : StepOutcome := .next (s.setLatch (some x))

/-- LD DT, Vx FX15 (R233). -/
def execLdDTVx (x : Reg) (s : State) : StepOutcome := .next (s.setDT (s.dt.set (s.reg x)))

/-- `PlaySound()` and `playing <- true` (46_timer_key_random.md R234, R235). -/
def State.startSound (s : State) : State := (s.emit .play).setPlaying true

/-- LD ST, Vx FX18 (R234 to R236). -/
def execLdSTVx (x : Reg) (s : State) : StepOutcome :=
  let t := s.setST (s.st.set (s.reg x))
  .next (if s.reg x ≠ 0 ∨ s.params.playOnZero then t.startSound else t)

end Sys2Proof.Machine
end

