-- ==== Sys2Proof/Machine/Skip.lean ====
section
/-! DEFINITION. Conditional skips (42_skip.md). -/

namespace Sys2Proof.Machine

/-- SE 3XNN (R141). -/
def execSeImm (x : Reg) (nn : Byte) (s : State) : StepOutcome := .next (s.skipIf (s.reg x == nn))

/-- SNE 4XNN (R142). -/
def execSneImm (x : Reg) (nn : Byte) (s : State) : StepOutcome := .next (s.skipIf (s.reg x != nn))

/-- SE 5XY0 (R143). -/
def execSeReg (x y : Reg) (s : State) : StepOutcome := .next (s.skipIf (s.reg x == s.reg y))

/-- SNE 9XY0 (R144). -/
def execSneReg (x y : Reg) (s : State) : StepOutcome := .next (s.skipIf (s.reg x != s.reg y))

/-- SKP EX9E (R145). -/
def execSkp (x : Reg) (s : State) : StepOutcome := .next (s.skipIf (s.keyPressed (s.reg x)))

/-- SKNP EXA1 (R146). -/
def execSknp (x : Reg) (s : State) : StepOutcome := .next (s.skipIf (!s.keyPressed (s.reg x)))

end Sys2Proof.Machine
end

