-- ==== Sys2Proof/Machine/Step.lean ====
section
/-! DEFINITION. One step of the core (40_execution_cycle.md R101). -/

namespace Sys2Proof.Machine

/-- One call of the step interface (R101): a refused step, a step without an instruction, or the execution of the
decoded instruction. -/
def step (s : State) : Host.Outcome State Fault Refusal :=
  match s.prepare with
  | .refuse r => .refused r
  | .done t => .next t
  | .run i t => exec i t

/-- `s` with a word, numbered as the opcode table numbers it, stored where `step` fetches its next instruction. -/
def State.withFetchWord (s : State) (nbits w : Nat) : State :=
  s.placeNext (tableWordBytes nbits w)

end Sys2Proof.Machine
end

