-- ==== Sys2Proof/Machine/Construct.lean ====
section
/-! DEFINITION. Construction, the only reset (70_reset_and_hazards.md R400 to R407). -/

namespace Sys2Proof.Machine

/-- The launch values `init` (R404): what the source gives no construction value for. `mem` gives the bytes outside the
glyph table and the image. -/
structure Init where
  v : Vector Byte 16
  i : Word
  dtStart : Byte
  dtCurrent : Byte
  stStart : Byte
  stCurrent : Byte
  display : Display
  mem : Memory

/-- Every launch value 0 (95_test_vectors.md section 0). -/
def Init.zero : Init := ⟨Vector.replicate 16 0, 0, 0, 0, 0, 0, Display.blank, []⟩

/-- The conventional glyph table as a FONT argument (R402). -/
def conventionalFont : Vector Byte 80 := ⟨fontTable.toArray, rfl⟩

/-- The memory after construction (R402 to R404): the launch bytes, the glyph table at 0, the image at 0x200. -/
def constructMemory (image : List Byte) (font : Vector Byte 80) (mem : Memory) : Memory :=
  (mem.setBytes 0 font.toList).setBytes 0x200 image

/-- `Construct(image, Q, init)` with the open parameters and FONT (R400): RomTooLarge, or a new instance that has taken
no step. Rate and key are the driver's, set before each step (log 2). -/
def construct (image : List Byte) (q : Quirks) (p : Params) (font : Vector Byte 80) (l : Init) :
    Except Fault State :=
  if memSize ≤ image.length + 0x200 then .error .romTooLarge
  else .ok {
    State.reset with
    mem := constructMemory image font l.mem
    v := l.v
    i := l.i
    display := l.display
    dt := ⟨l.dtStart, l.dtCurrent, ⟨0, 1⟩⟩
    st := ⟨l.stStart, l.stCurrent, ⟨0, 1⟩⟩
    quirks := q
    params := p }

/-- The driver's settings for the coming steps (60_exceptions.md R332). -/
def State.withDriver (s : State) (ds : List DriverInput) : State := { s with pending := ds }

end Sys2Proof.Machine
end

