-- ==== Sys2Proof/Machine/Trace.lean ====
section
/-! DEFINITION. The trace output (40_execution_cycle.md R108, 60_exceptions.md R343): the mnemonic text of a decoded
instruction in the spelling of 30_encoding.md R80, "a convenience output, not a contract". -/

namespace Sys2Proof.Machine

/-- An upper-case hexadecimal digit. -/
def hexDigit (n : Nat) : String :=
  match n % 16 with
  | 0 => "0"
  | 1 => "1"
  | 2 => "2"
  | 3 => "3"
  | 4 => "4"
  | 5 => "5"
  | 6 => "6"
  | 7 => "7"
  | 8 => "8"
  | 9 => "9"
  | 10 => "A"
  | 11 => "B"
  | 12 => "C"
  | 13 => "D"
  | 14 => "E"
  | _ => "F"

/-- A nibble as one digit (R80). -/
def hexNibble (n : Nibble) : String := hexDigit n.toNat
/-- A byte as two digits (R80). -/
def hexByte (b : Byte) : String := hexDigit (b.toNat / 16) ++ hexDigit b.toNat
/-- An address as three digits (R80). -/
def hexAddr (a : Addr12) : String := hexDigit (a.toNat / 256) ++ hexDigit (a.toNat / 16) ++ hexDigit a.toNat
/-- A register `V0`..`VF` (R80). -/
def regName (x : Reg) : String := "V" ++ hexDigit x.toNat

/-- Two registers. -/
def regPair (x y : Reg) : String := regName x ++ ", " ++ regName y
/-- A register and a byte. -/
def regByte (x : Reg) (nn : Byte) : String := regName x ++ ", " ++ hexByte nn

/-- The mnemonic text of an instruction (R80); only the two shifts' depends on the quirks (R76). -/
def mnemonicText (q : Quirks) : Instr → String
  | .sys nnn => "SYS " ++ hexAddr nnn
  | .cls => "CLS"
  | .ret => "RET"
  | .jp nnn => "JP " ++ hexAddr nnn
  | .call nnn => "CALL " ++ hexAddr nnn
  | .seImm x nn => "SE " ++ regByte x nn
  | .sneImm x nn => "SNE " ++ regByte x nn
  | .seReg x y => "SE " ++ regPair x y
  | .ldImm x nn => "LD " ++ regByte x nn
  | .addImm x nn => "ADD " ++ regByte x nn
  | .ldReg x y => "LD " ++ regPair x y
  | .orReg x y => "OR " ++ regPair x y
  | .andReg x y => "AND " ++ regPair x y
  | .xorReg x y => "XOR " ++ regPair x y
  | .addReg x y => "ADD " ++ regPair x y
  | .subReg x y => "SUB " ++ regPair x y
  | .shr x y => "SHR " ++ (if q.shrUsesVy then regPair x y else regName x)
  | .subn x y => "SUBN " ++ regPair x y
  | .shl x y => "SHL " ++ (if q.shlUsesVy then regPair x y else regName x)
  | .sneReg x y => "SNE " ++ regPair x y
  | .ldI nnn => "LD I, " ++ hexAddr nnn
  | .jpV0 nnn => "JP V0, " ++ hexAddr nnn
  | .rnd x nn => "RND " ++ regByte x nn
  | .drw x y n => "DRW " ++ regPair x y ++ ", " ++ hexNibble n
  | .skp x => "SKP " ++ regName x
  | .sknp x => "SKNP " ++ regName x
  | .ldVxDT x => "LD " ++ regName x ++ ", DT"
  | .ldVxK x => "LD " ++ regName x ++ ", K"
  | .ldDTVx x => "LD DT, " ++ regName x
  | .ldSTVx x => "LD ST, " ++ regName x
  | .addI x => "ADD I, " ++ regName x
  | .ldF x => "LD F, " ++ regName x
  | .ldB x => "LD B, " ++ regName x
  | .ldMemI x => "LD [I], " ++ regName x
  | .ldVxMem x => "LD " ++ regName x ++ ", [I]"

/-- The trace text of the last step: the mnemonic of the instruction it executed, if it executed one (R108). -/
def State.traceText (s : State) : Option String :=
  match s.result with
  | some (.executed i) => some (mnemonicText s.quirks i)
  | _ => none

end Sys2Proof.Machine
end

