-- ==== Sys2Proof/Safety.lean ====
section
/-! DEFINITION. The terms claims are stated in: the pieces of the state one by one, what a transition keeps, what
taking a fault leaves, and the invariant of the machine. -/

namespace Sys2Proof.Machine

/-- The pieces of the state, each register, byte of memory and display cell on its own. -/
inductive Piece where
  | mem (a : Nat)
  | reg (r : Reg)
  | index
  | pc
  | stack
  | cell (x : Fin 64) (y : Fin 32)
  | dt
  | st
  | playing
  | latch
  | quirks
  | params
  | rate
  | key
  | pending
  | result
  | events
  | faultRecord
  | randomCount
  | freeCount
deriving DecidableEq, Repr

/-- A piece holds the same in two states. A byte of memory is compared through the model's read of one byte. -/
def Piece.same (s t : State) : Piece → Prop
  | .mem a => t.mem.byteAt a = s.mem.byteAt a
  | .reg r => t.reg r = s.reg r
  | .index => t.i = s.i
  | .pc => t.pc = s.pc
  | .stack => t.stack = s.stack
  | .cell x y => t.display.cell x y = s.display.cell x y
  | .dt => t.dt = s.dt
  | .st => t.st = s.st
  | .playing => t.playing = s.playing
  | .latch => t.latch = s.latch
  | .quirks => t.quirks = s.quirks
  | .params => t.params = s.params
  | .rate => t.rate = s.rate
  | .key => t.key = s.key
  | .pending => t.pending = s.pending
  | .result => t.result = s.result
  | .events => t.events = s.events
  | .faultRecord => t.faultRecord = s.faultRecord
  | .randomCount => t.randomCount = s.randomCount
  | .freeCount => t.freeCount = s.freeCount

/-- THE FRAME: from `s` to `t` every piece is unchanged except those `may` names. -/
def OnlyChanges (may : Piece → Prop) (s t : State) : Prop := ∀ p, ¬ may p → p.same s t

/-- The pieces of a list. -/
def these (ps : List Piece) : Piece → Prop := fun p => p ∈ ps

/-- `t` is `s` after the fault `f` was taken, and nothing else changed but what `may` names: the step's result is `f`,
and the sticky record is `f` unless it held an earlier fault (60_exceptions.md R301, R305). -/
def TakesFault (f : Fault) (may : Piece → Prop) (s t : State) : Prop :=
  t.result = some (.fault f) ∧ t.faultRecord = some (s.faultRecord.getD f) ∧
  OnlyChanges (fun p => may p ∨ p = .result ∨ p = .faultRecord) s t

/-- No fault has been recorded: the premise of a claim about a fault-free run (60_exceptions.md R305, 92 D29). -/
def State.NoFault (s : State) : Prop := s.faultRecord = none

/-- A timer as a run reaches it: `acc` is a fraction in lowest terms (10_state.md R35). -/
def Timer.wf (t : Timer) : Prop := t.acc.wf

/-- The fraction's value. -/
def Frac.value (a : Frac) : ℚ := (a.num : ℚ) / (a.den : ℚ)

/-- The last step's result is a fault only if a fault is recorded (60_exceptions.md R305). -/
def State.FaultRecorded (s : State) : Prop := ∀ f, s.result = some (.fault f) → s.faultRecord ≠ none

/-- THE INVARIANT of the machine: the memory keeps its canonical form, the call stack holds at most 16 entries
(10_state.md R30), `pc` stays below 0x10FF and every return address is at most 4096 (R24), both accumulators are
fractions in lowest terms (R35), and a fault result is recorded (60_exceptions.md R305). -/
def State.Inv (s : State) : Prop :=
  s.mem.wf ∧ s.stack.length ≤ stackCap ∧ s.pc.toNat < 0x10FF ∧ (∀ a ∈ s.stack, a.toNat ≤ memSize) ∧
  s.dt.wf ∧ s.st.wf ∧ s.FaultRecorded

/-! ## Pieces that a statement names together -/

/-- The `n` bytes of memory from address `a` on. -/
def bytesFrom (a n : Nat) : Piece → Prop := fun p => ∃ k, k < n ∧ p = .mem (a + k)

/-- The registers V0..VX. -/
def regsTo (x : Reg) : Piece → Prop := fun p => ∃ r : Reg, r.toNat ≤ x.toNat ∧ p = .reg r

/-- Every display cell. -/
def anyCell : Piece → Prop := fun p => ∃ x y, p = .cell x y

/-- What the start of every step may change, the tick phase included: the inputs, the outputs, the timers and the
playing flag (40_execution_cycle.md R100 to R102). -/
def stepPieces : List Piece := [.dt, .st, .playing, .rate, .key, .pending, .events, .result]

/-! ## The rules of a family, as predicates -/

/-- From `s` to `t` the result `r`, computed from VX and VY, went to VX and the flag `f` to VF, in the order that
`vf_write_order` names, and nothing else changed (43_alu.md R160). The second write wins where X is VF; under
`flag_first_reread` an operand that is VF is read again, as `f`. -/
def WritesResultAndFlag (s t : State) (x y : Reg) (r : Byte → Byte → Byte) (f : Byte) : Prop :=
  OnlyChanges (these [.reg x, .reg vf]) s t ∧
  match s.params.vfWriteOrder with
  | .flagLast => t.reg vf = f ∧ (x ≠ vf → t.reg x = r (s.reg x) (s.reg y))
  | .resultLast => t.reg x = r (s.reg x) (s.reg y) ∧ (x ≠ vf → t.reg vf = f)
  | .flagFirstReread =>
    t.reg x = r (if x = vf then f else s.reg x) (if y = vf then f else s.reg y) ∧ (x ≠ vf → t.reg vf = f)

/-- The sprite of `n` rows at I, drawn at (`x0`, `y0`), has a 1 bit for the pixel (`x`, `y`): some row `r` and column
`c` fall on it after wrapping, bit 7 leftmost (45_display.md R221). -/
def spritePixel (s : State) (x0 y0 : Byte) (n : Nat) (x : Fin 64) (y : Fin 32) : Bool :=
  (List.range n).any fun r => (List.range 8).any fun c =>
    decide ((x0.toNat + c) % 64 = x.val) && decide ((y0.toNat + r) % 32 = y.val) &&
      (s.mem.byteAt (s.i.toNat + r)).getLsbD (7 - c)

/-- Some pixel is set in the display and in the sprite (45_display.md R221: a collision). -/
def Collides (s : State) (x0 y0 : Byte) (n : Nat) : Prop :=
  ∃ x y, s.display.cell x y = true ∧ spritePixel s x0 y0 n x y = true

/-- The registers that an instruction may write: its destination, and VF as the flag register where the spec lists it
(10_state.md R21). -/
def writesReg (q : Quirks) (r : Reg) : Instr → Prop
  | .ldImm x _ | .addImm x _ | .rnd x _ => r = x
  | .ldReg x _ | .orReg x _ | .andReg x _ | .xorReg x _ => r = x
  | .ldVxDT x => r = x
  | .addReg x _ | .subReg x _ | .shr x _ | .subn x _ | .shl x _ => r = x ∨ r = vf
  | .drw _ _ _ => r = vf
  | .addI _ => r = vf ∧ q.indexAddSetsVf = true
  | .ldVxMem x => r.toNat ≤ x.toNat
  | .sys _ | .cls | .ret | .jp _ | .call _ | .jpV0 _ => False
  | .seImm _ _ | .sneImm _ _ | .seReg _ _ | .sneReg _ _ | .skp _ | .sknp _ => False
  | .ldI _ | .ldF _ | .ldB _ | .ldMemI _ => False
  | .ldVxK _ | .ldDTVx _ | .ldSTVx _ => False

/-- Both timers' `start` set to 0: what is left is all that a step reads (10_state.md R35). -/
def State.eraseStarts (s : State) : State :=
  { s with dt := { s.dt with start := 0 }, st := { s.st with start := 0 } }

/-- An outcome with its next state changed. -/
def mapNext (g : State → State) : StepOutcome → StepOutcome
  | .next t => .next (g t)
  | .fault f => .fault f
  | .refused r => .refused r

end Sys2Proof.Machine
end

