-- ==== Sys2Proof/Certificates/Slice0/Obligations.lean ====
section
/-! DEFINITION. The statements about the core, for the provers. A statement about `exec` is about the instruction's own
effect: on entry `pc` is already the instruction's address plus 2 (40_execution_cycle.md R105). -/

open Sys2Proof Sys2Proof.Machine

/-! ## Encoding -/

/-- A few words, one or more valid ones of each of the sixteen buckets, decode to the instruction that the opcode map gives
them, and five words are invalid (30_encoding.md section 2, whose map the spec marks "from general knowledge, not in
source", D1). -/
def Obligations.OpcodeMapWordsDecode : Prop :=
  decode 0x00E0#16 = .ok .cls ∧ decode 0x00EE#16 = .ok .ret ∧ decode 0x0123#16 = .ok (.sys 0x123#12) ∧
  decode 0x1234#16 = .ok (.jp 0x234#12) ∧ decode 0x2240#16 = .ok (.call 0x240#12) ∧
  decode 0x3342#16 = .ok (.seImm 3#4 0x42#8) ∧ decode 0x4300#16 = .ok (.sneImm 3#4 0x00#8) ∧
  decode 0x5120#16 = .ok (.seReg 1#4 2#4) ∧ decode 0x6A7F#16 = .ok (.ldImm 0xA#4 0x7F#8) ∧
  decode 0x7220#16 = .ok (.addImm 2#4 0x20#8) ∧ decode 0x9120#16 = .ok (.sneReg 1#4 2#4) ∧
  decode 0x8AB6#16 = .ok (.shr 0xA#4 0xB#4) ∧ decode 0x81FE#16 = .ok (.shl 1#4 0xF#4) ∧
  decode 0xA2F0#16 = .ok (.ldI 0x2F0#12) ∧ decode 0xBFFF#16 = .ok (.jpV0 0xFFF#12) ∧
  decode 0xC30F#16 = .ok (.rnd 3#4 0x0F#8) ∧ decode 0xD125#16 = .ok (.drw 1#4 2#4 5#4) ∧
  decode 0xE49E#16 = .ok (.skp 4#4) ∧ decode 0xE4A1#16 = .ok (.sknp 4#4) ∧
  decode 0xF10A#16 = .ok (.ldVxK 1#4) ∧ decode 0xF033#16 = .ok (.ldB 0#4) ∧
  decode 0xF255#16 = .ok (.ldMemI 2#4) ∧ decode 0xF265#16 = .ok (.ldVxMem 2#4) ∧
  decode 0x5121#16 = .error (.invalid 0x5121#16) ∧ decode 0x8008#16 = .error (.invalid 0x8008#16) ∧
  decode 0x9128#16 = .error (.invalid 0x9128#16) ∧ decode 0xE400#16 = .error (.invalid 0xE400#16) ∧
  decode 0xF000#16 = .error (.invalid 0xF000#16)

/-- Decoding the bytes of a well-formed instruction, with any bytes after them, gives back the instruction with every
operand, and the bytes after it (30_encoding.md sections 1 and 2). The bit patterns are the spec's decision D1, and
00E0 and 00EE before SYS its D2. -/
def Obligations.EncodeThenDecode : Prop :=
  ∀ (i : Instr) (rest : List Byte), i.wellFormed = true →
    decodeBytes (encodeBytes i ++ rest) = .ok (i, rest)

/-- A word that decodes is the encoding of what it decodes to, so that each instruction has exactly one word, and what
it decodes to is well formed (30_encoding.md sections 2 and 4). The bit patterns are the spec's decision D1, and
00E0 and 00EE before SYS its D2. -/
def Obligations.DecodeThenEncode : Prop :=
  ∀ (w : Word) (i : Instr), decode w = .ok i → encode i = w ∧ i.wellFormed = true

/-- The words that decode to the invalid sentinel are exactly those of the table of 30_encoding.md section 3 (R78, which
the spec derives from R74): bucket 5 or 9 with N not 0, bucket 8 with N in 8..D or F, bucket E and F with no listed
NN. The bit patterns under it are the spec's decision D1. -/
def Obligations.InvalidWordsAreExactlyTheListed : Prop :=
  ∀ w : Word, decode w = .error (.invalid w) ↔
    ((fieldPrefix w = 5#4 ∨ fieldPrefix w = 9#4) ∧ fieldN w ≠ 0#4) ∨
    (fieldPrefix w = 8#4 ∧ (8#4 ≤ fieldN w ∧ fieldN w ≤ 0xD#4 ∨ fieldN w = 0xF#4)) ∨
    (fieldPrefix w = 0xE#4 ∧ fieldNN w ∉ [0x9E#8, 0xA1#8]) ∨
    (fieldPrefix w = 0xF#4 ∧
      fieldNN w ∉ [0x07#8, 0x0A#8, 0x15#8, 0x18#8, 0x1E#8, 0x29#8, 0x33#8, 0x55#8, 0x65#8])

/-- The mnemonic text depends on the quirks for the two register shifts only (30_encoding.md R76, whose last clause the
spec derives; the spelling is the spec's own choice, D4). -/
def Obligations.MnemonicDependsOnQuirksForShiftsOnly : Prop :=
  ∀ (q q' : Quirks) (i : Instr), mnemonicText q i ≠ mnemonicText q' i →
    (∃ x y, i = .shr x y ∧ q.shrUsesVy ≠ q'.shrUsesVy) ∨ (∃ x y, i = .shl x y ∧ q.shlUsesVy ≠ q'.shlUsesVy)

/-! ## The step -/

/-- R55: the fetch reads `pc` and `pc + 1`, the first being bits 15..8; it raises MemFault(pc) when `pc` is at or above
4096 and MemFault(pc + 1) when `pc` is 4095. -/
def Obligations.FetchReadsTwoBytesBigEndian : Prop :=
  ∀ s : State,
    (4096 ≤ s.pc.toNat → s.fetch = .error (.memFault s.pc.toNat)) ∧
    (s.pc.toNat = 4095 → s.fetch = .error (.memFault 4096)) ∧
    (s.pc.toNat ≤ 4094 → ∃ w, s.fetch = .ok w ∧
      w.toNat = 256 * (s.mem.byteAt s.pc.toNat).toNat + (s.mem.byteAt (s.pc.toNat + 1)).toNat)

/-- A STEP RUNS THE DECODED INSTRUCTION: with an admissible rate, no key wait and two bytes at `pc` that decode to `i`,
the step is the execution of `i` from a state `t` that differs from `s` only so: the driver's inputs are taken, both
timers are ticked, the sound-stop check is done, `pc` is 2 further, and the step's result is Executed(i)
(40_execution_cycle.md section 2). That the delay timer is ticked here is the spec's decision D13, where `pc` advances its
decision D5 (log 10), and the result names its D23. That rate and key come from `pending`, and that the outputs are fields
of the state, is the model's form (logs 2 and 8). -/
def Obligations.StepRunsTheDecodedInstruction : Prop :=
  ∀ (s : State) (rate : Nat) (i : Instr), s.stepRate = some rate → s.latch = none → s.pc.toNat ≤ 4094 →
    decode (wordOfBytes (s.mem.byteAt s.pc.toNat) (s.mem.byteAt (s.pc.toNat + 1))) = .ok i →
    ∃ t, step s = exec i t ∧ t.pc.toNat = s.pc.toNat + 2 ∧
      t.dt = s.dt.tick s.params.subratePolicy rate ∧ t.st = s.st.tick s.params.subratePolicy rate ∧
      t.playing = (s.playing && t.st.current != 0) ∧
      t.events = (if s.playing = true ∧ t.st.current = 0 then [.pause] else []) ∧
      t.rate = s.takeInput.rate ∧ t.key = s.takeInput.key ∧ t.pending = s.pending.tail ∧
      t.result = some (.executed i) ∧ OnlyChanges (these (.pc :: stepPieces)) s t

/-- A step whose fetch is out of range takes MemFault of the first address at or above 4096; both timers are ticked, and
`pc` and everything but what the start of the step changes keep their values (40_execution_cycle.md section 2; that `pc`
stays is the spec's decision D5, that the delay timer is ticked its D13, log 10). The sticky fault record is the decision
D29 as a field of the model (log 1), and the rate is the model's input (log 2). -/
def Obligations.FetchFaultKeepsThePc : Prop :=
  ∀ (s : State) (rate : Nat), s.stepRate = some rate → s.latch = none → 4095 ≤ s.pc.toNat →
    ∃ t, step s = .next t ∧ TakesFault (.memFault (max s.pc.toNat 4096)) (these stepPieces) s t ∧
      t.dt = s.dt.tick s.params.subratePolicy rate ∧ t.st = s.st.tick s.params.subratePolicy rate

/-- A step that fetches an invalid word takes InvalidOpcode(w) with `pc` advanced by 2, both timers ticked, and nothing
else changed but what the start of the step changes (40_execution_cycle.md section 2; the advance is the spec's decision
D5, that the delay timer is ticked its D13, log 10). The sticky fault record is the decision D29 as a field of the model
(log 1), and the rate is the model's input (log 2). -/
def Obligations.InvalidOpcodeMovesPastTheWord : Prop :=
  ∀ (s : State) (rate : Nat) (w : Word), s.stepRate = some rate → s.latch = none → s.fetch = .ok w →
    decode w = .error (.invalid w) →
    ∃ t, step s = .next t ∧ TakesFault (.invalidOpcode w) (these (.pc :: stepPieces)) s t ∧
      t.pc.toNat = s.pc.toNat + 2 ∧
      t.dt = s.dt.tick s.params.subratePolicy rate ∧ t.st = s.st.tick s.params.subratePolicy rate

/-- A step of an AwaitingKey core runs no instruction: both timers are ticked; with a key the register takes the key's
number and the latch is cleared, without one nothing else changes; `pc` stays (40_execution_cycle.md section 2; that the
delay timer is ticked too is the spec's decision D13 and 90_conflicts.md C3, log 10; the two result names are its D23).
That rate and key are taken from `pending` by `takeInput` is the model's form (log 2). -/
def Obligations.AwaitingKeyRunsNoInstruction : Prop :=
  ∀ (s : State) (rate : Nat) (x : Reg), s.stepRate = some rate → s.latch = some x →
    ∃ t, step s = .next t ∧
      t.dt = s.dt.tick s.params.subratePolicy rate ∧ t.st = s.st.tick s.params.subratePolicy rate ∧
      (∀ k, s.takeInput.key = some k → (t.reg x).toNat = k.toNat ∧ t.latch = none ∧
        t.result = some (.keyResolved x k) ∧ OnlyChanges (these (.reg x :: .latch :: stepPieces)) s t) ∧
      (s.takeInput.key = none → t.result = some .waiting ∧ OnlyChanges (these stepPieces) s t)

/-- EVERY STEP RETURNS: a step answers a next state, unless its rate is 0 or no integer or it executes SYS under
`sys_policy = refuse`, where it is refused by name (40_execution_cycle.md section 3, 60_exceptions.md section 1; the
refusals are the spec's decisions D3 and D14, their form is log 12). It never stops with a fault: that a faulting step is a
next state is the model's form (log 1). -/
def Obligations.StepAnswersUnlessRefused : Prop :=
  ∀ s : State,
    (s.stepRate = none → step s = .refused .badRate) ∧
    (s.stepRate ≠ none →
      (∃ t, step s = .next t) ∨
      (step s = .refused .sysRefused ∧ s.params.sysPolicy = .refuse ∧ s.latch = none ∧
        ∃ w nnn, s.fetch = .ok w ∧ decode w = .ok (.sys nnn)))

/-! ## Invariants and whole-machine rules -/

/-- THE INVARIANT IS KEPT by every step from every state that meets it. The spec gives: at most 16 stack entries
(10_state.md section 4), `pc` below 0x10FF and return addresses at most 4096 (10_state.md section 2, R24, which the spec
derives). The rest is the model's: the memory list in canonical form (log 16), both accumulators as fractions in lowest
terms (log 11, over the exact rational of the spec's decision D14), and a fault result recorded (log 1, over its decision
D29). -/
def Obligations.StepKeepsTheInvariant : Prop :=
  ∀ s t : State, s.Inv → step s = .next t → t.Inv

/-- The state right after construction meets the invariant: `State.reset`, and every constructed instance whose launch
memory is in canonical form (70_reset_and_hazards.md section 1). `State.reset` takes the model's launch values (logs 2, 3,
5, 6 and 7), and canonical memory, lowest terms and the fault record are the model's own (logs 16, 11 and 1). -/
def Obligations.ConstructionMeetsTheInvariant : Prop :=
  State.reset.Inv ∧
  ∀ (image : List Byte) (q : Quirks) (p : Params) (font : Vector Byte 80) (l : Init) (s : State),
    l.mem.wf → construct image q p font l = .ok s → s.Inv

/-- No step changes the quirk configuration (10_state.md section 8, 70_reset_and_hazards.md section 1) or the open
parameters. The two sections speak of the quirks only: that the parameters of 00_scope.md R9 are a field of the state
which no step changes is the model's choice (log 3). -/
def Obligations.QuirksAndParametersNeverChange : Prop :=
  ∀ s t : State, step s = .next t → t.quirks = s.quirks ∧ t.params = s.params

/-- The fault record is sticky: a recorded fault stays, and a fault is first recorded by exactly the step that returns
it (60_exceptions.md R305, the spec's modelling choice D29; the record is a field of the model, log 1). -/
def Obligations.FaultRecordIsSticky : Prop :=
  ∀ s t : State, step s = .next t →
    (∀ f, s.faultRecord = some f → t.faultRecord = some f) ∧
    (s.faultRecord = none → ∀ f, t.faultRecord = some f ↔ t.result = some (.fault f))

/-- No step returns one of the faults that the taxonomy calls unreachable, or RomTooLarge, which only construction
returns (60_exceptions.md section 1; that InvalidRegister is never raised is derived by the spec in R22). -/
def Obligations.UnreachableFaultsAreNeverReturned : Prop :=
  ∀ s t : State, step s = .next t →
    t.result ≠ some (.fault .displayFault) ∧ t.result ≠ some (.fault .nonMonotonicClockValue) ∧
    t.result ≠ some (.fault .romTooLarge) ∧ ∀ k, t.result ≠ some (.fault (.invalidRegister k))

/-- WHO WRITES WHAT, over all instructions, for each piece of state but the registers (RegistersChangeOnlyWhereNamed has
those): `pc` only JP, JP V0, CALL, RET and the six skips (beyond the advance before execution), the stack only CALL and
RET, the display only CLS and DRW, the latch only FX0A, the delay timer only FX15, the sound timer, `playing` and the sound
events only FX18, I only ANNN, FX1E, FX29 and, with their quirk, FX55 and FX65, memory only FX33 and FX55, the result and
the fault record only the six instructions that can fault; the quirks no instruction (10_state.md sections 2 to 8,
20_memory.md section 2, 60_exceptions.md sections 1, 3 and 4). The model's own choices: the counter of random requests,
which only CXNN advances (log 4, over R331), the inputs, which no instruction writes (log 2, over R332), the parameters,
which none writes (log 3), the outputs and the record as fields (logs 8 and 1), and the counter of partial faults, which
only FX33 and DXYN advance (log 9). -/
def Obligations.OnlyTheNamedInstructionsWrite : Prop :=
  ∀ (i : Instr) (s t : State), exec i s = .next t →
    (t.stack ≠ s.stack → i = .ret ∨ ∃ n, i = .call n) ∧
    (t.display ≠ s.display → i = .cls ∨ ∃ x y n, i = .drw x y n) ∧
    (t.latch ≠ s.latch → ∃ x, i = .ldVxK x) ∧
    (t.dt ≠ s.dt → ∃ x, i = .ldDTVx x) ∧
    (t.st ≠ s.st ∨ t.playing ≠ s.playing ∨ t.events ≠ s.events → ∃ x, i = .ldSTVx x) ∧
    (t.i ≠ s.i → (∃ n, i = .ldI n) ∨ (∃ x, i = .addI x) ∨ (∃ x, i = .ldF x) ∨
      (∃ x, i = .ldMemI x ∧ s.quirks.storeAdvancesI = true) ∨
      (∃ x, i = .ldVxMem x ∧ s.quirks.loadAdvancesI = true)) ∧
    ((∃ a, t.mem.byteAt a ≠ s.mem.byteAt a) → (∃ x, i = .ldB x) ∨ ∃ x, i = .ldMemI x) ∧
    (t.randomCount ≠ s.randomCount → ∃ x n, i = .rnd x n) ∧
    (t.pc ≠ s.pc → (∃ n, i = .jp n ∨ i = .jpV0 n ∨ i = .call n) ∨ i = .ret ∨
      (∃ x n, i = .seImm x n ∨ i = .sneImm x n) ∨ (∃ x y, i = .seReg x y ∨ i = .sneReg x y) ∨
      ∃ x, i = .skp x ∨ i = .sknp x) ∧
    (t.result ≠ s.result ∨ t.faultRecord ≠ s.faultRecord → i = .ret ∨ (∃ n, i = .call n) ∨
      (∃ x y n, i = .drw x y n) ∨ ∃ x, i = .ldB x ∨ i = .ldMemI x ∨ i = .ldVxMem x) ∧
    (t.freeCount ≠ s.freeCount → (∃ x, i = .ldB x) ∨ ∃ x y n, i = .drw x y n) ∧
    (t.rate = s.rate ∧ t.key = s.key ∧ t.pending = s.pending ∧ t.quirks = s.quirks ∧ t.params = s.params)

/-- A register changes only where the instruction names it as its destination or, for VF, where the spec lists the
instruction as a flag writer; in particular the logic instructions and 7XNN leave VF alone (10_state.md section 1; that
the logic instructions do not write VF is the spec's decision D8). -/
def Obligations.RegistersChangeOnlyWhereNamed : Prop :=
  ∀ (i : Instr) (s t : State) (r : Reg), exec i s = .next t → t.reg r ≠ s.reg r → writesReg s.quirks r i

/-- A timer's `start` is written and never read: two states that differ only in it step to outcomes that differ only in
it (10_state.md section 6, derived by the spec). -/
def Obligations.TimerStartIsNeverRead : Prop :=
  ∀ s : State, mapNext State.eraseStarts (step s) = mapNext State.eraseStarts (step s.eraseStarts)

/-! ## Construction -/

/-- R401, R403, R405: after construction `pc` is 0x200, every image byte is at 0x200 plus its index, the call stack is
empty and the latch is none. (The glyph table is there too, whatever the FONT argument.) -/
def Obligations.ConstructionPlacesTheImage : Prop :=
  ∀ (image : List Byte) (q : Quirks) (p : Params) (font : Vector Byte 80) (l : Init),
    image.length + 0x200 < 4096 →
    ∃ s, construct image q p font l = .ok s ∧ s.pc = 0x200#16 ∧ s.stack = [] ∧ s.latch = none ∧
      (∀ k, (h : k < image.length) → s.mem.byteAt (0x200 + k) = image[k]) ∧
      (∀ k, (h : k < 80) → s.mem.byteAt k = font[k])

/-- What construction takes from its arguments and sets besides: the launch values of the registers, I, the timers and
the display, the launch bytes outside the glyph table and the image, the quirks and parameters; accumulators 0 and no
sound (70_reset_and_hazards.md section 1; decisions D18 and D19; the fault record is the model's own, log 1). -/
def Obligations.ConstructionTakesLaunchValues : Prop :=
  ∀ (image : List Byte) (q : Quirks) (p : Params) (font : Vector Byte 80) (l : Init) (s : State),
    construct image q p font l = .ok s →
    (∀ a, 80 ≤ a → (a < 0x200 ∨ 0x200 + image.length ≤ a) → s.mem.byteAt a = l.mem.byteAt a) ∧
    s.v = l.v ∧ s.i = l.i ∧ s.display = l.display ∧ s.quirks = q ∧ s.params = p ∧
    s.dt.start = l.dtStart ∧ s.dt.current = l.dtCurrent ∧ s.st.start = l.stStart ∧ s.st.current = l.stCurrent ∧
    s.dt.acc.value = 0 ∧ s.st.acc.value = 0 ∧ s.playing = false ∧ s.NoFault

/-- Construction fails with RomTooLarge exactly when the image length plus 0x200 meets or exceeds 4096, so that 3583
bytes construct and 3584 do not (70_reset_and_hazards.md section 1, 90_conflicts.md C1, decision D20). -/
def Obligations.ConstructionRefusesLargeImages : Prop :=
  ∀ (image : List Byte) (q : Quirks) (p : Params) (font : Vector Byte 80) (l : Init),
    construct image q p font l = .error .romTooLarge ↔ 3584 ≤ image.length

/-! ## Registers, memory, stack -/

/-- Register accesses are index-checked: an index below 16 reads or writes that register, any other raises
InvalidRegister of it (10_state.md section 1). -/
def Obligations.RegisterAccessIsChecked : Prop :=
  ∀ (s : State) (k : Nat) (b : Byte),
    (k < 16 → s.regRead k = .ok (s.reg (BitVec.ofNat 4 k)) ∧
      ∃ t, s.regWrite k b = .ok t ∧ t.reg (BitVec.ofNat 4 k) = b ∧
        OnlyChanges (these [.reg (BitVec.ofNat 4 k)]) s t) ∧
    (16 ≤ k → s.regRead k = .error (.invalidRegister k) ∧ s.regWrite k b = .error (.invalidRegister k))

/-- R52, R53: an access at 4096 or above raises MemFault of its address; a write below stores the byte, which a read then
gives, and changes nothing else; a read changes nothing. -/
def Obligations.MemoryAccessIsChecked : Prop :=
  ∀ (s : State) (a : Nat) (b : Byte),
    (4096 ≤ a → s.memRead a = .error (.memFault a) ∧ s.memWrite a b = .error (.memFault a)) ∧
    (a < 4096 → s.memRead a = .ok (s.mem.byteAt a) ∧
      ∃ t, s.memWrite a b = .ok t ∧ t.memRead a = .ok b ∧ OnlyChanges (these [.mem a]) s t)

/-- R31, R32: a push on a stack of 16 entries raises CallStackOverflow, a pop of an empty one CallStackEmpty; otherwise
the pushed value becomes the new top, and a pop gives the top and leaves the rest. -/
def Obligations.StackIsBoundedAndLastInFirstOut : Prop :=
  ∀ (s : State) (a : Word),
    (s.stack.length = 16 → s.push a = .error .callStackOverflow) ∧
    (s.stack.length < 16 → ∃ t, s.push a = .ok t ∧ t.stack = a :: s.stack ∧ OnlyChanges (these [.stack]) s t ∧
      t.pop = .ok (a, s)) ∧
    (s.stack = [] → s.pop = .error .callStackEmpty)

/-! ## Control transfer -/

/-- SYS under `sys_policy = nop` changes nothing (`pc` was already advanced); under `refuse` it is refused
(41_flow.md; the open parameter of decision D3). -/
def Obligations.SysFollowsItsPolicy : Prop :=
  ∀ (s : State) (nnn : Addr12),
    (s.params.sysPolicy = .nop → ∃ t, exec (.sys nnn) s = .next t ∧ OnlyChanges (these []) s t) ∧
    (s.params.sysPolicy = .refuse → exec (.sys nnn) s = .refused .sysRefused)

/-- JP goes to NNN and JP V0 to the exact sum NNN + V0, and nothing else changes (41_flow.md; the meanings are marked
"from general knowledge, not in source", D1 and D9). -/
def Obligations.JumpsSetThePc : Prop :=
  ∀ (s : State) (nnn : Addr12),
    (∃ t, exec (.jp nnn) s = .next t ∧ t.pc.toNat = nnn.toNat ∧ OnlyChanges (these [.pc]) s t) ∧
    (∃ t, exec (.jpV0 nnn) s = .next t ∧ t.pc.toNat = nnn.toNat + (s.reg 0#4).toNat ∧
      OnlyChanges (these [.pc]) s t)

/-- CALL pushes `pc` and jumps to NNN; with 16 entries on the stack it takes CallStackOverflow, and neither the stack nor
`pc` changes (41_flow.md, the rule of CALL; that `pc` is by then the address after the call is the spec's decisions D5 and
D6; the fault record is D29 and log 1). -/
def Obligations.CallPushesAndJumps : Prop :=
  ∀ (s : State) (nnn : Addr12),
    (s.stack.length < 16 → ∃ t, exec (.call nnn) s = .next t ∧ t.stack = s.pc :: s.stack ∧
      t.pc.toNat = nnn.toNat ∧ OnlyChanges (these [.pc, .stack]) s t) ∧
    (16 ≤ s.stack.length → ∃ t, exec (.call nnn) s = .next t ∧ TakesFault .callStackOverflow (these []) s t)

/-- RET pops the top of the stack into `pc`, as it is; on an empty stack it takes CallStackEmpty, and neither the stack
nor `pc` changes (41_flow.md, the rule of RET; that nothing is added to the popped value is the spec's decision D6; the
fault record is D29 and log 1). -/
def Obligations.ReturnPopsIntoThePc : Prop :=
  ∀ s : State,
    (∀ a rest, s.stack = a :: rest → ∃ t, exec .ret s = .next t ∧ t.pc = a ∧ t.stack = rest ∧
      OnlyChanges (these [.pc, .stack]) s t) ∧
    (s.stack = [] → ∃ t, exec .ret s = .next t ∧ TakesFault .callStackEmpty (these []) s t)

/-- A CALL that fits and then a RET come back: `pc` and the stack are as before the CALL, and nothing else changed
(41_flow.md R121 and R123 together). That nothing is added to the popped value is the spec's decision D6. -/
def Obligations.CallThenReturnComesBack : Prop :=
  ∀ (s : State) (nnn : Addr12), s.stack.length < 16 →
    ∃ t u, exec (.call nnn) s = .next t ∧ exec .ret t = .next u ∧ OnlyChanges (these []) s u

/-! ## Skips -/

/-- SE and SNE with an immediate, and SNE with a register, add 2 to `pc` exactly when their condition holds, and nothing
else changes (42_skip.md; their operand forms are marked "from general knowledge, not in source", D1). -/
def Obligations.CompareSkips : Prop :=
  ∀ (s : State) (x y : Reg) (nn : Byte),
    (∃ t, exec (.seImm x nn) s = .next t ∧ t.pc = (if s.reg x = nn then s.pc + 2 else s.pc) ∧
      OnlyChanges (these [.pc]) s t) ∧
    (∃ t, exec (.sneImm x nn) s = .next t ∧ t.pc = (if s.reg x ≠ nn then s.pc + 2 else s.pc) ∧
      OnlyChanges (these [.pc]) s t) ∧
    (∃ t, exec (.sneReg x y) s = .next t ∧ t.pc = (if s.reg x ≠ s.reg y then s.pc + 2 else s.pc) ∧
      OnlyChanges (these [.pc]) s t)

/-- R143: SE with two registers adds 2 to `pc` when they are equal, else `pc` stays; it
writes no register, no memory and no flag. -/
def Obligations.RegisterCompareSkips : Prop :=
  ∀ (s : State) (x y : Reg),
    ∃ t, exec (.seReg x y) s = .next t ∧ t.pc = (if s.reg x = s.reg y then s.pc + 2 else s.pc) ∧
      OnlyChanges (these [.pc]) s t

/-- SKP skips exactly when the current key is the number in VX, SKNP exactly when not, so that exactly one of them skips;
the key is not consumed (42_skip.md; the reading of "pressed" is the spec's decision D10). -/
def Obligations.KeySkips : Prop :=
  ∀ (s : State) (x : Reg),
    (∃ t, exec (.skp x) s = .next t ∧ OnlyChanges (these [.pc]) s t ∧
      t.pc = (if ∃ k, s.key = some k ∧ k.toNat = (s.reg x).toNat then s.pc + 2 else s.pc)) ∧
    (∃ t, exec (.sknp x) s = .next t ∧ OnlyChanges (these [.pc]) s t ∧
      t.pc = (if ∃ k, s.key = some k ∧ k.toNat = (s.reg x).toNat then s.pc else s.pc + 2))

/-! ## Loads, arithmetic, logic -/

/-- LD with an immediate and LD with a register copy their operand to VX, and nothing else changes (43_alu.md section 2;
marked "from general knowledge, not in source", D1). -/
def Obligations.LoadsCopyTheirOperand : Prop :=
  ∀ (s : State) (x y : Reg) (nn : Byte),
    (∃ t, exec (.ldImm x nn) s = .next t ∧ t.reg x = nn ∧ OnlyChanges (these [.reg x]) s t) ∧
    (∃ t, exec (.ldReg x y) s = .next t ∧ t.reg x = s.reg y ∧ OnlyChanges (these [.reg x]) s t)

/-- R162: ADD with an immediate gives the sum mod 256, and writes no carry: no other register changes. -/
def Obligations.AddImmediateWraps : Prop :=
  ∀ (s : State) (x : Reg) (nn : Byte),
    ∃ t, exec (.addImm x nn) s = .next t ∧ (t.reg x).toNat = ((s.reg x).toNat + nn.toNat) % 256 ∧
      OnlyChanges (these [.reg x]) s t

/-- OR, AND and XOR work bit by bit and change VX only, VF included (43_alu.md section 3; marked "from general knowledge,
not in source"; VF unwritten is the spec's decision D8). -/
def Obligations.LogicIsBitwise : Prop :=
  ∀ (s : State) (x y : Reg),
    (∃ t, exec (.orReg x y) s = .next t ∧ OnlyChanges (these [.reg x]) s t ∧
      ∀ k, (t.reg x).getLsbD k = ((s.reg x).getLsbD k || (s.reg y).getLsbD k)) ∧
    (∃ t, exec (.andReg x y) s = .next t ∧ OnlyChanges (these [.reg x]) s t ∧
      ∀ k, (t.reg x).getLsbD k = ((s.reg x).getLsbD k && (s.reg y).getLsbD k)) ∧
    (∃ t, exec (.xorReg x y) s = .next t ∧ OnlyChanges (these [.reg x]) s t ∧
      ∀ k, (t.reg x).getLsbD k = ((s.reg x).getLsbD k ^^ (s.reg y).getLsbD k))

/-- R167: ADD writes the sum mod 256 to VX and to VF 1 when the exact sum exceeds 255, else 0. The order of the two writes,
which shows where X or Y is VF, is the open parameter `vf_write_order` of the spec's decision D7: all three are stated. -/
def Obligations.AddRegisterSetsCarry : Prop :=
  ∀ (s : State) (x y : Reg),
    ∃ t, exec (.addReg x y) s = .next t ∧
      WritesResultAndFlag s t x y (fun a b => BitVec.ofNat 8 ((a.toNat + b.toNat) % 256))
        (if (s.reg x).toNat + (s.reg y).toNat > 255 then 1#8 else 0#8)

/-- R168 and R170: SUB gives VX - VY and SUBN VY - VX, mod 256, and VF is 0 when the subtraction underflowed, else 1. The
order of the two writes, which shows where X or Y is VF, is the open parameter `vf_write_order` of the spec's decision D7:
all three are stated. -/
def Obligations.SubtractionsSetNotBorrow : Prop :=
  ∀ (s : State) (x y : Reg),
    (∃ t, exec (.subReg x y) s = .next t ∧
      WritesResultAndFlag s t x y (fun a b => BitVec.ofInt 8 ((a.toNat : Int) - b.toNat))
        (if (s.reg x).toNat < (s.reg y).toNat then 0#8 else 1#8)) ∧
    (∃ t, exec (.subn x y) s = .next t ∧
      WritesResultAndFlag s t x y (fun a b => BitVec.ofInt 8 ((b.toNat : Int) - a.toNat))
        (if (s.reg y).toNat < (s.reg x).toNat then 0#8 else 1#8))

/-- The shifts take VX, or VY with their quirk on, move it by one bit, and write the bit shifted out to VF, in the order
of the open parameter `vf_write_order` (43_alu.md section 5; the order is the spec's decision D7). -/
def Obligations.ShiftsMoveOneBit : Prop :=
  ∀ (s : State) (x y : Reg),
    (∃ t, exec (.shr x y) s = .next t ∧
      WritesResultAndFlag s t x y
        (fun a b => BitVec.ofNat 8 ((if s.quirks.shrUsesVy then b else a).toNat / 2))
        (BitVec.ofNat 8 ((if s.quirks.shrUsesVy then s.reg y else s.reg x).toNat % 2))) ∧
    (∃ t, exec (.shl x y) s = .next t ∧
      WritesResultAndFlag s t x y
        (fun a b => BitVec.ofNat 8 ((if s.quirks.shlUsesVy then b else a).toNat * 2 % 256))
        (BitVec.ofNat 8 ((if s.quirks.shlUsesVy then s.reg y else s.reg x).toNat / 128)))

/-! ## The index register -/

/-- LD I loads the zero-extended NNN and changes nothing else (44_index_memory.md; marked "from general knowledge, not in
source", D1). -/
def Obligations.LoadIndexZeroExtends : Prop :=
  ∀ (s : State) (nnn : Addr12),
    ∃ t, exec (.ldI nnn) s = .next t ∧ t.i.toNat = nnn.toNat ∧ OnlyChanges (these [.index]) s t

/-- R191: ADD I adds VX to I mod 65536; with the quirk on VF takes the 16-bit overflow, with it off VF is untouched. -/
def Obligations.AddIndexWraps : Prop :=
  ∀ (s : State) (x : Reg),
    ∃ t, exec (.addI x) s = .next t ∧ t.i.toNat = (s.i.toNat + (s.reg x).toNat) % 65536 ∧
      (s.quirks.indexAddSetsVf = true →
        t.reg vf = (if s.i.toNat + (s.reg x).toNat > 0xFFFF then 1#8 else 0#8) ∧
        OnlyChanges (these [.index, .reg vf]) s t) ∧
      (s.quirks.indexAddSetsVf = false → OnlyChanges (these [.index]) s t)

/-- LD F sets I to five times the character code in VX; a code above 15 is cut to its low four bits or not, as
`font_code_policy` says (44_index_memory.md, the rule of LD_F; the policy is the open parameter of the spec's decision
D11). -/
def Obligations.FontAddressIsFiveTimesTheCode : Prop :=
  ∀ (s : State) (x : Reg),
    ∃ t, exec (.ldF x) s = .next t ∧ OnlyChanges (these [.index]) s t ∧
      ((s.reg x).toNat ≤ 15 → t.i.toNat = (s.reg x).toNat * 5) ∧
      (15 < (s.reg x).toNat → s.params.fontCodePolicy = .maskLowNibble → t.i.toNat = (s.reg x).toNat % 16 * 5) ∧
      (15 < (s.reg x).toNat → s.params.fontCodePolicy = .unmasked → t.i.toNat = (s.reg x).toNat * 5)

/-! ## Memory transfers -/

/-- LD B stores the hundreds, tens and ones digit of VX at I, I + 1 and I + 2 when all three are in the memory; no other
byte and nothing else changes (44_index_memory.md R194, its case without a fault). -/
def Obligations.BcdStoresThreeDigits : Prop :=
  ∀ (s : State) (x : Reg), s.i.toNat + 2 ≤ 4095 →
    ∃ t, exec (.ldB x) s = .next t ∧
      (t.mem.byteAt s.i.toNat).toNat = (s.reg x).toNat / 100 ∧
      (t.mem.byteAt (s.i.toNat + 1)).toNat = (s.reg x).toNat / 10 % 10 ∧
      (t.mem.byteAt (s.i.toNat + 2)).toNat = (s.reg x).toNat % 10 ∧
      OnlyChanges (bytesFrom s.i.toNat 3) s t

/-- LD B with an address out of range takes MemFault of the first one; each byte in range holds its old value or its
digit, and from an index of 4096 on no byte changes (44_index_memory.md R194; the free choice is the spec's decision
D21, log 9; the fault record is D29 and log 1). -/
def Obligations.BcdFaultLeavesOldOrDigit : Prop :=
  ∀ (s : State) (x : Reg), 4095 < s.i.toNat + 2 →
    ∃ t, exec (.ldB x) s = .next t ∧
      TakesFault (.memFault (max s.i.toNat 4096)) (fun p => bytesFrom s.i.toNat 2 p ∨ p = .freeCount) s t ∧
      (∀ k, k < 2 → t.mem.byteAt (s.i.toNat + k) = s.mem.byteAt (s.i.toNat + k) ∨
        (s.i.toNat + k < 4096 ∧ (k = 0 → (t.mem.byteAt s.i.toNat).toNat = (s.reg x).toNat / 100) ∧
          (k = 1 → (t.mem.byteAt (s.i.toNat + 1)).toNat = (s.reg x).toNat / 10 % 10))) ∧
      (4096 ≤ s.i.toNat → TakesFault (.memFault s.i.toNat) (these []) s t)

/-- LD [I] that fits stores V0..VX at I..I + X and nothing else, and advances I by X + 1 with its quirk on
(44_index_memory.md R195, its case without a fault). -/
def Obligations.BulkStoreCopiesRegisters : Prop :=
  ∀ (s : State) (x : Reg), s.i.toNat + x.toNat ≤ 4095 →
    ∃ t, exec (.ldMemI x) s = .next t ∧
      (∀ r : Reg, r.toNat ≤ x.toNat → t.mem.byteAt (s.i.toNat + r.toNat) = s.reg r) ∧
      t.i.toNat = (if s.quirks.storeAdvancesI = true then s.i.toNat + x.toNat + 1 else s.i.toNat) ∧
      OnlyChanges (fun p => bytesFrom s.i.toNat (x.toNat + 1) p ∨ p = .index) s t

/-- LD [I] that does not fit takes MemFault of the first address at or above 4096; the bytes below it are stored, and I
is not advanced (44_index_memory.md R192 and R195, 90_conflicts.md C4; I unchanged is the spec's decision D28; the
fault record is D29 and log 1). -/
def Obligations.BulkStoreFaultKeepsThePrefix : Prop :=
  ∀ (s : State) (x : Reg), 4095 < s.i.toNat + x.toNat →
    ∃ t, exec (.ldMemI x) s = .next t ∧
      (∀ r : Reg, r.toNat ≤ x.toNat → s.i.toNat + r.toNat < 4096 →
        t.mem.byteAt (s.i.toNat + r.toNat) = s.reg r) ∧
      TakesFault (.memFault (max s.i.toNat 4096)) (bytesFrom s.i.toNat (4096 - s.i.toNat)) s t

/-- LD Vx, [I] that fits loads V0..VX from I..I + X and nothing else, and advances I by X + 1 with its quirk on
(44_index_memory.md R196, its case without a fault). -/
def Obligations.BulkLoadCopiesMemory : Prop :=
  ∀ (s : State) (x : Reg), s.i.toNat + x.toNat ≤ 4095 →
    ∃ t, exec (.ldVxMem x) s = .next t ∧
      (∀ r : Reg, r.toNat ≤ x.toNat → t.reg r = s.mem.byteAt (s.i.toNat + r.toNat)) ∧
      t.i.toNat = (if s.quirks.loadAdvancesI = true then s.i.toNat + x.toNat + 1 else s.i.toNat) ∧
      OnlyChanges (fun p => regsTo x p ∨ p = .index) s t

/-- LD Vx, [I] that does not fit takes MemFault of the first address at or above 4096; the registers before it are
loaded, the others and I keep their values (44_index_memory.md R192 and R196, 90_conflicts.md C4; I unchanged is the
spec's decision D28; the fault record is D29 and log 1). -/
def Obligations.BulkLoadFaultKeepsThePrefix : Prop :=
  ∀ (s : State) (x : Reg), 4095 < s.i.toNat + x.toNat →
    ∃ t, exec (.ldVxMem x) s = .next t ∧
      (∀ r : Reg, r.toNat ≤ x.toNat → s.i.toNat + r.toNat < 4096 →
        t.reg r = s.mem.byteAt (s.i.toNat + r.toNat)) ∧
      (∀ r : Reg, 4096 ≤ s.i.toNat + r.toNat → t.reg r = s.reg r) ∧
      TakesFault (.memFault (max s.i.toNat 4096)) (regsTo x) s t

/-! ## Display -/

/-- R220: CLS makes every one of the 2048 cells 0 and changes nothing else; VF is not written. -/
def Obligations.ClearZeroesEveryCell : Prop :=
  ∀ s : State, ∃ t, exec .cls s = .next t ∧ (∀ x y, t.display.cell x y = false) ∧ OnlyChanges anyCell s t

/-- DRW whose bytes are all in the memory XORs the sprite's pixels, wrapped on both axes, and sets VF to 1 exactly when a
set pixel was cleared; only cells and VF change (45_display.md R221, 90_conflicts.md C2; bit 7 as the leftmost pixel is
the spec's choice D1). -/
def Obligations.DrawXorsTheSprite : Prop :=
  ∀ (s : State) (x y : Reg) (n : Nibble), (n = 0#4 ∨ s.i.toNat + n.toNat ≤ 4096) →
    ∃ t, exec (.drw x y n) s = .next t ∧
      (∀ px py, t.display.cell px py =
        (s.display.cell px py ^^ spritePixel s (s.reg x) (s.reg y) n.toNat px py)) ∧
      (Collides s (s.reg x) (s.reg y) n.toNat → t.reg vf = 1#8) ∧
      (¬ Collides s (s.reg x) (s.reg y) n.toNat → t.reg vf = 0#8) ∧
      OnlyChanges (fun p => anyCell p ∨ p = .reg vf) s t

/-- DRW with a byte out of range takes MemFault of the first one; every cell holds its old value or the value the rows
in range give it, VF its old value or the collision of those rows, and from an index of 4096 on nothing changes
(45_display.md R222; the free choice is the spec's decision D21, log 9; the fault record is D29 and log 1). -/
def Obligations.DrawFaultLeavesOldOrNew : Prop :=
  ∀ (s : State) (x y : Reg) (n : Nibble), n ≠ 0#4 → 4096 < s.i.toNat + n.toNat →
    ∃ t, exec (.drw x y n) s = .next t ∧
      TakesFault (.memFault (max s.i.toNat 4096)) (fun p => anyCell p ∨ p = .reg vf ∨ p = .freeCount) s t ∧
      (∀ px py, t.display.cell px py = s.display.cell px py ∨
        t.display.cell px py =
          (s.display.cell px py ^^ spritePixel s (s.reg x) (s.reg y) (4096 - s.i.toNat) px py)) ∧
      (t.reg vf = s.reg vf ∨
        (Collides s (s.reg x) (s.reg y) (4096 - s.i.toNat) ∧ t.reg vf = 1#8) ∨
        (¬ Collides s (s.reg x) (s.reg y) (4096 - s.i.toNat) ∧ t.reg vf = 0#8)) ∧
      (4096 ≤ s.i.toNat → TakesFault (.memFault s.i.toNat) (these []) s t)

/-- Drawing the same sprite twice at the same place restores the display, and VF is 1 after the second draw exactly when
the first one set a pixel (95_test_vectors.md S9; 45_display.md R221). X and Y are not VF, which the first draw writes:
with VF as a coordinate the second draw may be at another place (DrawXorsTheSprite covers it). -/
def Obligations.DrawingTwiceRestoresTheDisplay : Prop :=
  ∀ (s : State) (x y : Reg) (n : Nibble), (n = 0#4 ∨ s.i.toNat + n.toNat ≤ 4096) → x ≠ vf → y ≠ vf →
    ∃ t u, exec (.drw x y n) s = .next t ∧ exec (.drw x y n) t = .next u ∧
      OnlyChanges (these [.reg vf]) s u ∧
      (u.reg vf = 1#8 ↔
        ∃ px py, s.display.cell px py = false ∧ spritePixel s (s.reg x) (s.reg y) n.toNat px py = true)

/-! ## Random, timers, sound, key wait -/

/-- R230: RND asks for one random byte and writes it, masked by the immediate, to VX; nothing else changes but the count
of requests. The byte is a free value, any of the 256 (log 4): the statement holds for each. -/
def Obligations.RandomByteIsMasked : Prop :=
  ∀ (s : State) (x : Reg) (nn : Byte),
    ∃ t, exec (.rnd x nn) s = .next t ∧ t.reg x = s.randomByte &&& nn ∧ t.randomCount = s.randomCount + 1 ∧
      OnlyChanges (these [.reg x, .randomCount]) s t

/-- FX07 reads the delay timer's current value; FX15 sets start and current to VX and the accumulator to 0; nothing else
changes (46_timer_key_random.md; marked "from general knowledge, not in source", D1). -/
def Obligations.DelayTimerReadAndSet : Prop :=
  ∀ (s : State) (x : Reg),
    (∃ t, exec (.ldVxDT x) s = .next t ∧ t.reg x = s.dt.current ∧ OnlyChanges (these [.reg x]) s t) ∧
    (∃ t, exec (.ldDTVx x) s = .next t ∧ t.dt.start = s.reg x ∧ t.dt.current = s.reg x ∧ t.dt.acc.value = 0 ∧
      OnlyChanges (these [.dt]) s t)

/-- FX18 sets the sound timer to VX; for a nonzero value, or for 0 where `play_on_zero` holds, it signals play, also while
the sound is playing, and sets `playing` (46_timer_key_random.md R234 to R236; decisions D1 and D16). -/
def Obligations.SoundTimerStartsTheSound : Prop :=
  ∀ (s : State) (x : Reg),
    ∃ t, exec (.ldSTVx x) s = .next t ∧ t.st.start = s.reg x ∧ t.st.current = s.reg x ∧ t.st.acc.value = 0 ∧
      (s.reg x ≠ 0#8 ∨ s.params.playOnZero = true → t.playing = true ∧ t.events = s.events ++ [.play] ∧
        OnlyChanges (these [.st, .playing, .events]) s t) ∧
      (s.reg x = 0#8 ∧ s.params.playOnZero = false → OnlyChanges (these [.st]) s t)

/-- FX0A sets the latch to X and changes nothing else; the wait is resolved by a later step (46_timer_key_random.md R232,
40_execution_cycle.md R103). -/
def Obligations.KeyWaitSetsTheLatch : Prop :=
  ∀ (s : State) (x : Reg),
    ∃ t, exec (.ldVxK x) s = .next t ∧ t.latch = some x ∧ OnlyChanges (these [.latch]) s t

/-- A tick at a positive rate adds exactly 60 / rate to the accumulator; at 60 Hz and above, or under `multi`, every
whole decrement is made, else at most one; the value stops at 0; `start` is kept (60_exceptions.md section 3; the
exact arithmetic is the spec's decision D14, the policy the open parameter of D15; lowest terms is the model's form,
log 11). -/
def Obligations.TimerTickIsExact : Prop :=
  ∀ (p : SubratePolicy) (t : Timer) (rate : Nat), t.wf → 0 < rate →
    (t.tick p rate).start = t.start ∧ (t.tick p rate).wf ∧
    ((60 ≤ rate ∨ p = .multi) →
      (t.tick p rate).current.toNat = t.current.toNat - ⌊t.acc.value + 60 / (rate : ℚ)⌋₊ ∧
      (t.tick p rate).acc.value = t.acc.value + 60 / (rate : ℚ) - (⌊t.acc.value + 60 / (rate : ℚ)⌋₊ : ℚ)) ∧
    (rate < 60 → p = .single →
      (t.tick p rate).current.toNat = t.current.toNat - 1 ∧
      (t.tick p rate).acc.value = t.acc.value + 60 / (rate : ℚ) - 1)

/-- After a set to `v`, `n` ticks at a rate of 60 Hz or more take exactly `60 n / rate` rounded down off the value, which
stops at 0, and leave the remainder in the accumulator; so 360 ticks at 180 take off 120 (60_exceptions.md section 3,
R322 and R325's example; exactness is the spec's decision D14). -/
def Obligations.TicksCountDownAtSixtyHertz : Prop :=
  ∀ (p : SubratePolicy) (t : Timer) (v : Byte) (rate n : Nat), 60 ≤ rate →
    ((fun u => Timer.tick p u rate)^[n] (t.set v)).current.toNat = v.toNat - 60 * n / rate ∧
    ((fun u => Timer.tick p u rate)^[n] (t.set v)).acc.value = ((60 * n % rate : Nat) : ℚ) / rate

/-- R324: a step signals pause exactly when `playing` was set and its tick leaves the sound timer at 0, and then once;
`playing` is set after the step only if it was kept or the step signalled play. That the rate is an input held in
the state is the model's form (log 2), the events as a field too (log 8), and the one Boolean `playing` is the
spec's decision D17. -/
def Obligations.PauseIsSignalledOncePerTransition : Prop :=
  ∀ (s t : State) (rate : Nat), s.stepRate = some rate → step s = .next t →
    (.pause ∈ t.events ↔ s.playing = true ∧ (s.st.tick s.params.subratePolicy rate).current = 0) ∧
    t.events.count .pause ≤ 1 ∧
    (t.playing = true ↔
      (s.playing = true ∧ (s.st.tick s.params.subratePolicy rate).current ≠ 0) ∨ .play ∈ t.events)
end

