-- ==== Sys2Proof/Laws/Decode.lean ====
section
/-! SUPPORT. The fields of a packed word (30_encoding.md R71). -/

namespace Sys2Proof

theorem fieldPrefix_packNNN (p : BitVec 4) (n : Addr12) : fieldPrefix (packNNN p n) = p := by
  ext i hi
  simp only [fieldPrefix, packNNN, BitVec.getElem_extractLsb', BitVec.getLsbD_append]
  rw [if_neg (by omega), show 12 + i - 12 = i by omega, BitVec.getLsbD_eq_getElem hi]

theorem fieldNNN_packNNN (p : BitVec 4) (n : Addr12) : fieldNNN (packNNN p n) = n := by
  ext i hi
  simp only [fieldNNN, packNNN, BitVec.getElem_extractLsb', BitVec.getLsbD_append]
  rw [if_pos (by omega), show 0 + i = i by omega, BitVec.getLsbD_eq_getElem hi]

theorem fieldPrefix_packXNN (p : BitVec 4) (x : Reg) (n : Byte) : fieldPrefix (packXNN p x n) = p :=
  fieldPrefix_packNNN p _

theorem fieldX_packXNN (p : BitVec 4) (x : Reg) (n : Byte) : fieldX (packXNN p x n) = x := by
  ext i hi
  simp only [fieldX, packXNN, BitVec.getElem_extractLsb', BitVec.getLsbD_append]
  rw [if_pos (by omega), if_neg (by omega), show 8 + i - 8 = i by omega, BitVec.getLsbD_eq_getElem hi]

theorem fieldNN_packXNN (p : BitVec 4) (x : Reg) (n : Byte) : fieldNN (packXNN p x n) = n := by
  ext i hi
  simp only [fieldNN, packXNN, BitVec.getElem_extractLsb', BitVec.getLsbD_append]
  rw [if_pos (by omega), if_pos (by omega), show 0 + i = i by omega, BitVec.getLsbD_eq_getElem hi]

theorem fieldPrefix_packXYN (p : BitVec 4) (x y : Reg) (n : Nibble) : fieldPrefix (packXYN p x y n) = p :=
  fieldPrefix_packXNN p x _

theorem fieldX_packXYN (p : BitVec 4) (x y : Reg) (n : Nibble) : fieldX (packXYN p x y n) = x :=
  fieldX_packXNN p x _

theorem fieldY_packXYN (p : BitVec 4) (x y : Reg) (n : Nibble) : fieldY (packXYN p x y n) = y := by
  ext i hi
  simp only [fieldY, packXYN, packXNN, BitVec.getElem_extractLsb', BitVec.getLsbD_append]
  rw [if_pos (by omega), if_pos (by omega), if_neg (by omega), show 4 + i - 4 = i by omega,
    BitVec.getLsbD_eq_getElem hi]

theorem fieldN_packXYN (p : BitVec 4) (x y : Reg) (n : Nibble) : fieldN (packXYN p x y n) = n := by
  ext i hi
  simp only [fieldN, packXYN, packXNN, BitVec.getElem_extractLsb', BitVec.getLsbD_append]
  rw [if_pos (by omega), if_pos (by omega), if_pos (by omega), show 0 + i = i by omega,
    BitVec.getLsbD_eq_getElem hi]

/-! ## A word is its fields -/

theorem packNNN_fields (w : Word) : packNNN (fieldPrefix w) (fieldNNN w) = w := by
  apply BitVec.eq_of_getLsbD_eq
  intro i hi
  simp only [packNNN, fieldPrefix, fieldNNN, BitVec.getLsbD_append, BitVec.getLsbD_extractLsb']
  split
  · simp [*]
  · rw [show 12 + (i - 12) = i by omega]
    simp; omega

theorem packXNN_fields (w : Word) : packXNN (fieldPrefix w) (fieldX w) (fieldNN w) = w := by
  apply BitVec.eq_of_getLsbD_eq
  intro i hi
  simp only [packXNN, fieldPrefix, fieldX, fieldNN, BitVec.getLsbD_append, BitVec.getLsbD_extractLsb']
  split
  · split
    · simp [*]
    · rw [show 8 + (i - 8) = i by omega]
      simp; omega
  · rw [show 12 + (i - 12) = i by omega]
    simp; omega

theorem packXYN_fields (w : Word) : packXYN (fieldPrefix w) (fieldX w) (fieldY w) (fieldN w) = w := by
  have h : (fieldY w ++ fieldN w : BitVec 8) = fieldNN w := by
    apply BitVec.eq_of_getLsbD_eq
    intro i hi
    simp only [fieldY, fieldN, fieldNN, BitVec.getLsbD_append, BitVec.getLsbD_extractLsb']
    split
    · simp [*]
    · rw [show 4 + (i - 4) = i by omega]
      simp [hi, show i - 4 < 4 by omega]
  rw [packXYN, h, packXNN_fields]

/-- The word of the two bytes of a word, in memory order (20_memory.md R54). -/
theorem wordOfBytes_bytes (w : Word) : wordOfBytes (w.extractLsb' 8 8) (w.extractLsb' 0 8) = w := by
  apply BitVec.eq_of_getLsbD_eq
  intro i hi
  simp only [wordOfBytes, BitVec.getLsbD_append, BitVec.getLsbD_extractLsb']
  split
  · simp [*]
  · rw [show 8 + (i - 8) = i by omega]
    simp; omega

/-- What a word of two bytes is as a number (20_memory.md R55). -/
theorem wordOfBytes_toNat (hi lo : Byte) : (wordOfBytes hi lo).toNat = 256 * hi.toNat + lo.toNat := by
  have := lo.isLt
  simp only [wordOfBytes, BitVec.toNat_append]
  rw [Nat.shiftLeft_eq, ← Nat.shiftLeft_eq, ← Nat.shiftLeft_add_eq_or_of_lt (by omega), Nat.shiftLeft_eq]
  omega

/-- The decoder's only error on a word is the invalid sentinel with that word (30_encoding.md R74). -/
theorem decode_error {w : Word} {e : DecodeError} (h : decode w = .error e) : e = .invalid w := by
  unfold decode decodeBucket8 decodeBucketE decodeBucketF at h
  (repeat' split at h) <;> simp_all

end Sys2Proof
end

