-- ==== Sys2Proof/Laws/State.lean ====
section
/-! SUPPORT. One lemma per field per named update of the state, true by rfl: no later proof unfolds an update. -/

namespace Sys2Proof.Machine

/-! ## setMem -/

@[simp] theorem State.setMem_mem (s : State) (m : Memory) : (s.setMem m).mem = m := rfl
@[simp] theorem State.setMem_v (s : State) (m : Memory) : (s.setMem m).v = s.v := rfl
@[simp] theorem State.setMem_i (s : State) (m : Memory) : (s.setMem m).i = s.i := rfl
@[simp] theorem State.setMem_pc (s : State) (m : Memory) : (s.setMem m).pc = s.pc := rfl
@[simp] theorem State.setMem_stack (s : State) (m : Memory) : (s.setMem m).stack = s.stack := rfl
@[simp] theorem State.setMem_display (s : State) (m : Memory) : (s.setMem m).display = s.display := rfl
@[simp] theorem State.setMem_dt (s : State) (m : Memory) : (s.setMem m).dt = s.dt := rfl
@[simp] theorem State.setMem_st (s : State) (m : Memory) : (s.setMem m).st = s.st := rfl
@[simp] theorem State.setMem_playing (s : State) (m : Memory) : (s.setMem m).playing = s.playing := rfl
@[simp] theorem State.setMem_latch (s : State) (m : Memory) : (s.setMem m).latch = s.latch := rfl
@[simp] theorem State.setMem_quirks (s : State) (m : Memory) : (s.setMem m).quirks = s.quirks := rfl
@[simp] theorem State.setMem_params (s : State) (m : Memory) : (s.setMem m).params = s.params := rfl
@[simp] theorem State.setMem_rate (s : State) (m : Memory) : (s.setMem m).rate = s.rate := rfl
@[simp] theorem State.setMem_key (s : State) (m : Memory) : (s.setMem m).key = s.key := rfl
@[simp] theorem State.setMem_pending (s : State) (m : Memory) : (s.setMem m).pending = s.pending := rfl
@[simp] theorem State.setMem_result (s : State) (m : Memory) : (s.setMem m).result = s.result := rfl
@[simp] theorem State.setMem_events (s : State) (m : Memory) : (s.setMem m).events = s.events := rfl
@[simp] theorem State.setMem_faultRecord (s : State) (m : Memory) : (s.setMem m).faultRecord = s.faultRecord := rfl
@[simp] theorem State.setMem_randomCount (s : State) (m : Memory) : (s.setMem m).randomCount = s.randomCount := rfl
@[simp] theorem State.setMem_freeCount (s : State) (m : Memory) : (s.setMem m).freeCount = s.freeCount := rfl

/-! ## setIndex -/

@[simp] theorem State.setIndex_mem (s : State) (a : Word) : (s.setIndex a).mem = s.mem := rfl
@[simp] theorem State.setIndex_v (s : State) (a : Word) : (s.setIndex a).v = s.v := rfl
@[simp] theorem State.setIndex_i (s : State) (a : Word) : (s.setIndex a).i = a := rfl
@[simp] theorem State.setIndex_pc (s : State) (a : Word) : (s.setIndex a).pc = s.pc := rfl
@[simp] theorem State.setIndex_stack (s : State) (a : Word) : (s.setIndex a).stack = s.stack := rfl
@[simp] theorem State.setIndex_display (s : State) (a : Word) : (s.setIndex a).display = s.display := rfl
@[simp] theorem State.setIndex_dt (s : State) (a : Word) : (s.setIndex a).dt = s.dt := rfl
@[simp] theorem State.setIndex_st (s : State) (a : Word) : (s.setIndex a).st = s.st := rfl
@[simp] theorem State.setIndex_playing (s : State) (a : Word) : (s.setIndex a).playing = s.playing := rfl
@[simp] theorem State.setIndex_latch (s : State) (a : Word) : (s.setIndex a).latch = s.latch := rfl
@[simp] theorem State.setIndex_quirks (s : State) (a : Word) : (s.setIndex a).quirks = s.quirks := rfl
@[simp] theorem State.setIndex_params (s : State) (a : Word) : (s.setIndex a).params = s.params := rfl
@[simp] theorem State.setIndex_rate (s : State) (a : Word) : (s.setIndex a).rate = s.rate := rfl
@[simp] theorem State.setIndex_key (s : State) (a : Word) : (s.setIndex a).key = s.key := rfl
@[simp] theorem State.setIndex_pending (s : State) (a : Word) : (s.setIndex a).pending = s.pending := rfl
@[simp] theorem State.setIndex_result (s : State) (a : Word) : (s.setIndex a).result = s.result := rfl
@[simp] theorem State.setIndex_events (s : State) (a : Word) : (s.setIndex a).events = s.events := rfl
@[simp] theorem State.setIndex_faultRecord (s : State) (a : Word) : (s.setIndex a).faultRecord = s.faultRecord := rfl
@[simp] theorem State.setIndex_randomCount (s : State) (a : Word) : (s.setIndex a).randomCount = s.randomCount := rfl
@[simp] theorem State.setIndex_freeCount (s : State) (a : Word) : (s.setIndex a).freeCount = s.freeCount := rfl

/-! ## setPc -/

@[simp] theorem State.setPc_mem (s : State) (a : Word) : (s.setPc a).mem = s.mem := rfl
@[simp] theorem State.setPc_v (s : State) (a : Word) : (s.setPc a).v = s.v := rfl
@[simp] theorem State.setPc_i (s : State) (a : Word) : (s.setPc a).i = s.i := rfl
@[simp] theorem State.setPc_pc (s : State) (a : Word) : (s.setPc a).pc = a := rfl
@[simp] theorem State.setPc_stack (s : State) (a : Word) : (s.setPc a).stack = s.stack := rfl
@[simp] theorem State.setPc_display (s : State) (a : Word) : (s.setPc a).display = s.display := rfl
@[simp] theorem State.setPc_dt (s : State) (a : Word) : (s.setPc a).dt = s.dt := rfl
@[simp] theorem State.setPc_st (s : State) (a : Word) : (s.setPc a).st = s.st := rfl
@[simp] theorem State.setPc_playing (s : State) (a : Word) : (s.setPc a).playing = s.playing := rfl
@[simp] theorem State.setPc_latch (s : State) (a : Word) : (s.setPc a).latch = s.latch := rfl
@[simp] theorem State.setPc_quirks (s : State) (a : Word) : (s.setPc a).quirks = s.quirks := rfl
@[simp] theorem State.setPc_params (s : State) (a : Word) : (s.setPc a).params = s.params := rfl
@[simp] theorem State.setPc_rate (s : State) (a : Word) : (s.setPc a).rate = s.rate := rfl
@[simp] theorem State.setPc_key (s : State) (a : Word) : (s.setPc a).key = s.key := rfl
@[simp] theorem State.setPc_pending (s : State) (a : Word) : (s.setPc a).pending = s.pending := rfl
@[simp] theorem State.setPc_result (s : State) (a : Word) : (s.setPc a).result = s.result := rfl
@[simp] theorem State.setPc_events (s : State) (a : Word) : (s.setPc a).events = s.events := rfl
@[simp] theorem State.setPc_faultRecord (s : State) (a : Word) : (s.setPc a).faultRecord = s.faultRecord := rfl
@[simp] theorem State.setPc_randomCount (s : State) (a : Word) : (s.setPc a).randomCount = s.randomCount := rfl
@[simp] theorem State.setPc_freeCount (s : State) (a : Word) : (s.setPc a).freeCount = s.freeCount := rfl

/-! ## setStack -/

@[simp] theorem State.setStack_mem (s : State) (l : List Word) : (s.setStack l).mem = s.mem := rfl
@[simp] theorem State.setStack_v (s : State) (l : List Word) : (s.setStack l).v = s.v := rfl
@[simp] theorem State.setStack_i (s : State) (l : List Word) : (s.setStack l).i = s.i := rfl
@[simp] theorem State.setStack_pc (s : State) (l : List Word) : (s.setStack l).pc = s.pc := rfl
@[simp] theorem State.setStack_stack (s : State) (l : List Word) : (s.setStack l).stack = l := rfl
@[simp] theorem State.setStack_display (s : State) (l : List Word) : (s.setStack l).display = s.display := rfl
@[simp] theorem State.setStack_dt (s : State) (l : List Word) : (s.setStack l).dt = s.dt := rfl
@[simp] theorem State.setStack_st (s : State) (l : List Word) : (s.setStack l).st = s.st := rfl
@[simp] theorem State.setStack_playing (s : State) (l : List Word) : (s.setStack l).playing = s.playing := rfl
@[simp] theorem State.setStack_latch (s : State) (l : List Word) : (s.setStack l).latch = s.latch := rfl
@[simp] theorem State.setStack_quirks (s : State) (l : List Word) : (s.setStack l).quirks = s.quirks := rfl
@[simp] theorem State.setStack_params (s : State) (l : List Word) : (s.setStack l).params = s.params := rfl
@[simp] theorem State.setStack_rate (s : State) (l : List Word) : (s.setStack l).rate = s.rate := rfl
@[simp] theorem State.setStack_key (s : State) (l : List Word) : (s.setStack l).key = s.key := rfl
@[simp] theorem State.setStack_pending (s : State) (l : List Word) : (s.setStack l).pending = s.pending := rfl
@[simp] theorem State.setStack_result (s : State) (l : List Word) : (s.setStack l).result = s.result := rfl
@[simp] theorem State.setStack_events (s : State) (l : List Word) : (s.setStack l).events = s.events := rfl
@[simp] theorem State.setStack_faultRecord (s : State) (l : List Word) : (s.setStack l).faultRecord = s.faultRecord := rfl
@[simp] theorem State.setStack_randomCount (s : State) (l : List Word) : (s.setStack l).randomCount = s.randomCount := rfl
@[simp] theorem State.setStack_freeCount (s : State) (l : List Word) : (s.setStack l).freeCount = s.freeCount := rfl

/-! ## setDisplay -/

@[simp] theorem State.setDisplay_mem (s : State) (d : Display) : (s.setDisplay d).mem = s.mem := rfl
@[simp] theorem State.setDisplay_v (s : State) (d : Display) : (s.setDisplay d).v = s.v := rfl
@[simp] theorem State.setDisplay_i (s : State) (d : Display) : (s.setDisplay d).i = s.i := rfl
@[simp] theorem State.setDisplay_pc (s : State) (d : Display) : (s.setDisplay d).pc = s.pc := rfl
@[simp] theorem State.setDisplay_stack (s : State) (d : Display) : (s.setDisplay d).stack = s.stack := rfl
@[simp] theorem State.setDisplay_display (s : State) (d : Display) : (s.setDisplay d).display = d := rfl
@[simp] theorem State.setDisplay_dt (s : State) (d : Display) : (s.setDisplay d).dt = s.dt := rfl
@[simp] theorem State.setDisplay_st (s : State) (d : Display) : (s.setDisplay d).st = s.st := rfl
@[simp] theorem State.setDisplay_playing (s : State) (d : Display) : (s.setDisplay d).playing = s.playing := rfl
@[simp] theorem State.setDisplay_latch (s : State) (d : Display) : (s.setDisplay d).latch = s.latch := rfl
@[simp] theorem State.setDisplay_quirks (s : State) (d : Display) : (s.setDisplay d).quirks = s.quirks := rfl
@[simp] theorem State.setDisplay_params (s : State) (d : Display) : (s.setDisplay d).params = s.params := rfl
@[simp] theorem State.setDisplay_rate (s : State) (d : Display) : (s.setDisplay d).rate = s.rate := rfl
@[simp] theorem State.setDisplay_key (s : State) (d : Display) : (s.setDisplay d).key = s.key := rfl
@[simp] theorem State.setDisplay_pending (s : State) (d : Display) : (s.setDisplay d).pending = s.pending := rfl
@[simp] theorem State.setDisplay_result (s : State) (d : Display) : (s.setDisplay d).result = s.result := rfl
@[simp] theorem State.setDisplay_events (s : State) (d : Display) : (s.setDisplay d).events = s.events := rfl
@[simp] theorem State.setDisplay_faultRecord (s : State) (d : Display) : (s.setDisplay d).faultRecord = s.faultRecord := rfl
@[simp] theorem State.setDisplay_randomCount (s : State) (d : Display) : (s.setDisplay d).randomCount = s.randomCount := rfl
@[simp] theorem State.setDisplay_freeCount (s : State) (d : Display) : (s.setDisplay d).freeCount = s.freeCount := rfl

/-! ## setDT -/

@[simp] theorem State.setDT_mem (s : State) (t : Timer) : (s.setDT t).mem = s.mem := rfl
@[simp] theorem State.setDT_v (s : State) (t : Timer) : (s.setDT t).v = s.v := rfl
@[simp] theorem State.setDT_i (s : State) (t : Timer) : (s.setDT t).i = s.i := rfl
@[simp] theorem State.setDT_pc (s : State) (t : Timer) : (s.setDT t).pc = s.pc := rfl
@[simp] theorem State.setDT_stack (s : State) (t : Timer) : (s.setDT t).stack = s.stack := rfl
@[simp] theorem State.setDT_display (s : State) (t : Timer) : (s.setDT t).display = s.display := rfl
@[simp] theorem State.setDT_dt (s : State) (t : Timer) : (s.setDT t).dt = t := rfl
@[simp] theorem State.setDT_st (s : State) (t : Timer) : (s.setDT t).st = s.st := rfl
@[simp] theorem State.setDT_playing (s : State) (t : Timer) : (s.setDT t).playing = s.playing := rfl
@[simp] theorem State.setDT_latch (s : State) (t : Timer) : (s.setDT t).latch = s.latch := rfl
@[simp] theorem State.setDT_quirks (s : State) (t : Timer) : (s.setDT t).quirks = s.quirks := rfl
@[simp] theorem State.setDT_params (s : State) (t : Timer) : (s.setDT t).params = s.params := rfl
@[simp] theorem State.setDT_rate (s : State) (t : Timer) : (s.setDT t).rate = s.rate := rfl
@[simp] theorem State.setDT_key (s : State) (t : Timer) : (s.setDT t).key = s.key := rfl
@[simp] theorem State.setDT_pending (s : State) (t : Timer) : (s.setDT t).pending = s.pending := rfl
@[simp] theorem State.setDT_result (s : State) (t : Timer) : (s.setDT t).result = s.result := rfl
@[simp] theorem State.setDT_events (s : State) (t : Timer) : (s.setDT t).events = s.events := rfl
@[simp] theorem State.setDT_faultRecord (s : State) (t : Timer) : (s.setDT t).faultRecord = s.faultRecord := rfl
@[simp] theorem State.setDT_randomCount (s : State) (t : Timer) : (s.setDT t).randomCount = s.randomCount := rfl
@[simp] theorem State.setDT_freeCount (s : State) (t : Timer) : (s.setDT t).freeCount = s.freeCount := rfl

/-! ## setST -/

@[simp] theorem State.setST_mem (s : State) (t : Timer) : (s.setST t).mem = s.mem := rfl
@[simp] theorem State.setST_v (s : State) (t : Timer) : (s.setST t).v = s.v := rfl
@[simp] theorem State.setST_i (s : State) (t : Timer) : (s.setST t).i = s.i := rfl
@[simp] theorem State.setST_pc (s : State) (t : Timer) : (s.setST t).pc = s.pc := rfl
@[simp] theorem State.setST_stack (s : State) (t : Timer) : (s.setST t).stack = s.stack := rfl
@[simp] theorem State.setST_display (s : State) (t : Timer) : (s.setST t).display = s.display := rfl
@[simp] theorem State.setST_dt (s : State) (t : Timer) : (s.setST t).dt = s.dt := rfl
@[simp] theorem State.setST_st (s : State) (t : Timer) : (s.setST t).st = t := rfl
@[simp] theorem State.setST_playing (s : State) (t : Timer) : (s.setST t).playing = s.playing := rfl
@[simp] theorem State.setST_latch (s : State) (t : Timer) : (s.setST t).latch = s.latch := rfl
@[simp] theorem State.setST_quirks (s : State) (t : Timer) : (s.setST t).quirks = s.quirks := rfl
@[simp] theorem State.setST_params (s : State) (t : Timer) : (s.setST t).params = s.params := rfl
@[simp] theorem State.setST_rate (s : State) (t : Timer) : (s.setST t).rate = s.rate := rfl
@[simp] theorem State.setST_key (s : State) (t : Timer) : (s.setST t).key = s.key := rfl
@[simp] theorem State.setST_pending (s : State) (t : Timer) : (s.setST t).pending = s.pending := rfl
@[simp] theorem State.setST_result (s : State) (t : Timer) : (s.setST t).result = s.result := rfl
@[simp] theorem State.setST_events (s : State) (t : Timer) : (s.setST t).events = s.events := rfl
@[simp] theorem State.setST_faultRecord (s : State) (t : Timer) : (s.setST t).faultRecord = s.faultRecord := rfl
@[simp] theorem State.setST_randomCount (s : State) (t : Timer) : (s.setST t).randomCount = s.randomCount := rfl
@[simp] theorem State.setST_freeCount (s : State) (t : Timer) : (s.setST t).freeCount = s.freeCount := rfl

/-! ## setPlaying -/

@[simp] theorem State.setPlaying_mem (s : State) (b : Bool) : (s.setPlaying b).mem = s.mem := rfl
@[simp] theorem State.setPlaying_v (s : State) (b : Bool) : (s.setPlaying b).v = s.v := rfl
@[simp] theorem State.setPlaying_i (s : State) (b : Bool) : (s.setPlaying b).i = s.i := rfl
@[simp] theorem State.setPlaying_pc (s : State) (b : Bool) : (s.setPlaying b).pc = s.pc := rfl
@[simp] theorem State.setPlaying_stack (s : State) (b : Bool) : (s.setPlaying b).stack = s.stack := rfl
@[simp] theorem State.setPlaying_display (s : State) (b : Bool) : (s.setPlaying b).display = s.display := rfl
@[simp] theorem State.setPlaying_dt (s : State) (b : Bool) : (s.setPlaying b).dt = s.dt := rfl
@[simp] theorem State.setPlaying_st (s : State) (b : Bool) : (s.setPlaying b).st = s.st := rfl
@[simp] theorem State.setPlaying_playing (s : State) (b : Bool) : (s.setPlaying b).playing = b := rfl
@[simp] theorem State.setPlaying_latch (s : State) (b : Bool) : (s.setPlaying b).latch = s.latch := rfl
@[simp] theorem State.setPlaying_quirks (s : State) (b : Bool) : (s.setPlaying b).quirks = s.quirks := rfl
@[simp] theorem State.setPlaying_params (s : State) (b : Bool) : (s.setPlaying b).params = s.params := rfl
@[simp] theorem State.setPlaying_rate (s : State) (b : Bool) : (s.setPlaying b).rate = s.rate := rfl
@[simp] theorem State.setPlaying_key (s : State) (b : Bool) : (s.setPlaying b).key = s.key := rfl
@[simp] theorem State.setPlaying_pending (s : State) (b : Bool) : (s.setPlaying b).pending = s.pending := rfl
@[simp] theorem State.setPlaying_result (s : State) (b : Bool) : (s.setPlaying b).result = s.result := rfl
@[simp] theorem State.setPlaying_events (s : State) (b : Bool) : (s.setPlaying b).events = s.events := rfl
@[simp] theorem State.setPlaying_faultRecord (s : State) (b : Bool) : (s.setPlaying b).faultRecord = s.faultRecord := rfl
@[simp] theorem State.setPlaying_randomCount (s : State) (b : Bool) : (s.setPlaying b).randomCount = s.randomCount := rfl
@[simp] theorem State.setPlaying_freeCount (s : State) (b : Bool) : (s.setPlaying b).freeCount = s.freeCount := rfl

/-! ## setLatch -/

@[simp] theorem State.setLatch_mem (s : State) (l : Option Reg) : (s.setLatch l).mem = s.mem := rfl
@[simp] theorem State.setLatch_v (s : State) (l : Option Reg) : (s.setLatch l).v = s.v := rfl
@[simp] theorem State.setLatch_i (s : State) (l : Option Reg) : (s.setLatch l).i = s.i := rfl
@[simp] theorem State.setLatch_pc (s : State) (l : Option Reg) : (s.setLatch l).pc = s.pc := rfl
@[simp] theorem State.setLatch_stack (s : State) (l : Option Reg) : (s.setLatch l).stack = s.stack := rfl
@[simp] theorem State.setLatch_display (s : State) (l : Option Reg) : (s.setLatch l).display = s.display := rfl
@[simp] theorem State.setLatch_dt (s : State) (l : Option Reg) : (s.setLatch l).dt = s.dt := rfl
@[simp] theorem State.setLatch_st (s : State) (l : Option Reg) : (s.setLatch l).st = s.st := rfl
@[simp] theorem State.setLatch_playing (s : State) (l : Option Reg) : (s.setLatch l).playing = s.playing := rfl
@[simp] theorem State.setLatch_latch (s : State) (l : Option Reg) : (s.setLatch l).latch = l := rfl
@[simp] theorem State.setLatch_quirks (s : State) (l : Option Reg) : (s.setLatch l).quirks = s.quirks := rfl
@[simp] theorem State.setLatch_params (s : State) (l : Option Reg) : (s.setLatch l).params = s.params := rfl
@[simp] theorem State.setLatch_rate (s : State) (l : Option Reg) : (s.setLatch l).rate = s.rate := rfl
@[simp] theorem State.setLatch_key (s : State) (l : Option Reg) : (s.setLatch l).key = s.key := rfl
@[simp] theorem State.setLatch_pending (s : State) (l : Option Reg) : (s.setLatch l).pending = s.pending := rfl
@[simp] theorem State.setLatch_result (s : State) (l : Option Reg) : (s.setLatch l).result = s.result := rfl
@[simp] theorem State.setLatch_events (s : State) (l : Option Reg) : (s.setLatch l).events = s.events := rfl
@[simp] theorem State.setLatch_faultRecord (s : State) (l : Option Reg) : (s.setLatch l).faultRecord = s.faultRecord := rfl
@[simp] theorem State.setLatch_randomCount (s : State) (l : Option Reg) : (s.setLatch l).randomCount = s.randomCount := rfl
@[simp] theorem State.setLatch_freeCount (s : State) (l : Option Reg) : (s.setLatch l).freeCount = s.freeCount := rfl

/-! ## setResult -/

@[simp] theorem State.setResult_mem (s : State) (r : Option StepResult) : (s.setResult r).mem = s.mem := rfl
@[simp] theorem State.setResult_v (s : State) (r : Option StepResult) : (s.setResult r).v = s.v := rfl
@[simp] theorem State.setResult_i (s : State) (r : Option StepResult) : (s.setResult r).i = s.i := rfl
@[simp] theorem State.setResult_pc (s : State) (r : Option StepResult) : (s.setResult r).pc = s.pc := rfl
@[simp] theorem State.setResult_stack (s : State) (r : Option StepResult) : (s.setResult r).stack = s.stack := rfl
@[simp] theorem State.setResult_display (s : State) (r : Option StepResult) : (s.setResult r).display = s.display := rfl
@[simp] theorem State.setResult_dt (s : State) (r : Option StepResult) : (s.setResult r).dt = s.dt := rfl
@[simp] theorem State.setResult_st (s : State) (r : Option StepResult) : (s.setResult r).st = s.st := rfl
@[simp] theorem State.setResult_playing (s : State) (r : Option StepResult) : (s.setResult r).playing = s.playing := rfl
@[simp] theorem State.setResult_latch (s : State) (r : Option StepResult) : (s.setResult r).latch = s.latch := rfl
@[simp] theorem State.setResult_quirks (s : State) (r : Option StepResult) : (s.setResult r).quirks = s.quirks := rfl
@[simp] theorem State.setResult_params (s : State) (r : Option StepResult) : (s.setResult r).params = s.params := rfl
@[simp] theorem State.setResult_rate (s : State) (r : Option StepResult) : (s.setResult r).rate = s.rate := rfl
@[simp] theorem State.setResult_key (s : State) (r : Option StepResult) : (s.setResult r).key = s.key := rfl
@[simp] theorem State.setResult_pending (s : State) (r : Option StepResult) : (s.setResult r).pending = s.pending := rfl
@[simp] theorem State.setResult_result (s : State) (r : Option StepResult) : (s.setResult r).result = r := rfl
@[simp] theorem State.setResult_events (s : State) (r : Option StepResult) : (s.setResult r).events = s.events := rfl
@[simp] theorem State.setResult_faultRecord (s : State) (r : Option StepResult) : (s.setResult r).faultRecord = s.faultRecord := rfl
@[simp] theorem State.setResult_randomCount (s : State) (r : Option StepResult) : (s.setResult r).randomCount = s.randomCount := rfl
@[simp] theorem State.setResult_freeCount (s : State) (r : Option StepResult) : (s.setResult r).freeCount = s.freeCount := rfl

/-! ## emit -/

@[simp] theorem State.emit_mem (s : State) (e : SoundEvent) : (s.emit e).mem = s.mem := rfl
@[simp] theorem State.emit_v (s : State) (e : SoundEvent) : (s.emit e).v = s.v := rfl
@[simp] theorem State.emit_i (s : State) (e : SoundEvent) : (s.emit e).i = s.i := rfl
@[simp] theorem State.emit_pc (s : State) (e : SoundEvent) : (s.emit e).pc = s.pc := rfl
@[simp] theorem State.emit_stack (s : State) (e : SoundEvent) : (s.emit e).stack = s.stack := rfl
@[simp] theorem State.emit_display (s : State) (e : SoundEvent) : (s.emit e).display = s.display := rfl
@[simp] theorem State.emit_dt (s : State) (e : SoundEvent) : (s.emit e).dt = s.dt := rfl
@[simp] theorem State.emit_st (s : State) (e : SoundEvent) : (s.emit e).st = s.st := rfl
@[simp] theorem State.emit_playing (s : State) (e : SoundEvent) : (s.emit e).playing = s.playing := rfl
@[simp] theorem State.emit_latch (s : State) (e : SoundEvent) : (s.emit e).latch = s.latch := rfl
@[simp] theorem State.emit_quirks (s : State) (e : SoundEvent) : (s.emit e).quirks = s.quirks := rfl
@[simp] theorem State.emit_params (s : State) (e : SoundEvent) : (s.emit e).params = s.params := rfl
@[simp] theorem State.emit_rate (s : State) (e : SoundEvent) : (s.emit e).rate = s.rate := rfl
@[simp] theorem State.emit_key (s : State) (e : SoundEvent) : (s.emit e).key = s.key := rfl
@[simp] theorem State.emit_pending (s : State) (e : SoundEvent) : (s.emit e).pending = s.pending := rfl
@[simp] theorem State.emit_result (s : State) (e : SoundEvent) : (s.emit e).result = s.result := rfl
@[simp] theorem State.emit_events (s : State) (e : SoundEvent) : (s.emit e).events = s.events ++ [e] := rfl
@[simp] theorem State.emit_faultRecord (s : State) (e : SoundEvent) : (s.emit e).faultRecord = s.faultRecord := rfl
@[simp] theorem State.emit_randomCount (s : State) (e : SoundEvent) : (s.emit e).randomCount = s.randomCount := rfl
@[simp] theorem State.emit_freeCount (s : State) (e : SoundEvent) : (s.emit e).freeCount = s.freeCount := rfl

/-! ## countRandom -/

@[simp] theorem State.countRandom_mem (s : State) : (s.countRandom).mem = s.mem := rfl
@[simp] theorem State.countRandom_v (s : State) : (s.countRandom).v = s.v := rfl
@[simp] theorem State.countRandom_i (s : State) : (s.countRandom).i = s.i := rfl
@[simp] theorem State.countRandom_pc (s : State) : (s.countRandom).pc = s.pc := rfl
@[simp] theorem State.countRandom_stack (s : State) : (s.countRandom).stack = s.stack := rfl
@[simp] theorem State.countRandom_display (s : State) : (s.countRandom).display = s.display := rfl
@[simp] theorem State.countRandom_dt (s : State) : (s.countRandom).dt = s.dt := rfl
@[simp] theorem State.countRandom_st (s : State) : (s.countRandom).st = s.st := rfl
@[simp] theorem State.countRandom_playing (s : State) : (s.countRandom).playing = s.playing := rfl
@[simp] theorem State.countRandom_latch (s : State) : (s.countRandom).latch = s.latch := rfl
@[simp] theorem State.countRandom_quirks (s : State) : (s.countRandom).quirks = s.quirks := rfl
@[simp] theorem State.countRandom_params (s : State) : (s.countRandom).params = s.params := rfl
@[simp] theorem State.countRandom_rate (s : State) : (s.countRandom).rate = s.rate := rfl
@[simp] theorem State.countRandom_key (s : State) : (s.countRandom).key = s.key := rfl
@[simp] theorem State.countRandom_pending (s : State) : (s.countRandom).pending = s.pending := rfl
@[simp] theorem State.countRandom_result (s : State) : (s.countRandom).result = s.result := rfl
@[simp] theorem State.countRandom_events (s : State) : (s.countRandom).events = s.events := rfl
@[simp] theorem State.countRandom_faultRecord (s : State) : (s.countRandom).faultRecord = s.faultRecord := rfl
@[simp] theorem State.countRandom_randomCount (s : State) : (s.countRandom).randomCount = s.randomCount + 1 := rfl
@[simp] theorem State.countRandom_freeCount (s : State) : (s.countRandom).freeCount = s.freeCount := rfl

/-! ## countFree -/

@[simp] theorem State.countFree_mem (s : State) : (s.countFree).mem = s.mem := rfl
@[simp] theorem State.countFree_v (s : State) : (s.countFree).v = s.v := rfl
@[simp] theorem State.countFree_i (s : State) : (s.countFree).i = s.i := rfl
@[simp] theorem State.countFree_pc (s : State) : (s.countFree).pc = s.pc := rfl
@[simp] theorem State.countFree_stack (s : State) : (s.countFree).stack = s.stack := rfl
@[simp] theorem State.countFree_display (s : State) : (s.countFree).display = s.display := rfl
@[simp] theorem State.countFree_dt (s : State) : (s.countFree).dt = s.dt := rfl
@[simp] theorem State.countFree_st (s : State) : (s.countFree).st = s.st := rfl
@[simp] theorem State.countFree_playing (s : State) : (s.countFree).playing = s.playing := rfl
@[simp] theorem State.countFree_latch (s : State) : (s.countFree).latch = s.latch := rfl
@[simp] theorem State.countFree_quirks (s : State) : (s.countFree).quirks = s.quirks := rfl
@[simp] theorem State.countFree_params (s : State) : (s.countFree).params = s.params := rfl
@[simp] theorem State.countFree_rate (s : State) : (s.countFree).rate = s.rate := rfl
@[simp] theorem State.countFree_key (s : State) : (s.countFree).key = s.key := rfl
@[simp] theorem State.countFree_pending (s : State) : (s.countFree).pending = s.pending := rfl
@[simp] theorem State.countFree_result (s : State) : (s.countFree).result = s.result := rfl
@[simp] theorem State.countFree_events (s : State) : (s.countFree).events = s.events := rfl
@[simp] theorem State.countFree_faultRecord (s : State) : (s.countFree).faultRecord = s.faultRecord := rfl
@[simp] theorem State.countFree_randomCount (s : State) : (s.countFree).randomCount = s.randomCount := rfl
@[simp] theorem State.countFree_freeCount (s : State) : (s.countFree).freeCount = s.freeCount + 1 := rfl

/-! ## raise -/

@[simp] theorem State.raise_mem (s : State) (f : Fault) : (s.raise f).mem = s.mem := rfl
@[simp] theorem State.raise_v (s : State) (f : Fault) : (s.raise f).v = s.v := rfl
@[simp] theorem State.raise_i (s : State) (f : Fault) : (s.raise f).i = s.i := rfl
@[simp] theorem State.raise_pc (s : State) (f : Fault) : (s.raise f).pc = s.pc := rfl
@[simp] theorem State.raise_stack (s : State) (f : Fault) : (s.raise f).stack = s.stack := rfl
@[simp] theorem State.raise_display (s : State) (f : Fault) : (s.raise f).display = s.display := rfl
@[simp] theorem State.raise_dt (s : State) (f : Fault) : (s.raise f).dt = s.dt := rfl
@[simp] theorem State.raise_st (s : State) (f : Fault) : (s.raise f).st = s.st := rfl
@[simp] theorem State.raise_playing (s : State) (f : Fault) : (s.raise f).playing = s.playing := rfl
@[simp] theorem State.raise_latch (s : State) (f : Fault) : (s.raise f).latch = s.latch := rfl
@[simp] theorem State.raise_quirks (s : State) (f : Fault) : (s.raise f).quirks = s.quirks := rfl
@[simp] theorem State.raise_params (s : State) (f : Fault) : (s.raise f).params = s.params := rfl
@[simp] theorem State.raise_rate (s : State) (f : Fault) : (s.raise f).rate = s.rate := rfl
@[simp] theorem State.raise_key (s : State) (f : Fault) : (s.raise f).key = s.key := rfl
@[simp] theorem State.raise_pending (s : State) (f : Fault) : (s.raise f).pending = s.pending := rfl
@[simp] theorem State.raise_result (s : State) (f : Fault) : (s.raise f).result = some (.fault f) := rfl
@[simp] theorem State.raise_events (s : State) (f : Fault) : (s.raise f).events = s.events := rfl
@[simp] theorem State.raise_faultRecord (s : State) (f : Fault) : (s.raise f).faultRecord = some (s.faultRecord.getD f) := rfl
@[simp] theorem State.raise_randomCount (s : State) (f : Fault) : (s.raise f).randomCount = s.randomCount := rfl
@[simp] theorem State.raise_freeCount (s : State) (f : Fault) : (s.raise f).freeCount = s.freeCount := rfl

/-! ## setReg -/

@[simp] theorem State.setReg_mem (s : State) (x : Reg) (b : Byte) : (s.setReg x b).mem = s.mem := rfl
@[simp] theorem State.setReg_v (s : State) (x : Reg) (b : Byte) : (s.setReg x b).v = s.v.set x.toNat b x.isLt := rfl
@[simp] theorem State.setReg_i (s : State) (x : Reg) (b : Byte) : (s.setReg x b).i = s.i := rfl
@[simp] theorem State.setReg_pc (s : State) (x : Reg) (b : Byte) : (s.setReg x b).pc = s.pc := rfl
@[simp] theorem State.setReg_stack (s : State) (x : Reg) (b : Byte) : (s.setReg x b).stack = s.stack := rfl
@[simp] theorem State.setReg_display (s : State) (x : Reg) (b : Byte) : (s.setReg x b).display = s.display := rfl
@[simp] theorem State.setReg_dt (s : State) (x : Reg) (b : Byte) : (s.setReg x b).dt = s.dt := rfl
@[simp] theorem State.setReg_st (s : State) (x : Reg) (b : Byte) : (s.setReg x b).st = s.st := rfl
@[simp] theorem State.setReg_playing (s : State) (x : Reg) (b : Byte) : (s.setReg x b).playing = s.playing := rfl
@[simp] theorem State.setReg_latch (s : State) (x : Reg) (b : Byte) : (s.setReg x b).latch = s.latch := rfl
@[simp] theorem State.setReg_quirks (s : State) (x : Reg) (b : Byte) : (s.setReg x b).quirks = s.quirks := rfl
@[simp] theorem State.setReg_params (s : State) (x : Reg) (b : Byte) : (s.setReg x b).params = s.params := rfl
@[simp] theorem State.setReg_rate (s : State) (x : Reg) (b : Byte) : (s.setReg x b).rate = s.rate := rfl
@[simp] theorem State.setReg_key (s : State) (x : Reg) (b : Byte) : (s.setReg x b).key = s.key := rfl
@[simp] theorem State.setReg_pending (s : State) (x : Reg) (b : Byte) : (s.setReg x b).pending = s.pending := rfl
@[simp] theorem State.setReg_result (s : State) (x : Reg) (b : Byte) : (s.setReg x b).result = s.result := rfl
@[simp] theorem State.setReg_events (s : State) (x : Reg) (b : Byte) : (s.setReg x b).events = s.events := rfl
@[simp] theorem State.setReg_faultRecord (s : State) (x : Reg) (b : Byte) : (s.setReg x b).faultRecord = s.faultRecord := rfl
@[simp] theorem State.setReg_randomCount (s : State) (x : Reg) (b : Byte) : (s.setReg x b).randomCount = s.randomCount := rfl
@[simp] theorem State.setReg_freeCount (s : State) (x : Reg) (b : Byte) : (s.setReg x b).freeCount = s.freeCount := rfl

/-! ## Register reads through the other updates -/

@[simp] theorem State.reg_setMem (s : State) (m : Memory) (z : Reg) : (s.setMem m).reg z = s.reg z := rfl
@[simp] theorem State.reg_setIndex (s : State) (a : Word) (z : Reg) : (s.setIndex a).reg z = s.reg z := rfl
@[simp] theorem State.reg_setPc (s : State) (a : Word) (z : Reg) : (s.setPc a).reg z = s.reg z := rfl
@[simp] theorem State.reg_setStack (s : State) (l : List Word) (z : Reg) : (s.setStack l).reg z = s.reg z := rfl
@[simp] theorem State.reg_setDisplay (s : State) (d : Display) (z : Reg) : (s.setDisplay d).reg z = s.reg z := rfl
@[simp] theorem State.reg_setDT (s : State) (t : Timer) (z : Reg) : (s.setDT t).reg z = s.reg z := rfl
@[simp] theorem State.reg_setST (s : State) (t : Timer) (z : Reg) : (s.setST t).reg z = s.reg z := rfl
@[simp] theorem State.reg_setPlaying (s : State) (b : Bool) (z : Reg) : (s.setPlaying b).reg z = s.reg z := rfl
@[simp] theorem State.reg_setLatch (s : State) (l : Option Reg) (z : Reg) : (s.setLatch l).reg z = s.reg z := rfl
@[simp] theorem State.reg_setResult (s : State) (r : Option StepResult) (z : Reg) : (s.setResult r).reg z = s.reg z := rfl
@[simp] theorem State.reg_emit (s : State) (e : SoundEvent) (z : Reg) : (s.emit e).reg z = s.reg z := rfl
@[simp] theorem State.reg_countRandom (s : State) (z : Reg) : (s.countRandom).reg z = s.reg z := rfl
@[simp] theorem State.reg_countFree (s : State) (z : Reg) : (s.countFree).reg z = s.reg z := rfl
@[simp] theorem State.reg_raise (s : State) (f : Fault) (z : Reg) : (s.raise f).reg z = s.reg z := rfl

/-! ## clearOutputs -/

@[simp] theorem State.clearOutputs_mem (s : State) : s.clearOutputs.mem = s.mem := rfl
@[simp] theorem State.clearOutputs_v (s : State) : s.clearOutputs.v = s.v := rfl
@[simp] theorem State.clearOutputs_i (s : State) : s.clearOutputs.i = s.i := rfl
@[simp] theorem State.clearOutputs_pc (s : State) : s.clearOutputs.pc = s.pc := rfl
@[simp] theorem State.clearOutputs_stack (s : State) : s.clearOutputs.stack = s.stack := rfl
@[simp] theorem State.clearOutputs_display (s : State) : s.clearOutputs.display = s.display := rfl
@[simp] theorem State.clearOutputs_dt (s : State) : s.clearOutputs.dt = s.dt := rfl
@[simp] theorem State.clearOutputs_st (s : State) : s.clearOutputs.st = s.st := rfl
@[simp] theorem State.clearOutputs_playing (s : State) : s.clearOutputs.playing = s.playing := rfl
@[simp] theorem State.clearOutputs_latch (s : State) : s.clearOutputs.latch = s.latch := rfl
@[simp] theorem State.clearOutputs_quirks (s : State) : s.clearOutputs.quirks = s.quirks := rfl
@[simp] theorem State.clearOutputs_params (s : State) : s.clearOutputs.params = s.params := rfl
@[simp] theorem State.clearOutputs_rate (s : State) : s.clearOutputs.rate = s.rate := rfl
@[simp] theorem State.clearOutputs_key (s : State) : s.clearOutputs.key = s.key := rfl
@[simp] theorem State.clearOutputs_pending (s : State) : s.clearOutputs.pending = s.pending := rfl
@[simp] theorem State.clearOutputs_result (s : State) : s.clearOutputs.result = none := rfl
@[simp] theorem State.clearOutputs_events (s : State) : s.clearOutputs.events = [] := rfl
@[simp] theorem State.clearOutputs_faultRecord (s : State) : s.clearOutputs.faultRecord = s.faultRecord := rfl
@[simp] theorem State.clearOutputs_randomCount (s : State) : s.clearOutputs.randomCount = s.randomCount := rfl
@[simp] theorem State.clearOutputs_freeCount (s : State) : s.clearOutputs.freeCount = s.freeCount := rfl
@[simp] theorem State.reg_clearOutputs (s : State) (r : Reg) : s.clearOutputs.reg r = s.reg r := rfl

/-! ## takeInput changes the driver's fields only -/

@[simp] theorem State.takeInput_mem (s : State) : s.takeInput.mem = s.mem := by
  unfold State.takeInput; split <;> rfl
@[simp] theorem State.takeInput_v (s : State) : s.takeInput.v = s.v := by
  unfold State.takeInput; split <;> rfl
@[simp] theorem State.takeInput_i (s : State) : s.takeInput.i = s.i := by
  unfold State.takeInput; split <;> rfl
@[simp] theorem State.takeInput_pc (s : State) : s.takeInput.pc = s.pc := by
  unfold State.takeInput; split <;> rfl
@[simp] theorem State.takeInput_stack (s : State) : s.takeInput.stack = s.stack := by
  unfold State.takeInput; split <;> rfl
@[simp] theorem State.takeInput_display (s : State) : s.takeInput.display = s.display := by
  unfold State.takeInput; split <;> rfl
@[simp] theorem State.takeInput_dt (s : State) : s.takeInput.dt = s.dt := by
  unfold State.takeInput; split <;> rfl
@[simp] theorem State.takeInput_st (s : State) : s.takeInput.st = s.st := by
  unfold State.takeInput; split <;> rfl
@[simp] theorem State.takeInput_playing (s : State) : s.takeInput.playing = s.playing := by
  unfold State.takeInput; split <;> rfl
@[simp] theorem State.takeInput_latch (s : State) : s.takeInput.latch = s.latch := by
  unfold State.takeInput; split <;> rfl
@[simp] theorem State.takeInput_quirks (s : State) : s.takeInput.quirks = s.quirks := by
  unfold State.takeInput; split <;> rfl
@[simp] theorem State.takeInput_params (s : State) : s.takeInput.params = s.params := by
  unfold State.takeInput; split <;> rfl
@[simp] theorem State.takeInput_result (s : State) : s.takeInput.result = s.result := by
  unfold State.takeInput; split <;> rfl
@[simp] theorem State.takeInput_events (s : State) : s.takeInput.events = s.events := by
  unfold State.takeInput; split <;> rfl
@[simp] theorem State.takeInput_faultRecord (s : State) : s.takeInput.faultRecord = s.faultRecord := by
  unfold State.takeInput; split <;> rfl
@[simp] theorem State.takeInput_randomCount (s : State) : s.takeInput.randomCount = s.randomCount := by
  unfold State.takeInput; split <;> rfl
@[simp] theorem State.takeInput_freeCount (s : State) : s.takeInput.freeCount = s.freeCount := by
  unfold State.takeInput; split <;> rfl
@[simp] theorem State.reg_takeInput (s : State) (r : Reg) : s.takeInput.reg r = s.reg r := by
  unfold State.takeInput; split <;> rfl

end Sys2Proof.Machine
end

