-- ==== Sys2Proof/Laws/Regs.lean ====
section
/-! SUPPORT. Reading registers after writing them, the checked accesses and the result/flag write. -/

namespace Sys2Proof.Machine

@[simp] theorem State.reg_setReg_self (s : State) (x : Reg) (b : Byte) : (s.setReg x b).reg x = b := by
  simp [State.reg, State.setReg]

theorem State.reg_setReg_of_ne (s : State) {x r : Reg} (b : Byte) (h : r ≠ x) :
    (s.setReg x b).reg r = s.reg r := by
  have h' : x.toNat ≠ r.toNat := fun e => h (BitVec.eq_of_toNat_eq e.symm)
  simp [State.reg, State.setReg, h']

/-- Every register after a write, in one equation. -/
theorem State.reg_setReg (s : State) (x r : Reg) (b : Byte) :
    (s.setReg x b).reg r = if r = x then b else s.reg r := by
  split
  · subst_vars; simp
  · exact State.reg_setReg_of_ne s b ‹_›

/-- A 4-bit field is a valid register index (10_state.md R22). -/
theorem State.regRead_field (s : State) (x : Reg) : s.regRead x.toNat = .ok (s.reg x) := by
  simp [State.regRead, x.isLt]

theorem State.regWrite_field (s : State) (x : Reg) (b : Byte) :
    s.regWrite x.toNat b = .ok (s.setReg x b) := by
  simp [State.regWrite, x.isLt]

theorem State.regRead_of_lt (s : State) {k : Nat} (h : k < 16) :
    s.regRead k = .ok (s.reg (BitVec.ofNat 4 k)) := by simp [State.regRead, h]

theorem State.regWrite_of_lt (s : State) {k : Nat} (b : Byte) (h : k < 16) :
    s.regWrite k b = .ok (s.setReg (BitVec.ofNat 4 k) b) := by simp [State.regWrite, h]

/-- A state is its fields. -/
theorem State.setStack_self (s : State) : s.setStack s.stack = s := rfl

/-- Everything the result/flag write does to the registers (43_alu.md R160): each order of the two writes. -/
theorem State.reg_writeResultAndFlag (s : State) (x y : Reg) (r : Byte → Byte → Byte) (f : Byte) (z : Reg) :
    (s.writeResultAndFlag x y r f).reg z =
      match s.params.vfWriteOrder with
      | .flagLast => if z = vf then f else if z = x then r (s.reg x) (s.reg y) else s.reg z
      | .resultLast => if z = x then r (s.reg x) (s.reg y) else if z = vf then f else s.reg z
      | .flagFirstReread =>
        if z = x then r (if x = vf then f else s.reg x) (if y = vf then f else s.reg y)
        else if z = vf then f else s.reg z := by
  unfold State.writeResultAndFlag
  cases h : s.params.vfWriteOrder <;> simp [State.reg_setReg]

end Sys2Proof.Machine
end

