-- ==== Sys2Proof/Laws/Memory.lean ====
section
/-! SUPPORT. Memory: a read after a write, every other byte, the canonical form, and what the store and load loops
can do. -/

namespace Sys2Proof.Machine

/-! ## One byte -/

theorem Memory.byteAt_erase_self (m : Memory) (a : Nat) : (m.erase a).byteAt a = Memory.unlisted a := by
  induction m with
  | nil => rfl
  | cons c m ih =>
    obtain ⟨k, b⟩ := c
    by_cases h : k = a
    · subst h; simpa [Memory.erase] using ih
    · simpa [Memory.erase, h, Memory.byteAt] using ih

theorem Memory.byteAt_erase_of_ne (m : Memory) {a c : Nat} (h : c ≠ a) : (m.erase a).byteAt c = m.byteAt c := by
  induction m with
  | nil => rfl
  | cons e m ih =>
    obtain ⟨k, b⟩ := e
    by_cases hk : k = a
    · subst hk
      have hkc : k ≠ c := fun e => h e.symm
      simpa [Memory.erase, Memory.byteAt, hkc] using ih
    · simp only [Memory.erase, ne_eq, hk, not_false_eq_true, bne_iff_ne, List.filter_cons_of_pos, Memory.byteAt]
      split
      · rfl
      · exact ih

theorem Memory.byteAt_insert_of_ne (m : Memory) {a c : Nat} (b : Byte) (h : c ≠ a) :
    (Memory.insert m a b).byteAt c = m.byteAt c := by
  have h' : a ≠ c := fun e => h e.symm
  induction m with
  | nil => simp [Memory.insert, Memory.byteAt, h']
  | cons e m ih =>
    obtain ⟨k, d⟩ := e
    unfold Memory.insert
    split
    · simp [Memory.byteAt, h']
    · simp only [Memory.byteAt, ih]

theorem Memory.byteAt_insert_self (m : Memory) (a : Nat) (b : Byte) (h : ∀ c ∈ m, c.1 ≠ a) :
    (Memory.insert m a b).byteAt a = b := by
  induction m with
  | nil => simp [Memory.insert, Memory.byteAt]
  | cons e m ih =>
    obtain ⟨k, d⟩ := e
    have hk : k ≠ a := h (k, d) (by simp)
    unfold Memory.insert
    split
    · simp [Memory.byteAt]
    · simpa [Memory.byteAt, hk] using ih fun c hc => h c (List.mem_cons_of_mem _ hc)

theorem Memory.ne_of_mem_erase {m : Memory} {a : Nat} {c : Host.Cell} (h : c ∈ m.erase a) : c.1 ≠ a := by
  simpa using (List.mem_filter.1 h).2

/-- A read after a write to the same address gives the byte written. -/
@[simp] theorem Memory.byteAt_setByte_self (m : Memory) (a : Nat) (b : Byte) : (m.setByte a b).byteAt a = b := by
  unfold Memory.setByte
  split
  · simp_all [Memory.byteAt_erase_self]
  · exact Memory.byteAt_insert_self _ _ _ fun _ => Memory.ne_of_mem_erase

/-- A write leaves every other address alone. -/
theorem Memory.byteAt_setByte_of_ne (m : Memory) {a c : Nat} (b : Byte) (h : c ≠ a) :
    (m.setByte a b).byteAt c = m.byteAt c := by
  unfold Memory.setByte
  split
  · exact Memory.byteAt_erase_of_ne m h
  · rw [Memory.byteAt_insert_of_ne _ _ h, Memory.byteAt_erase_of_ne m h]

theorem Memory.byteAt_setByte (m : Memory) (a c : Nat) (b : Byte) :
    (m.setByte a b).byteAt c = if c = a then b else m.byteAt c := by
  split
  · subst_vars; simp
  · exact Memory.byteAt_setByte_of_ne m b ‹_›

/-! ## The canonical form -/

theorem Memory.wf_nil : Memory.wf [] := by simp [Memory.wf]

theorem Memory.wf_erase {m : Memory} (h : m.wf) (a : Nat) : (m.erase a).wf :=
  ⟨h.1.sublist List.filter_sublist, fun c hc => h.2 c (List.mem_of_mem_filter hc)⟩

theorem Memory.mem_insert {m : Memory} {a : Nat} {b : Byte} {c : Host.Cell} (h : c ∈ Memory.insert m a b) :
    c = (a, b) ∨ c ∈ m := by
  induction m with
  | nil => simpa [Memory.insert] using h
  | cons e m ih =>
    unfold Memory.insert at h
    split at h
    · simpa using h
    · rcases List.mem_cons.1 h with h | h
      · simp [h]
      · rcases ih h with h | h <;> simp [h]

theorem Memory.pairwise_insert {m : Memory} {a : Nat} (b : Byte)
    (hm : m.Pairwise fun c d => c.1 < d.1) (hne : ∀ c ∈ m, c.1 ≠ a) :
    (Memory.insert m a b).Pairwise fun c d => c.1 < d.1 := by
  induction m with
  | nil => simp [Memory.insert]
  | cons e m ih =>
    obtain ⟨k, d⟩ := e
    obtain ⟨hk, hm⟩ := List.pairwise_cons.1 hm
    have hka : k ≠ a := hne (k, d) (by simp)
    unfold Memory.insert
    split
    · rename_i hlt
      refine List.pairwise_cons.2 ⟨fun c hc => ?_, List.pairwise_cons.2 ⟨hk, hm⟩⟩
      rcases List.mem_cons.1 hc with rfl | hc
      · exact hlt
      · exact Nat.lt_trans hlt (hk c hc)
    · refine List.pairwise_cons.2 ⟨fun c hc => ?_, ih hm fun c hc => hne c (List.mem_cons_of_mem _ hc)⟩
      rcases Memory.mem_insert hc with rfl | hc
      · show k < a
        omega
      · exact hk c hc

/-- A write inside the memory keeps the canonical form. -/
theorem Memory.wf_setByte {m : Memory} (h : m.wf) {a : Nat} (ha : a < memSize) (b : Byte) : (m.setByte a b).wf := by
  unfold Memory.setByte
  split
  · exact Memory.wf_erase h a
  · refine ⟨Memory.pairwise_insert b (Memory.wf_erase h a).1 fun _ => Memory.ne_of_mem_erase, fun c hc => ?_⟩
    rcases Memory.mem_insert hc with rfl | hc
    · exact ⟨ha, ‹_›⟩
    · exact (Memory.wf_erase h a).2 c hc

/-- Bytes written inside the memory keep the canonical form. -/
theorem Memory.wf_setBytes {m : Memory} (h : m.wf) {a : Nat} (bs : List Byte) (ha : a + bs.length ≤ memSize) :
    (m.setBytes a bs).wf := by
  induction bs generalizing m a with
  | nil => exact h
  | cons b bs ih =>
    simp only [List.length_cons] at ha
    exact ih (Memory.wf_setByte h (by omega) b) (by omega)

/-- What an address reads as after bytes were written at rising addresses. -/
theorem Memory.byteAt_setBytes (m : Memory) (a c : Nat) (bs : List Byte) :
    (m.setBytes a bs).byteAt c =
      if a ≤ c ∧ c < a + bs.length then bs.getD (c - a) 0 else m.byteAt c := by
  induction bs generalizing m a with
  | nil => simp [Memory.setBytes]
  | cons b bs ih =>
    simp only [Memory.setBytes, ih, Memory.byteAt_setByte, List.length_cons]
    by_cases h1 : c = a
    · subst h1
      simp
    · by_cases h2 : a + 1 ≤ c ∧ c < a + 1 + bs.length
      · have e : c - a = (c - (a + 1)) + 1 := by omega
        rw [if_pos h2, if_pos (by omega), e, List.getD_cons_succ]
      · rw [if_neg h2, if_neg h1, if_neg (by omega)]

/-! ## The checked accesses -/

theorem State.memRead_of_lt (s : State) {a : Nat} (h : a < memSize) : s.memRead a = .ok (s.mem.byteAt a) := by
  simp [State.memRead, h]

theorem State.memRead_of_ge (s : State) {a : Nat} (h : memSize ≤ a) : s.memRead a = .error (.memFault a) := by
  simp [State.memRead, Nat.not_lt.2 h]

theorem State.memWrite_of_lt (s : State) {a : Nat} (b : Byte) (h : a < memSize) :
    s.memWrite a b = .ok (s.setMem (s.mem.setByte a b)) := by simp [State.memWrite, h]

theorem State.memWrite_of_ge (s : State) {a : Nat} (b : Byte) (h : memSize ≤ a) :
    s.memWrite a b = .error (.memFault a) := by simp [State.memWrite, Nat.not_lt.2 h]

/-! ## The loops -/

/-- Storing bytes that all fit: one memory update. -/
theorem State.storeBytes_ok (s : State) (a : Nat) (bs : List Byte) (h : a + bs.length ≤ memSize) :
    s.storeBytes a bs = .ok (s.setMem (s.mem.setBytes a bs)) := by
  induction bs generalizing s a with
  | nil => rfl
  | cons b bs ih =>
    simp only [List.length_cons] at h
    simp only [State.storeBytes, State.memWrite_of_lt s b (show a < memSize by omega)]
    rw [ih _ _ (by omega)]
    rfl

/-- Storing bytes that do not all fit: the fault is at the first address at or above 4096, with the bytes below it
stored. -/
theorem State.storeBytes_raised (s : State) (a : Nat) (bs : List Byte) (h : memSize < a + bs.length)
    (hne : bs ≠ []) :
    s.storeBytes a bs =
      .raised (.memFault (max a memSize)) (s.setMem (s.mem.setBytes a (bs.take (memSize - a)))) := by
  induction bs generalizing s a with
  | nil => exact absurd rfl hne
  | cons b bs ih =>
    simp only [List.length_cons] at h
    by_cases ha : a < memSize
    · simp only [State.storeBytes, State.memWrite_of_lt s b ha]
      have hb : bs ≠ [] := by rintro rfl; simp at h; omega
      rw [ih _ _ (by omega) hb, show max (a + 1) memSize = max a memSize by omega,
        show memSize - a = (memSize - (a + 1)) + 1 by omega, List.take_succ_cons]
      rfl
    · rw [show memSize - a = 0 by omega, show max a memSize = a by omega]
      simp only [State.storeBytes, State.memWrite_of_ge s b (Nat.not_lt.1 ha)]
      rfl

/-- Free storing changes the memory only. -/
theorem State.storeFreely_eq (s : State) (e a slot : Nat) (bs : List Byte) :
    s.storeFreely e a slot bs = s.setMem (s.storeFreely e a slot bs).mem := by
  induction bs generalizing s a slot with
  | nil => rfl
  | cons b bs ih =>
    simp only [State.storeFreely]
    split
    · rw [ih]; rfl
    · exact ih s (a + 1) (slot + 1)

/-- What an address reads as after free storing: its old byte, or the new one where it is stored to, is in range and
the free choice says so. -/
theorem State.byteAt_storeFreely (s : State) (e a slot c : Nat) (bs : List Byte) :
    (s.storeFreely e a slot bs).mem.byteAt c =
      if (a ≤ c ∧ c < a + bs.length) ∧ c < memSize ∧ Config.freeChoice e (slot + (c - a)) = true
      then bs.getD (c - a) 0 else s.mem.byteAt c := by
  induction bs generalizing s a slot with
  | nil => simp [State.storeFreely]
  | cons b bs ih =>
    simp only [State.storeFreely, ih, List.length_cons]
    by_cases h1 : c = a
    · subst h1
      rw [if_neg (by omega)]
      by_cases h3 : c < memSize ∧ Config.freeChoice e slot = true
      · simp [h3]
      · rw [if_neg h3, if_neg (by simpa using h3)]
    · have hm : ((if a < memSize ∧ Config.freeChoice e slot = true then s.setMem (s.mem.setByte a b) else s).mem).byteAt c
          = s.mem.byteAt c := by
        split
        · simpa using Memory.byteAt_setByte_of_ne s.mem b h1
        · rfl
      rw [hm]
      by_cases h2 : a + 1 ≤ c
      · rw [show slot + 1 + (c - (a + 1)) = slot + (c - a) by omega,
          show c - a = (c - (a + 1)) + 1 by omega, List.getD_cons_succ]
        congr 1
        simp only [eq_iff_iff]
        constructor <;> rintro ⟨h, h'⟩ <;> exact ⟨by omega, h'⟩
      · rw [if_neg (by omega), if_neg (by omega)]

theorem State.wf_storeFreely (s : State) (e a slot : Nat) (bs : List Byte) (h : s.mem.wf) :
    (s.storeFreely e a slot bs).mem.wf := by
  induction bs generalizing s a slot with
  | nil => exact h
  | cons b bs ih =>
    simp only [State.storeFreely]
    split
    · exact ih _ _ _ (Memory.wf_setByte h (by tauto) b)
    · exact ih _ _ _ h

/-- Free storing reads the memory only. -/
theorem State.storeFreely_mem_congr {s t : State} (h : t.mem = s.mem) (e a slot : Nat) (bs : List Byte) :
    (t.storeFreely e a slot bs).mem = (s.storeFreely e a slot bs).mem := by
  induction bs generalizing s t a slot with
  | nil => exact h
  | cons b bs ih =>
    simp only [State.storeFreely]
    split
    · exact ih (by simp [h]) _ _
    · exact ih h _ _

/-- The bytes that FX55 stores from the listed registers. -/
def State.regBytes (s : State) (ks : List Nat) : List Byte := ks.map fun k => s.reg (BitVec.ofNat 4 k)

/-- FX55's loop is a store of register bytes: the registers `k, k+1, …` at the addresses `a + k, …`. -/
theorem State.storeRegs_eq (s : State) (a k n : Nat) (h : k + n ≤ 16) :
    s.storeRegs a (List.range' k n) = s.storeBytes (a + k) (s.regBytes (List.range' k n)) := by
  induction n generalizing s k with
  | zero => rfl
  | succ n ih =>
    simp only [List.range'_succ, State.storeRegs, State.regRead_of_lt s (show k < 16 by omega), State.regBytes,
      List.map_cons, State.storeBytes]
    cases hw : s.memWrite (a + k) (s.reg (BitVec.ofNat 4 k)) with
    | error f => rfl
    | ok t =>
      have ht : ∀ r, t.reg r = s.reg r := by
        unfold State.memWrite at hw
        split at hw
        · cases hw; intro r; simp
        · cases hw
      simp only [ih t (k + 1) (by omega), State.regBytes, ht]
      rfl

/-- FX65's loop when it fits, and its fault at the first address at or above 4096, with the registers below it
loaded. -/
theorem State.loadRegs_eq (s t : State) (a k n : Nat) (h : k + n ≤ 16) (ht : t.mem = s.mem) :
    t.loadRegs a (List.range' k n) =
      if a + k + n ≤ memSize ∨ n = 0 then
        .ok ((List.range' k n).foldl (fun t j => t.setReg (BitVec.ofNat 4 j) (s.mem.byteAt (a + j))) t)
      else .raised (.memFault (max (a + k) memSize))
        ((List.range' k (memSize - (a + k))).foldl
          (fun t j => t.setReg (BitVec.ofNat 4 j) (s.mem.byteAt (a + j))) t) := by
  induction n generalizing t k with
  | zero => simp [State.loadRegs]
  | succ n ih =>
    simp only [List.range'_succ, State.loadRegs]
    by_cases ha : a + k < memSize
    · simp only [State.memRead_of_lt t ha, State.regWrite_of_lt t _ (show k < 16 by omega)]
      rw [ih _ _ (by omega) (by simpa using ht)]
      by_cases hf : a + (k + 1) + n ≤ memSize ∨ n = 0
      · rw [if_pos hf, if_pos (by omega), ht]
        rfl
      · rw [if_neg hf, if_neg (by omega), show memSize - (a + k) = (memSize - (a + (k + 1))) + 1 by omega,
          show max (a + (k + 1)) memSize = max (a + k) memSize by omega, List.range'_succ, ht]
        rfl
    · simp only [State.memRead_of_ge t (Nat.not_lt.1 ha)]
      rw [if_neg (by omega), show memSize - (a + k) = 0 by omega, show max (a + k) memSize = a + k by omega]
      rfl

/-- The registers after loading `n` of them from register `k` on. -/
theorem State.reg_foldl_load (s : State) (m : Memory) (a k n : Nat) (h : k + n ≤ 16) (r : Reg) :
    ((List.range' k n).foldl (fun t j => t.setReg (BitVec.ofNat 4 j) (m.byteAt (a + j))) s).reg r =
      if k ≤ r.toNat ∧ r.toNat < k + n then m.byteAt (a + r.toNat) else s.reg r := by
  induction n generalizing s k with
  | zero => simp
  | succ n ih =>
    rw [List.range'_succ, List.foldl_cons, ih _ _ (by omega), State.reg_setReg]
    have hk : (BitVec.ofNat 4 k).toNat = k := by simp; omega
    by_cases h1 : r = BitVec.ofNat 4 k
    · have hr : r.toNat = k := by rw [h1]; exact hk
      rw [if_neg (by omega), if_pos h1, if_pos (by omega), hr]
    · have hr : r.toNat ≠ k := fun e => h1 (BitVec.eq_of_toNat_eq (by rw [hk]; exact e))
      rw [if_neg h1]
      congr 1
      simp only [eq_iff_iff]
      omega

/-- Loading registers changes registers only. -/
theorem State.foldl_load_eq (s : State) (m : Memory) (a : Nat) (ks : List Nat) :
    ∃ w, ks.foldl (fun t j => t.setReg (BitVec.ofNat 4 j) (m.byteAt (a + j))) s = { s with v := w } := by
  induction ks generalizing s with
  | nil => exact ⟨s.v, rfl⟩
  | cons k ks ih =>
    obtain ⟨w, hw⟩ := ih (s.setReg (BitVec.ofNat 4 k) (m.byteAt (a + k)))
    exact ⟨w, by rw [List.foldl_cons, hw]; rfl⟩

/-- The register indices of FX55 and FX65 as a range. -/
theorem regsUpTo_eq (x : Reg) : regsUpTo x = List.range' 0 (x.toNat + 1) := by
  rw [regsUpTo, List.range_eq_range']

end Sys2Proof.Machine
end

