-- ==== Sys2Proof/Laws/Timers.lean ====
section
/-! SUPPORT. The timers' arithmetic (60_exceptions.md R322): exact fractions, the loop's closed form, what a tick
keeps. -/

namespace Sys2Proof.Machine

theorem Frac.wf_reduce {n d : Nat} (h : 0 < d) : (Frac.reduce n d).wf := by
  have hg : 0 < Nat.gcd n d := Nat.gcd_pos_of_pos_right n h
  exact ⟨Nat.div_pos (Nat.le_of_dvd h (Nat.gcd_dvd_right n d)) hg, Nat.coprime_div_gcd_div_gcd hg⟩

/-- Adding a tick's progress at a positive rate keeps the fraction in lowest terms. -/
theorem Frac.wf_addTick {a : Frac} (h : a.wf) {rate : Nat} (hr : 0 < rate) : (a.addTick rate).wf :=
  Frac.wf_reduce (Nat.mul_pos h.1 hr)

theorem Frac.wf_subOne {a : Frac} (h : a.wf) (hge : a.den ≤ a.num) : a.subOne.wf :=
  ⟨h.1, (Nat.coprime_sub_self_left hge).2 h.2⟩

theorem Frac.value_reduce (n : Nat) {d : Nat} (h : 0 < d) : (Frac.reduce n d).value = (n : ℚ) / d := by
  have hg : (Nat.gcd n d : ℚ) ≠ 0 := by
    exact_mod_cast (Nat.gcd_pos_of_pos_right n h).ne'
  simp only [Frac.value, Frac.reduce]
  rw [Nat.cast_div (Nat.gcd_dvd_left n d) hg, Nat.cast_div (Nat.gcd_dvd_right n d) hg,
    div_div_div_cancel_right₀ hg]

/-- The progress of one call is exactly `60 / rate` (R322). -/
theorem Frac.value_addTick {a : Frac} (h : a.wf) {rate : Nat} (hr : 0 < rate) :
    (a.addTick rate).value = a.value + 60 / rate := by
  have hd : (a.den : ℚ) ≠ 0 := by exact_mod_cast h.1.ne'
  have hq : (rate : ℚ) ≠ 0 := by exact_mod_cast hr.ne'
  rw [Frac.addTick, Frac.value_reduce _ (Nat.mul_pos h.1 hr), Frac.value]
  push_cast
  field_simp

theorem Frac.value_subOne {a : Frac} (h : a.wf) (hge : a.den ≤ a.num) : a.subOne.value = a.value - 1 := by
  have hd : (a.den : ℚ) ≠ 0 := by exact_mod_cast h.1.ne'
  simp only [Frac.value, Frac.subOne]
  rw [Nat.cast_sub hge]
  field_simp

theorem Frac.geOne_iff (a : Frac) : a.geOne = true ↔ a.den ≤ a.num := by simp [Frac.geOne]

@[simp] theorem Timer.decrement_start (t : Timer) : t.decrement.start = t.start := rfl
@[simp] theorem Timer.progress_start (t : Timer) (r : Nat) : (t.progress r).start = t.start := rfl
@[simp] theorem Timer.progress_current (t : Timer) (r : Nat) : (t.progress r).current = t.current := rfl
@[simp] theorem Timer.progress_acc (t : Timer) (r : Nat) : (t.progress r).acc = t.acc.addTick r := rfl

/-- One decrement takes 1 from the value and stops at 0. -/
theorem Timer.decrement_current (t : Timer) : t.decrement.current.toNat = t.current.toNat - 1 := by
  simp only [Timer.decrement]
  split
  · rename_i h; simp [h]
  · rename_i h
    have h0 : t.current.toNat ≠ 0 := fun e => h (BitVec.eq_of_toNat_eq (by simpa using e))
    have := t.current.isLt
    rw [BitVec.toNat_sub]
    simp
    omega

/-- The loop's closed form: as many rounds as whole decrements have accumulated (R322). -/
theorem Timer.drain_eq (n : Nat) (t : Timer) (h : n * t.acc.den ≤ t.acc.num) (hd : 0 < t.acc.den) :
    (Timer.drain n t).start = t.start ∧
    (Timer.drain n t).current.toNat = t.current.toNat - n ∧
    (Timer.drain n t).acc = ⟨t.acc.num - n * t.acc.den, t.acc.den⟩ := by
  induction n generalizing t with
  | zero => simp [Timer.drain]
  | succ n ih =>
    have hge : t.acc.den ≤ t.acc.num := by
      have : t.acc.den ≤ (n + 1) * t.acc.den := Nat.le_mul_of_pos_left _ (Nat.succ_pos n)
      omega
    rw [Timer.drain, if_pos ((Frac.geOne_iff _).2 hge)]
    have e : (n + 1) * t.acc.den = n * t.acc.den + t.acc.den := by ring
    have h' : n * t.decrement.acc.den ≤ t.decrement.acc.num := by
      simp only [Timer.decrement, Frac.subOne]; omega
    obtain ⟨h1, h2, h3⟩ := ih t.decrement h' hd
    refine ⟨by simpa using h1, by rw [h2, Timer.decrement_current]; omega, ?_⟩
    rw [h3]
    simp only [Timer.decrement, Frac.subOne, Frac.mk.injEq, and_true]
    omega

/-- Draining everything: the whole part of the accumulator is taken off, the value stops at 0 (R322). -/
theorem Timer.drainAll_eq (t : Timer) (hd : 0 < t.acc.den) :
    t.drainAll.start = t.start ∧
    t.drainAll.current.toNat = t.current.toNat - t.acc.num / t.acc.den ∧
    t.drainAll.acc = ⟨t.acc.num % t.acc.den, t.acc.den⟩ := by
  obtain ⟨h1, h2, h3⟩ := Timer.drain_eq (t.acc.num / t.acc.den) t (Nat.div_mul_le_self _ _) hd
  refine ⟨h1, h2, ?_⟩
  rw [Timer.drainAll, h3]
  have := Nat.mod_add_div' t.acc.num t.acc.den
  simp only [Frac.mk.injEq, and_true]
  omega

theorem Timer.wf_decrement {t : Timer} (h : t.wf) (hge : t.acc.den ≤ t.acc.num) : t.decrement.wf :=
  Frac.wf_subOne h hge

theorem Timer.wf_drain (n : Nat) {t : Timer} (h : t.wf) : (Timer.drain n t).wf := by
  induction n generalizing t with
  | zero => exact h
  | succ n ih =>
    rw [Timer.drain]
    split
    · exact ih (Timer.wf_decrement h ((Frac.geOne_iff _).1 ‹_›))
    · exact h

/-- A tick at a positive rate keeps the accumulator in lowest terms. -/
theorem Timer.wf_tick {t : Timer} (h : t.wf) (p : SubratePolicy) {rate : Nat} (hr : 0 < rate) :
    (t.tick p rate).wf := by
  have hp : (t.progress rate).wf := Frac.wf_addTick h hr
  unfold Timer.tick
  split
  · exact Timer.wf_drain _ hp
  · unfold Timer.drainOne
    split
    · exact Timer.wf_decrement hp ((Frac.geOne_iff _).1 ‹_›)
    · exact hp

theorem Timer.wf_set (t : Timer) (v : Byte) : (t.set v).wf := by
  simp [Timer.wf, Timer.set, Frac.wf]

/-- A tick never reads or writes `start`. -/
theorem Timer.drain_start (n : Nat) (t : Timer) : (Timer.drain n t).start = t.start := by
  induction n generalizing t with
  | zero => rfl
  | succ n ih =>
    rw [Timer.drain]
    split
    · rw [ih]; rfl
    · rfl

theorem Timer.tick_start (t : Timer) (p : SubratePolicy) (rate : Nat) : (t.tick p rate).start = t.start := by
  unfold Timer.tick
  split
  · exact Timer.drain_start _ _
  · unfold Timer.drainOne
    split <;> rfl

end Sys2Proof.Machine
end

