-- ==== Sys2Proof/Laws/Cycle.lean ====
section
/-! SUPPORT. What the start of a step does to each field, and all that a step can do (40_execution_cycle.md R101). -/

namespace Sys2Proof.Machine

/-! ## The sound-stop check and the tick phase -/

/-- The sound-stop check in one equation: it changes `playing` and the events only (60_exceptions.md R324). -/
theorem State.soundStopCheck_eq (s : State) :
    s.soundStopCheck = { s with
      playing := s.playing && s.st.current != 0
      events := if s.playing = true ∧ s.st.current = 0 then s.events ++ [.pause] else s.events } := by
  obtain ⟨_, _, _, _, _, _, _, st, playing, _, _, _, _, _, _, _, _, _, _, _⟩ := s
  cases playing
  · simp [State.soundStopCheck]
  · by_cases hc : st.current = 0#8 <;> simp [State.soundStopCheck, State.emit, State.setPlaying, hc]

/-- The state in which the fetch, or the key wait, begins. -/
def State.ticked (s : State) (rate : Nat) : State := s.beginStep.tickPhase rate

/-- The start of a step in one equation (40_execution_cycle.md R102). -/
theorem State.ticked_eq (s : State) (rate : Nat) :
    s.ticked rate = { s with
      dt := s.dt.tick s.params.subratePolicy rate
      st := s.st.tick s.params.subratePolicy rate
      playing := s.playing && (s.st.tick s.params.subratePolicy rate).current != 0
      rate := s.takeInput.rate
      key := s.takeInput.key
      pending := s.takeInput.pending
      result := none
      events := if s.playing = true ∧ (s.st.tick s.params.subratePolicy rate).current = 0 then [.pause] else [] } := by
  unfold State.ticked State.tickPhase State.beginStep
  rw [State.soundStopCheck_eq]
  unfold State.takeInput State.clearOutputs State.setDT State.setST
  split <;> simp

@[simp] theorem State.ticked_mem (s : State) (r : Nat) : (s.ticked r).mem = s.mem := by rw [State.ticked_eq]
@[simp] theorem State.ticked_v (s : State) (r : Nat) : (s.ticked r).v = s.v := by rw [State.ticked_eq]
@[simp] theorem State.ticked_i (s : State) (r : Nat) : (s.ticked r).i = s.i := by rw [State.ticked_eq]
@[simp] theorem State.ticked_pc (s : State) (r : Nat) : (s.ticked r).pc = s.pc := by rw [State.ticked_eq]
@[simp] theorem State.ticked_stack (s : State) (r : Nat) : (s.ticked r).stack = s.stack := by rw [State.ticked_eq]
@[simp] theorem State.ticked_display (s : State) (r : Nat) : (s.ticked r).display = s.display := by
  rw [State.ticked_eq]
@[simp] theorem State.ticked_dt (s : State) (r : Nat) :
    (s.ticked r).dt = s.dt.tick s.params.subratePolicy r := by rw [State.ticked_eq]
@[simp] theorem State.ticked_st (s : State) (r : Nat) :
    (s.ticked r).st = s.st.tick s.params.subratePolicy r := by rw [State.ticked_eq]
@[simp] theorem State.ticked_playing (s : State) (r : Nat) : (s.ticked r).playing =
    (s.playing && (s.st.tick s.params.subratePolicy r).current != 0) := by rw [State.ticked_eq]
@[simp] theorem State.ticked_latch (s : State) (r : Nat) : (s.ticked r).latch = s.latch := by rw [State.ticked_eq]
@[simp] theorem State.ticked_quirks (s : State) (r : Nat) : (s.ticked r).quirks = s.quirks := by
  rw [State.ticked_eq]
@[simp] theorem State.ticked_params (s : State) (r : Nat) : (s.ticked r).params = s.params := by
  rw [State.ticked_eq]
@[simp] theorem State.ticked_rate (s : State) (r : Nat) : (s.ticked r).rate = s.takeInput.rate := by
  rw [State.ticked_eq]
@[simp] theorem State.ticked_key (s : State) (r : Nat) : (s.ticked r).key = s.takeInput.key := by
  rw [State.ticked_eq]
@[simp] theorem State.ticked_pending (s : State) (r : Nat) : (s.ticked r).pending = s.takeInput.pending := by
  rw [State.ticked_eq]
@[simp] theorem State.ticked_result (s : State) (r : Nat) : (s.ticked r).result = none := by rw [State.ticked_eq]
@[simp] theorem State.ticked_events (s : State) (r : Nat) : (s.ticked r).events =
    if s.playing = true ∧ (s.st.tick s.params.subratePolicy r).current = 0 then [.pause] else [] := by
  rw [State.ticked_eq]
@[simp] theorem State.ticked_faultRecord (s : State) (r : Nat) : (s.ticked r).faultRecord = s.faultRecord := by
  rw [State.ticked_eq]
@[simp] theorem State.ticked_randomCount (s : State) (r : Nat) : (s.ticked r).randomCount = s.randomCount := by
  rw [State.ticked_eq]
@[simp] theorem State.ticked_freeCount (s : State) (r : Nat) : (s.ticked r).freeCount = s.freeCount := by
  rw [State.ticked_eq]
@[simp] theorem State.reg_ticked (s : State) (r : Nat) (z : Reg) : (s.ticked r).reg z = s.reg z := by
  rw [State.ticked_eq]; rfl

theorem State.takeInput_pending (s : State) : s.takeInput.pending = s.pending.tail := by
  unfold State.takeInput; split <;> simp [*]

/-- An admissible rate is positive. -/
theorem State.stepRate_pos {s : State} {rate : Nat} (h : s.stepRate = some rate) : 0 < rate := by
  unfold State.stepRate TickRate.positive? at h
  split at h <;> simp_all
  omega

/-! ## The fetch -/

theorem State.fetch_of_le (s : State) (h : s.pc.toNat ≤ 4094) :
    s.fetch = .ok (wordOfBytes (s.mem.byteAt s.pc.toNat) (s.mem.byteAt (s.pc.toNat + 1))) := by
  unfold State.fetch
  rw [State.memRead_of_lt s (show s.pc.toNat < memSize by unfold memSize; omega),
    State.memRead_of_lt s (show s.pc.toNat + 1 < memSize by unfold memSize; omega)]

theorem State.fetch_of_gt (s : State) (h : 4095 ≤ s.pc.toNat) :
    s.fetch = .error (.memFault (max s.pc.toNat 4096)) := by
  unfold State.fetch
  by_cases hp : memSize ≤ s.pc.toNat
  · rw [State.memRead_of_ge s hp]
    unfold memSize at hp
    rw [show max s.pc.toNat 4096 = s.pc.toNat by omega]
  · have e : s.pc.toNat = 4095 := by unfold memSize at hp; omega
    rw [State.memRead_of_lt s (Nat.not_le.1 hp), State.memRead_of_ge s (by unfold memSize; omega), e]
    rfl

/-- The fetch of a step reads what was in memory at `pc` before the step. -/
theorem State.fetch_ticked (s : State) (rate : Nat) : (s.ticked rate).fetch = s.fetch := by
  simp [State.fetch, State.memRead]

theorem State.fetch_ok_le {s : State} {w : Word} (h : s.fetch = .ok w) : s.pc.toNat ≤ 4094 := by
  by_contra hc
  rw [State.fetch_of_gt s (by omega)] at h
  cases h

/-- The advance of `pc` after a successful fetch does not wrap (10_state.md R24). -/
theorem State.advance_pc_toNat {s : State} (h : s.pc.toNat ≤ 4094) : (s.advance.pc).toNat = s.pc.toNat + 2 := by
  simp only [State.advance, State.setPc_pc, BitVec.toNat_add]
  simp
  omega

/-! ## The step -/

/-- The state from which a decoded instruction runs. -/
def State.started (s : State) (rate : Nat) (i : Instr) : State :=
  (s.ticked rate).advance.setResult (some (.executed i))

theorem step_of_badRate {s : State} (h : s.stepRate = none) : step s = .refused .badRate := by
  simp [step, State.prepare, h]

theorem step_of_latch {s : State} {rate : Nat} {x : Reg} (hr : s.stepRate = some rate) (hl : s.latch = some x) :
    step s = .next ((s.ticked rate).awaitKey x) := by
  have hl' : (s.beginStep.tickPhase rate).latch = some x := by
    rw [← hl]; exact State.ticked_latch s rate
  simp [step, State.prepare, hr, State.afterTicks, hl', State.ticked]

theorem step_of_running {s : State} {rate : Nat} (hr : s.stepRate = some rate) (hl : s.latch = none) :
    step s = match s.fetch with
      | .error f => .next ((s.ticked rate).raise f)
      | .ok w => match decode w with
        | .ok i => exec i (s.started rate i)
        | .error _ => .next ((s.ticked rate).advance.raise (.invalidOpcode w)) := by
  have hl' : (s.beginStep.tickPhase rate).latch = none := by
    rw [← hl]; exact State.ticked_latch s rate
  have hf : (s.beginStep.tickPhase rate).fetch = s.fetch := State.fetch_ticked s rate
  simp only [step, State.prepare, hr, State.afterTicks, hl', State.fetchDecode, hf]
  cases s.fetch with
  | error f => rfl
  | ok w =>
    simp only
    cases decode w <;> rfl

/-- ALL THAT A STEP CAN DO when it answers a next state. -/
theorem step_cases {s t : State} (h : step s = .next t) :
    ∃ rate, s.stepRate = some rate ∧
      ((∃ x, s.latch = some x ∧ t = (s.ticked rate).awaitKey x) ∨
       (s.latch = none ∧
        ((∃ f, s.fetch = .error f ∧ t = (s.ticked rate).raise f) ∨
         (∃ w, s.fetch = .ok w ∧ s.pc.toNat ≤ 4094 ∧
          ((decode w = .error (.invalid w) ∧ t = (s.ticked rate).advance.raise (.invalidOpcode w)) ∨
           (∃ i, decode w = .ok i ∧ exec i (s.started rate i) = .next t)))))) := by
  cases hr : s.stepRate with
  | none => rw [step_of_badRate hr] at h; cases h
  | some rate =>
    refine ⟨rate, rfl, ?_⟩
    cases hl : s.latch with
    | some x =>
      rw [step_of_latch hr hl] at h
      exact .inl ⟨x, rfl, (Host.Outcome.next.inj h).symm⟩
    | none =>
      rw [step_of_running hr hl] at h
      refine .inr ⟨rfl, ?_⟩
      cases hf : s.fetch with
      | error f => rw [hf] at h; exact .inl ⟨f, rfl, (Host.Outcome.next.inj h).symm⟩
      | ok w =>
        rw [hf] at h
        refine .inr ⟨w, rfl, State.fetch_ok_le hf, ?_⟩
        cases hd : decode w with
        | error e =>
          simp only [hd] at h
          exact .inl ⟨by rw [decode_error hd], (Host.Outcome.next.inj h).symm⟩
        | ok i => simp only [hd] at h; exact .inr ⟨i, rfl, h⟩

/-- The key wait changes the register, the latch and the result only (40_execution_cycle.md R103). -/
theorem State.awaitKey_eq (s : State) (x : Reg) :
    s.awaitKey x = match s.key with
      | some k => ((s.setReg x (k.setWidth 8)).setLatch none).setResult (some (.keyResolved x k))
      | none => s.setResult (some .waiting) := rfl

end Sys2Proof.Machine
end

