-- ==== Sys2Proof/Laws/Construct.lean ====
section
/-! SUPPORT. What construction leaves in memory (70_reset_and_hazards.md R402 to R404), and that `withFetchWord` puts an
instruction where the next step fetches it (log 7). -/

namespace Sys2Proof.Machine

/-- Every byte after construction: the image, the glyph table, the launch bytes. -/
theorem byteAt_constructMemory (image : List Byte) (font : Vector Byte 80) (mem : Memory) (a : Nat) :
    (constructMemory image font mem).byteAt a =
      if 0x200 ≤ a ∧ a < 0x200 + image.length then image.getD (a - 0x200) 0
      else if a < 80 then font.toList.getD a 0
      else mem.byteAt a := by
  simp only [constructMemory, Memory.byteAt_setBytes]
  congr 1
  simp

/-- Construction keeps the canonical form of the launch memory. -/
theorem wf_constructMemory {image : List Byte} {font : Vector Byte 80} {mem : Memory} (hm : mem.wf)
    (h : image.length + 0x200 ≤ memSize) : (constructMemory image font mem).wf :=
  Memory.wf_setBytes (Memory.wf_setBytes hm _ (by simp [memSize])) _ (by omega)

/-- An image that is too large (70_reset_and_hazards.md R400). -/
theorem construct_of_ge {image : List Byte} (q : Quirks) (p : Params) (font : Vector Byte 80) (l : Init)
    (h : memSize ≤ image.length + 0x200) : construct image q p font l = .error .romTooLarge := if_pos h

theorem State.fetchable_pc (s : State) : s.fetchable.pc.toNat + 1 < memSize := by
  unfold State.fetchable
  split
  · assumption
  · rw [State.setPc_pc]; decide

theorem State.withGoodRate_pc (s : State) : s.withGoodRate.pc = s.pc := by
  unfold State.withGoodRate
  split
  · rfl
  · exact State.takeInput_pc s

theorem State.withGoodRate_latch (s : State) : s.withGoodRate.latch = s.latch := by
  unfold State.withGoodRate
  split
  · rfl
  · exact State.takeInput_latch s

theorem State.withGoodRate_stepRate (s : State) : ∃ rate, s.withGoodRate.stepRate = some rate := by
  unfold State.withGoodRate
  split
  · rename_i r h
    exact ⟨r, h⟩
  · exact ⟨60, rfl⟩

/-- In every state, the next step after `withFetchWord` fetches exactly the word: the rate is admissible, no key is
awaited, and the two bytes at `pc` are the word's. -/
theorem State.fetch_withFetchWord (s : State) (w : Nat) :
    (∃ rate, (s.withFetchWord 16 w).stepRate = some rate) ∧ (s.withFetchWord 16 w).latch = none ∧
    (s.withFetchWord 16 w).fetch = .ok (BitVec.ofNat 16 w) := by
  have hp : ((s.fetchable.setLatch none).withGoodRate).pc.toNat + 1 < memSize := by
    rw [State.withGoodRate_pc]; exact State.fetchable_pc s
  have hr : (s.withFetchWord 16 w).stepRate = ((s.fetchable.setLatch none).withGoodRate).stepRate := by
    unfold State.withFetchWord State.placeNext State.stepRate State.takeInput
    simp only [State.setMem_pending]
    split <;> simp_all
  refine ⟨hr ▸ State.withGoodRate_stepRate (s.fetchable.setLatch none), State.withGoodRate_latch (s.fetchable.setLatch none), ?_⟩
  rw [State.fetch_of_le _ (by unfold memSize at hp; exact Nat.le_of_lt_succ (Nat.lt_of_succ_lt_succ hp))]
  simp only [State.withFetchWord, State.placeNext, State.setMem_mem, State.setMem_pc, Memory.byteAt_setBytes,
    tableWordBytes, List.length_cons, List.length_nil]
  rw [if_pos (by omega), if_pos (by omega)]
  simp only [Nat.sub_self, Nat.add_sub_cancel_left, List.getD_cons_zero, List.getD_cons_succ]
  rw [wordOfBytes_bytes]
  congr 1
  apply BitVec.eq_of_toNat_eq
  simp

end Sys2Proof.Machine
end

