-- ==== Sys2Proof/Laws/Display.lean ====
section
/-! SUPPORT. Display cells after a pixel, a row and a sprite were drawn (45_display.md R221). -/

namespace Sys2Proof.Machine

@[simp] theorem Display.cell_blank (x : Fin 64) (y : Fin 32) : Display.blank.cell x y = false := by
  simp [Display.cell, Display.blank]

@[simp] theorem Display.cell_ofCells (f : Fin 64 → Fin 32 → Bool) (x : Fin 64) (y : Fin 32) :
    (Display.ofCells f).cell x y = f x y := by
  simp [Display.cell, Display.ofCells]

/-- A cell after one cell was XORed. -/
theorem Display.cell_xorCell (d : Display) (x x' : Fin 64) (y y' : Fin 32) (p : Bool) :
    (d.xorCell x y p).cell x' y' = (d.cell x' y' ^^ (p && decide (x' = x ∧ y' = y))) := by
  unfold Display.xorCell Display.cell
  by_cases hy : y' = y
  · subst hy
    by_cases hx : x' = x
    · subst hx; simp
    · have : (x : Nat) ≠ x' := fun e => hx (Fin.ext e.symm)
      simp [hx, this]
  · have : (y : Nat) ≠ y' := fun e => hy (Fin.ext e.symm)
    simp [hy, this]

/-- Two displays with the same cells are the same. -/
theorem Display.ext_cell {d e : Display} (h : ∀ x y, d.cell x y = e.cell x y) : d = e := by
  apply Vector.ext
  intro y hy
  apply Vector.ext
  intro x hx
  exact h ⟨x, hx⟩ ⟨y, hy⟩

/-! ## A row and a sprite -/

/-- The pixel that some listed column of a sprite row, drawn in display row `py`, sets at (`x`, `y`). -/
def rowPixel (x0 : Byte) (py : Fin 32) (b : Byte) (cs : List Nat) (x : Fin 64) (y : Fin 32) : Bool :=
  cs.any fun c => decide (spriteColumn x0 c = x ∧ py = y) && spriteBit b c

/-- The eight columns of a row fall on eight different display columns (45_display.md R221: each pixel is XORed
once). -/
theorem spriteColumn_inj {x0 : Byte} {c d : Nat} (hc : c < 8) (hd : d < 8)
    (h : spriteColumn x0 c = spriteColumn x0 d) : c = d := by
  have := congrArg Fin.val h
  simp only [spriteColumn, Fin.ofNat] at this
  omega

/-- The rows of a sprite fall on different display rows. -/
theorem spriteRow_inj {y0 : Byte} {r q : Nat} (hr : r < 16) (hq : q < 16)
    (h : spriteRow y0 r = spriteRow y0 q) : r = q := by
  have := congrArg Fin.val h
  simp only [spriteRow, Fin.ofNat] at this
  omega

/-- Drawing listed columns of a row: each pixel is XORed with the row's pixel, and a hit is a pixel that was set and is
set in the row. -/
theorem drawPixels_spec (x0 : Byte) (py : Fin 32) (b : Byte) (cs : List Nat) (hn : cs.Nodup)
    (h8 : ∀ c ∈ cs, c < 8) (k : Canvas) :
    (∀ x y, (cs.foldl (drawPixel x0 py b) k).display.cell x y = (k.display.cell x y ^^ rowPixel x0 py b cs x y)) ∧
    ((cs.foldl (drawPixel x0 py b) k).hit = true ↔
      k.hit = true ∨ ∃ x y, k.display.cell x y = true ∧ rowPixel x0 py b cs x y = true) := by
  induction cs generalizing k with
  | nil => simp [rowPixel]
  | cons c cs ih =>
    obtain ⟨hnot, hn⟩ := List.nodup_cons.1 hn
    obtain ⟨ih1, ih2⟩ := ih hn (fun d hd => h8 d (List.mem_cons_of_mem _ hd)) (drawPixel x0 py b k c)
    have hdisj : ∀ x y, rowPixel x0 py b cs x y = true → ¬ (spriteColumn x0 c = x ∧ py = y) := by
      intro x y hp hc
      obtain ⟨d, hd, hd'⟩ := List.any_eq_true.1 hp
      simp only [Bool.and_eq_true, decide_eq_true_eq] at hd'
      exact hnot (spriteColumn_inj (h8 c (by simp)) (h8 d (List.mem_cons_of_mem _ hd)) (hc.1.trans hd'.1.1.symm) ▸ hd)
    have hstep : ∀ x y, (drawPixel x0 py b k c).display.cell x y =
        (k.display.cell x y ^^ (spriteBit b c && decide (x = spriteColumn x0 c ∧ y = py))) := by
      intro x y
      simp [drawPixel, Display.cell_xorCell]
    refine ⟨fun x y => ?_, ?_⟩
    · rw [List.foldl_cons, ih1, hstep, Bool.xor_assoc]
      congr 1
      have := hdisj x y
      simp only [rowPixel, List.any_cons] at this ⊢
      by_cases hxy : spriteColumn x0 c = x ∧ py = y
      · have hr : (cs.any fun c => decide (spriteColumn x0 c = x ∧ py = y) && spriteBit b c) = false := by
          by_contra hcon
          exact this (Bool.not_eq_false _ ▸ hcon) hxy
        rw [hr]
        simp [hxy.1.symm, hxy.2.symm]
      · have hxy' : ¬ (x = spriteColumn x0 c ∧ y = py) := fun e => hxy ⟨e.1.symm, e.2.symm⟩
        simp [hxy, hxy']
    · rw [List.foldl_cons, ih2]
      have hh : (drawPixel x0 py b k c).hit = true ↔
          k.hit = true ∨ (spriteBit b c = true ∧ k.display.cell (spriteColumn x0 c) py = true) := by
        simp [drawPixel]
      rw [hh, or_assoc]
      refine or_congr_right ?_
      constructor
      · rintro (⟨hb, hcell⟩ | ⟨x, y, hcell, hp⟩)
        · exact ⟨_, _, hcell, by simp [rowPixel, hb]⟩
        · refine ⟨x, y, ?_, by simp only [rowPixel, List.any_cons, Bool.or_eq_true] at hp ⊢; exact .inr hp⟩
          have hne : ¬ (x = spriteColumn x0 c ∧ y = py) := fun e => hdisj x y hp ⟨e.1.symm, e.2.symm⟩
          simpa [hstep, hne] using hcell
      · rintro ⟨x, y, hcell, hp⟩
        simp only [rowPixel, List.any_cons, Bool.or_eq_true] at hp
        rcases hp with hp | hp
        · simp only [Bool.and_eq_true, decide_eq_true_eq] at hp
          obtain ⟨⟨rfl, rfl⟩, hb⟩ := hp
          exact .inl ⟨hb, hcell⟩
        · refine .inr ⟨x, y, ?_, hp⟩
          have hne : ¬ (x = spriteColumn x0 c ∧ y = py) := fun e => hdisj x y hp ⟨e.1.symm, e.2.symm⟩
          simpa [hstep, hne] using hcell

/-- Drawing one row of a sprite. -/
theorem drawRow_spec (x0 : Byte) (py : Fin 32) (b : Byte) (k : Canvas) :
    (∀ x y, (drawRow x0 py b k).display.cell x y =
      (k.display.cell x y ^^ rowPixel x0 py b (List.range 8) x y)) ∧
    ((drawRow x0 py b k).hit = true ↔
      k.hit = true ∨ ∃ x y, k.display.cell x y = true ∧ rowPixel x0 py b (List.range 8) x y = true) :=
  drawPixels_spec x0 py b _ List.nodup_range (fun _ h => List.mem_range.1 h) k

/-- The pixels of the listed rows of the sprite at I. -/
def rowsPixel (s : State) (x0 y0 : Byte) (rs : List Nat) (x : Fin 64) (y : Fin 32) : Bool :=
  rs.any fun r => rowPixel x0 (spriteRow y0 r) (s.mem.byteAt (s.i.toNat + r)) (List.range 8) x y

/-- A row's pixels lie in its display row. -/
theorem rowPixel_row {x0 : Byte} {py : Fin 32} {b : Byte} {cs : List Nat} {x : Fin 64} {y : Fin 32}
    (h : rowPixel x0 py b cs x y = true) : py = y := by
  obtain ⟨c, _, hc⟩ := List.any_eq_true.1 h
  simp only [Bool.and_eq_true, decide_eq_true_eq] at hc
  exact hc.1.2

/-- Drawing listed rows whose bytes are all in the memory. -/
theorem drawRows_ok (s : State) (x0 y0 : Byte) (rs : List Nat) (hn : rs.Nodup) (h16 : ∀ r ∈ rs, r < 16)
    (hm : ∀ r ∈ rs, s.i.toNat + r < memSize) (k : Canvas) :
    ∃ k', drawRows s x0 y0 rs k = (k', none) ∧
      (∀ x y, k'.display.cell x y = (k.display.cell x y ^^ rowsPixel s x0 y0 rs x y)) ∧
      (k'.hit = true ↔ k.hit = true ∨ ∃ x y, k.display.cell x y = true ∧ rowsPixel s x0 y0 rs x y = true) := by
  induction rs generalizing k with
  | nil => exact ⟨k, rfl, by simp [rowsPixel], by simp [rowsPixel]⟩
  | cons r rs ih =>
    obtain ⟨hnot, hn⟩ := List.nodup_cons.1 hn
    have hr16 := h16 r (by simp)
    obtain ⟨d1, d2⟩ := drawRow_spec x0 (spriteRow y0 r) (s.mem.byteAt (s.i.toNat + r)) k
    obtain ⟨k', e, i1, i2⟩ := ih hn (fun q hq => h16 q (List.mem_cons_of_mem _ hq))
      (fun q hq => hm q (List.mem_cons_of_mem _ hq))
      (drawRow x0 (spriteRow y0 r) (s.mem.byteAt (s.i.toNat + r)) k)
    have hdisj : ∀ x y, rowsPixel s x0 y0 rs x y = true →
        rowPixel x0 (spriteRow y0 r) (s.mem.byteAt (s.i.toNat + r)) (List.range 8) x y = false := by
      intro x y hp
      obtain ⟨q, hq, hq'⟩ := List.any_eq_true.1 hp
      by_contra hcon
      have h1 := rowPixel_row (by simpa using hcon)
      have h2 := rowPixel_row hq'
      exact hnot (spriteRow_inj hr16 (h16 q (List.mem_cons_of_mem _ hq)) (h1.trans h2.symm) ▸ hq)
    have hcons : ∀ x y, rowsPixel s x0 y0 (r :: rs) x y =
        (rowPixel x0 (spriteRow y0 r) (s.mem.byteAt (s.i.toNat + r)) (List.range 8) x y || rowsPixel s x0 y0 rs x y) :=
      fun x y => rfl
    refine ⟨k', ?_, fun x y => ?_, ?_⟩
    · simp only [drawRows, State.memRead_of_lt s (hm r (by simp))]
      exact e
    · rw [i1, d1, hcons, Bool.xor_assoc]
      congr 1
      cases hp : rowsPixel s x0 y0 rs x y with
      | false => simp
      | true => rw [hdisj x y hp]; rfl
    · rw [i2, d2, or_assoc]
      refine or_congr_right ?_
      constructor
      · rintro (⟨x, y, hc, hp⟩ | ⟨x, y, hc, hp⟩)
        · exact ⟨x, y, hc, by rw [hcons, hp]; rfl⟩
        · rw [d1, hdisj x y hp] at hc
          exact ⟨x, y, by simpa using hc, by rw [hcons, hp]; simp⟩
      · rintro ⟨x, y, hc, hp⟩
        rw [hcons, Bool.or_eq_true] at hp
        rcases hp with hp | hp
        · exact .inl ⟨x, y, hc, hp⟩
        · refine .inr ⟨x, y, ?_, hp⟩
          rw [d1, hdisj x y hp]
          simpa using hc

/-- Drawing rows of which some byte is out of range: the rows before it are drawn, and the fault is at the first address
at or above 4096. -/
theorem drawRows_append_fault (s : State) (x0 y0 : Byte) (rs : List Nat) (r : Nat) (qs : List Nat) (k k' : Canvas)
    (h : drawRows s x0 y0 rs k = (k', none)) (hr : memSize ≤ s.i.toNat + r) :
    drawRows s x0 y0 (rs ++ r :: qs) k = (k', some (.memFault (s.i.toNat + r))) := by
  induction rs generalizing k with
  | nil =>
    simp only [drawRows, Prod.mk.injEq, and_true] at h
    subst h
    simp [drawRows, State.memRead_of_ge s hr]
  | cons q rs ih =>
    simp only [List.cons_append, drawRows] at h ⊢
    split at h
    · simp at h
    · exact ih _ h

/-- The rows' pixels are the sprite's pixels of the statements. -/
theorem rowsPixel_eq (s : State) (x0 y0 : Byte) (n : Nat) (x : Fin 64) (y : Fin 32) :
    rowsPixel s x0 y0 (List.range n) x y = spritePixel s x0 y0 n x y := by
  have e : ∀ r c, decide (spriteColumn x0 c = x ∧ spriteRow y0 r = y) =
      (decide ((x0.toNat + c) % 64 = x.val) && decide ((y0.toNat + r) % 32 = y.val)) := by
    intro r c
    rw [← Bool.decide_and]
    congr 1
    simp [spriteColumn, spriteRow, Fin.ext_iff, Fin.ofNat]
  simp only [rowsPixel, rowPixel, spritePixel, e, spriteBit]

/-- Drawing reads the memory and I only. -/
theorem drawRows_congr {s t : State} (hm : t.mem = s.mem) (hi : t.i = s.i) (x0 y0 : Byte) (rs : List Nat) (k : Canvas) :
    drawRows t x0 y0 rs k = drawRows s x0 y0 rs k := by
  induction rs generalizing k with
  | nil => rfl
  | cons r rs ih => simp only [drawRows, State.memRead, hm, hi, ih]

end Sys2Proof.Machine
end

