-- ==== Sys2Proof/Laws/Exec.lean ====
section
/-! SUPPORT. For each handler with more than one way to end: all it can answer, so that no later proof unfolds it. The
other handlers are one named update of the state. -/

namespace Sys2Proof.Machine

/-- A register file put in place: how the lemmas write "registers only". -/
def State.setRegs (s : State) (w : Vector Byte 16) : State := { s with v := w }

@[simp] theorem State.setRegs_mem (s : State) (w : Vector Byte 16) : (s.setRegs w).mem = s.mem := rfl
@[simp] theorem State.setRegs_v (s : State) (w : Vector Byte 16) : (s.setRegs w).v = w := rfl
@[simp] theorem State.setRegs_i (s : State) (w : Vector Byte 16) : (s.setRegs w).i = s.i := rfl
@[simp] theorem State.setRegs_pc (s : State) (w : Vector Byte 16) : (s.setRegs w).pc = s.pc := rfl
@[simp] theorem State.setRegs_stack (s : State) (w : Vector Byte 16) : (s.setRegs w).stack = s.stack := rfl
@[simp] theorem State.setRegs_display (s : State) (w : Vector Byte 16) : (s.setRegs w).display = s.display := rfl
@[simp] theorem State.setRegs_dt (s : State) (w : Vector Byte 16) : (s.setRegs w).dt = s.dt := rfl
@[simp] theorem State.setRegs_st (s : State) (w : Vector Byte 16) : (s.setRegs w).st = s.st := rfl
@[simp] theorem State.setRegs_playing (s : State) (w : Vector Byte 16) : (s.setRegs w).playing = s.playing := rfl
@[simp] theorem State.setRegs_latch (s : State) (w : Vector Byte 16) : (s.setRegs w).latch = s.latch := rfl
@[simp] theorem State.setRegs_quirks (s : State) (w : Vector Byte 16) : (s.setRegs w).quirks = s.quirks := rfl
@[simp] theorem State.setRegs_params (s : State) (w : Vector Byte 16) : (s.setRegs w).params = s.params := rfl
@[simp] theorem State.setRegs_rate (s : State) (w : Vector Byte 16) : (s.setRegs w).rate = s.rate := rfl
@[simp] theorem State.setRegs_key (s : State) (w : Vector Byte 16) : (s.setRegs w).key = s.key := rfl
@[simp] theorem State.setRegs_pending (s : State) (w : Vector Byte 16) : (s.setRegs w).pending = s.pending := rfl
@[simp] theorem State.setRegs_result (s : State) (w : Vector Byte 16) : (s.setRegs w).result = s.result := rfl
@[simp] theorem State.setRegs_events (s : State) (w : Vector Byte 16) : (s.setRegs w).events = s.events := rfl
@[simp] theorem State.setRegs_faultRecord (s : State) (w : Vector Byte 16) : (s.setRegs w).faultRecord = s.faultRecord := rfl
@[simp] theorem State.setRegs_randomCount (s : State) (w : Vector Byte 16) : (s.setRegs w).randomCount = s.randomCount := rfl
@[simp] theorem State.setRegs_freeCount (s : State) (w : Vector Byte 16) : (s.setRegs w).freeCount = s.freeCount := rfl

/-- CALL (41_flow.md R123). -/
theorem exec_call_cases {nnn : Addr12} {s t : State} (h : exec (.call nnn) s = .next t) :
    (s.stack.length < stackCap ∧ t = (s.setStack (s.pc :: s.stack)).setPc (zextAddr nnn)) ∨
    (stackCap ≤ s.stack.length ∧ t = s.raise .callStackOverflow) := by
  simp only [exec, execCall, State.push] at h
  by_cases hl : s.stack.length < stackCap
  · rw [if_pos hl] at h; exact .inl ⟨hl, (Host.Outcome.next.inj h).symm⟩
  · rw [if_neg hl] at h; exact .inr ⟨Nat.not_lt.1 hl, (Host.Outcome.next.inj h).symm⟩

/-- RET (41_flow.md R121). -/
theorem exec_ret_cases {s t : State} (h : exec .ret s = .next t) :
    (∃ a l, s.stack = a :: l ∧ t = (s.setStack l).setPc a) ∨
    (s.stack = [] ∧ t = s.raise .callStackEmpty) := by
  simp only [exec, execRet, State.pop] at h
  cases hs : s.stack with
  | nil => rw [hs] at h; exact .inr ⟨rfl, (Host.Outcome.next.inj h).symm⟩
  | cons a l => rw [hs] at h; exact .inl ⟨a, l, rfl, (Host.Outcome.next.inj h).symm⟩

/-- SYS (41_flow.md R120). -/
theorem exec_sys_cases {nnn : Addr12} {s t : State} (h : exec (.sys nnn) s = .next t) :
    s.params.sysPolicy = .nop ∧ t = s := by
  simp only [exec, execSys] at h
  split at h
  · exact ⟨‹_›, (Host.Outcome.next.inj h).symm⟩
  · cases h

/-- A skip changes `pc` only (42_skip.md R140). -/
theorem State.skipIf_eq (s : State) (c : Bool) : s.skipIf c = s.setPc (if c = true then s.pc + 2 else s.pc) := by
  unfold State.skipIf
  split <;> rfl

/-- FX1E (44_index_memory.md R191) as updates of I and VF. -/
theorem exec_addI_eq (x : Reg) (s : State) :
    exec (.addI x) s = .next (if s.quirks.indexAddSetsVf = true then
      (s.setIndex (s.i + (s.reg x).setWidth 16)).setReg vf (indexOverflowFlag s.i (s.reg x))
      else s.setIndex (s.i + (s.reg x).setWidth 16)) := rfl

/-- FX18 (46_timer_key_random.md R234 to R236). -/
theorem exec_ldSTVx_cases (x : Reg) (s : State) :
    ((s.reg x ≠ 0 ∨ s.params.playOnZero = true) ∧
      exec (.ldSTVx x) s = .next (s.setST (s.st.set (s.reg x))).startSound) ∨
    (s.reg x = 0 ∧ s.params.playOnZero = false ∧
      exec (.ldSTVx x) s = .next (s.setST (s.st.set (s.reg x)))) := by
  simp only [exec, execLdSTVx]
  by_cases h : s.reg x ≠ 0 ∨ s.params.playOnZero = true
  · exact .inl ⟨h, congrArg _ (if_pos h)⟩
  · obtain ⟨h1, h2⟩ := not_or.1 h
    exact .inr ⟨not_not.1 h1, by simpa using h2, congrArg _ (if_neg h)⟩

/-- The result/flag write changes the registers only (43_alu.md R160). -/
theorem State.writeResultAndFlag_eq (s : State) (x y : Reg) (r : Byte → Byte → Byte) (f : Byte) :
    s.writeResultAndFlag x y r f = s.setRegs (s.writeResultAndFlag x y r f).v := by
  unfold State.writeResultAndFlag
  cases s.params.vfWriteOrder <;> rfl

/-- A store of bytes that is in range, or a fault at the first address out of range, with the bytes before it stored:
the three digits of FX33 (44_index_memory.md R194). -/
theorem exec_ldB_cases (x : Reg) (s : State) :
    (s.i.toNat + 3 ≤ memSize ∧
      exec (.ldB x) s = .next (s.setMem (s.mem.setBytes s.i.toNat (bcdDigits (s.reg x))))) ∨
    (memSize < s.i.toNat + 3 ∧ s.i.toNat < memSize ∧
      exec (.ldB x) s = .next (((s.storeFreely s.freeCount s.i.toNat 0 (bcdDigits (s.reg x))).countFree).raise
        (.memFault memSize))) ∨
    (memSize ≤ s.i.toNat ∧ exec (.ldB x) s = .next (s.raise (.memFault s.i.toNat))) := by
  have hlen : (bcdDigits (s.reg x)).length = 3 := rfl
  by_cases h1 : s.i.toNat + 3 ≤ memSize
  · refine .inl ⟨h1, ?_⟩
    simp only [exec, execLdB]
    rw [State.storeBytes_ok s _ _ (by rw [hlen]; exact h1)]
  · refine .inr ?_
    have e := State.storeBytes_raised s s.i.toNat (bcdDigits (s.reg x)) (by rw [hlen]; omega) (by simp [bcdDigits])
    by_cases h2 : s.i.toNat < memSize
    · refine .inl ⟨by omega, h2, ?_⟩
      simp only [exec, execLdB]
      rw [e]
      simp only [if_pos h2, show max s.i.toNat memSize = memSize by omega]
    · refine .inr ⟨Nat.not_lt.1 h2, ?_⟩
      simp only [exec, execLdB]
      rw [e]
      simp only [if_neg h2, show max s.i.toNat memSize = s.i.toNat by omega]

/-- FX55 (44_index_memory.md R195). -/
theorem exec_ldMemI_cases (x : Reg) (s : State) :
    (s.i.toNat + x.toNat + 1 ≤ memSize ∧
      exec (.ldMemI x) s = .next (
        let t := s.setMem (s.mem.setBytes s.i.toNat (s.regBytes (regsUpTo x)))
        if s.quirks.storeAdvancesI then t.setIndex (s.advancedIndex x) else t)) ∨
    (memSize < s.i.toNat + x.toNat + 1 ∧
      exec (.ldMemI x) s = .next ((s.setMem (s.mem.setBytes s.i.toNat
        ((s.regBytes (regsUpTo x)).take (memSize - s.i.toNat)))).raise (.memFault (max s.i.toNat memSize)))) := by
  have hx : x.toNat < 16 := x.isLt
  have hlen : (s.regBytes (regsUpTo x)).length = x.toNat + 1 := by simp [State.regBytes, regsUpTo]
  have e : s.storeRegs s.i.toNat (regsUpTo x) = s.storeBytes s.i.toNat (s.regBytes (regsUpTo x)) := by
    rw [regsUpTo_eq, State.storeRegs_eq s s.i.toNat 0 _ (by omega), Nat.add_zero]
  by_cases h : s.i.toNat + x.toNat + 1 ≤ memSize
  · refine .inl ⟨h, ?_⟩
    simp only [exec, execLdMemI]
    rw [e, State.storeBytes_ok s _ _ (by omega)]
  · refine .inr ⟨by omega, ?_⟩
    simp only [exec, execLdMemI]
    rw [e, State.storeBytes_raised s _ _ (by omega) (by intro hc; rw [hc] at hlen; simp at hlen)]

/-- FX65's state after `n` registers were loaded. -/
def State.loadFirst (s : State) (n : Nat) : State :=
  (List.range' 0 n).foldl (fun t j => t.setReg (BitVec.ofNat 4 j) (s.mem.byteAt (s.i.toNat + j))) s

theorem State.reg_loadFirst (s : State) {n : Nat} (h : n ≤ 16) (r : Reg) :
    (s.loadFirst n).reg r = if r.toNat < n then s.mem.byteAt (s.i.toNat + r.toNat) else s.reg r := by
  rw [State.loadFirst, State.reg_foldl_load s s.mem _ 0 n (by omega)]
  simp

theorem State.loadFirst_eq (s : State) (n : Nat) : s.loadFirst n = s.setRegs (s.loadFirst n).v := by
  obtain ⟨w, hw⟩ := State.foldl_load_eq s s.mem s.i.toNat (List.range' 0 n)
  unfold State.loadFirst
  rw [hw]
  rfl

/-- ALL THAT FREE DRAWING CAN DO (45_display.md R222): it gives the display and VF, each cell its old or its drawn value,
VF its old value or the collision. -/
theorem State.drawFreely_cases (s : State) (k : Canvas) :
    ∃ d b, s.drawFreely k = (s.setDisplay d).setReg vf b ∧
      (∀ x y, d.cell x y = s.display.cell x y ∨ d.cell x y = k.display.cell x y) ∧
      (b = s.reg vf ∨ b = flagByte k.hit) := by
  refine ⟨_, _, rfl, fun x y => ?_, ?_⟩
  · simp only [Display.cell_ofCells]
    split <;> simp
  · split <;> simp

/-- FX65 (44_index_memory.md R196). -/
theorem exec_ldVxMem_cases (x : Reg) (s : State) :
    (s.i.toNat + x.toNat + 1 ≤ memSize ∧
      exec (.ldVxMem x) s = .next (
        let t := s.loadFirst (x.toNat + 1)
        if s.quirks.loadAdvancesI then t.setIndex (s.advancedIndex x) else t)) ∨
    (memSize < s.i.toNat + x.toNat + 1 ∧
      exec (.ldVxMem x) s = .next ((s.loadFirst (memSize - s.i.toNat)).raise (.memFault (max s.i.toNat memSize)))) := by
  have hx : x.toNat < 16 := x.isLt
  have e := State.loadRegs_eq s s s.i.toNat 0 (x.toNat + 1) (by omega) rfl
  rw [← regsUpTo_eq, Nat.add_zero] at e
  by_cases h : s.i.toNat + x.toNat + 1 ≤ memSize
  · refine .inl ⟨h, ?_⟩
    rw [if_pos (by omega)] at e
    simp only [exec, execLdVxMem]
    rw [e, regsUpTo_eq]
    rfl
  · refine .inr ⟨by omega, ?_⟩
    rw [if_neg (by omega)] at e
    simp only [exec, execLdVxMem]
    rw [e]
    rfl

/-- DRW (45_display.md R221, R222): everything it can answer, with the canvas of the rows in range. -/
theorem exec_drw_cases (x y : Reg) (n : Nibble) (s : State) :
    ((n = 0#4 ∨ s.i.toNat + n.toNat ≤ memSize) ∧ ∃ k : Canvas,
      exec (.drw x y n) s = .next ((s.setDisplay k.display).setReg vf (flagByte k.hit)) ∧
      (∀ px py, k.display.cell px py = (s.display.cell px py ^^ spritePixel s (s.reg x) (s.reg y) n.toNat px py)) ∧
      (k.hit = true ↔ Collides s (s.reg x) (s.reg y) n.toNat)) ∨
    (n ≠ 0#4 ∧ memSize < s.i.toNat + n.toNat ∧ s.i.toNat < memSize ∧ ∃ k : Canvas,
      exec (.drw x y n) s = .next (((s.drawFreely k).countFree).raise (.memFault memSize)) ∧
      (∀ px py, k.display.cell px py =
        (s.display.cell px py ^^ spritePixel s (s.reg x) (s.reg y) (memSize - s.i.toNat) px py)) ∧
      (k.hit = true ↔ Collides s (s.reg x) (s.reg y) (memSize - s.i.toNat))) ∨
    (n ≠ 0#4 ∧ memSize ≤ s.i.toNat ∧ exec (.drw x y n) s = .next (s.raise (.memFault s.i.toNat))) := by
  have hn16 : n.toNat < 16 := n.isLt
  have spec : ∀ m, m ≤ n.toNat → s.i.toNat + m ≤ memSize ∨ m = 0 → ∃ k : Canvas,
      drawRows s (s.reg x) (s.reg y) (List.range m) ⟨s.display, false⟩ = (k, none) ∧
      (∀ px py, k.display.cell px py = (s.display.cell px py ^^ spritePixel s (s.reg x) (s.reg y) m px py)) ∧
      (k.hit = true ↔ Collides s (s.reg x) (s.reg y) m) := by
    intro m hm hfit
    obtain ⟨k, h1, h2, h3⟩ := drawRows_ok s (s.reg x) (s.reg y) (List.range m) List.nodup_range
      (fun r hr => by have := List.mem_range.1 hr; omega)
      (fun r hr => by have := List.mem_range.1 hr; omega) ⟨s.display, false⟩
    refine ⟨k, h1, fun px py => by rw [h2, rowsPixel_eq], ?_⟩
    rw [h3]
    simp only [rowsPixel_eq, Bool.false_eq_true, false_or, Collides]
  by_cases hok : n = 0#4 ∨ s.i.toNat + n.toNat ≤ memSize
  · refine .inl ⟨hok, ?_⟩
    obtain ⟨k, h1, h2, h3⟩ := spec n.toNat le_rfl (hok.symm.imp id fun h => by simp [h])
    exact ⟨k, by simp only [exec, execDrw]; rw [h1], h2, h3⟩
  · obtain ⟨hn, hbig⟩ := not_or.1 hok
    have hn0 : n.toNat ≠ 0 := fun e => hn (BitVec.eq_of_toNat_eq (by simpa using e))
    have split_at : ∀ m, m < n.toNat → ∃ qs, List.range n.toNat = List.range m ++ m :: qs := by
      intro m hm
      refine ⟨List.range' (m + 1) (n.toNat - m - 1), ?_⟩
      rw [List.range_eq_range', List.range_eq_range', show n.toNat = m + ((n.toNat - m - 1) + 1) by omega,
        ← List.range'_append_1, Nat.zero_add, List.range'_succ]
      congr 3
      omega
    by_cases hi : s.i.toNat < memSize
    · refine .inr (.inl ⟨hn, by omega, hi, ?_⟩)
      obtain ⟨k, h1, h2, h3⟩ := spec (memSize - s.i.toNat) (by omega) (by omega)
      obtain ⟨qs, hq⟩ := split_at (memSize - s.i.toNat) (by omega)
      refine ⟨k, ?_, h2, h3⟩
      have e := drawRows_append_fault s (s.reg x) (s.reg y) _ (memSize - s.i.toNat) qs _ k h1 (by omega)
      simp only [exec, execDrw]
      rw [hq, e]
      simp only [if_pos hi, show s.i.toNat + (memSize - s.i.toNat) = memSize by omega]
    · refine .inr (.inr ⟨hn, Nat.not_lt.1 hi, ?_⟩)
      obtain ⟨qs, hq⟩ := split_at 0 (by omega)
      have e := drawRows_append_fault s (s.reg x) (s.reg y) (List.range 0) 0 qs ⟨s.display, false⟩ ⟨s.display, false⟩
        rfl (by omega)
      simp only [exec, execDrw]
      rw [hq, e]
      simp only [if_neg hi, Nat.add_zero]

/-- EVERY INSTRUCTION ANSWERS A NEXT STATE, but SYS under `refuse` (41_flow.md R120). -/
theorem exec_next_or_sys (i : Instr) (s : State) :
    (∃ t, exec i s = .next t) ∨
    (exec i s = .refused .sysRefused ∧ s.params.sysPolicy = .refuse ∧ ∃ n, i = .sys n) := by
  cases i with
  | sys n =>
    simp only [exec, execSys]
    cases h : s.params.sysPolicy
    · exact .inl ⟨_, rfl⟩
    · exact .inr ⟨rfl, rfl, _, rfl⟩
  | ret => left; simp only [exec, execRet]; split <;> exact ⟨_, rfl⟩
  | call n => left; simp only [exec, execCall]; split <;> exact ⟨_, rfl⟩
  | drw x y n =>
    left
    rcases exec_drw_cases x y n s with ⟨_, k, h, _⟩ | ⟨_, _, _, k, h, _⟩ | ⟨_, _, h⟩ <;> exact ⟨_, h⟩
  | ldB x => left; rcases exec_ldB_cases x s with ⟨_, h⟩ | ⟨_, _, h⟩ | ⟨_, h⟩ <;> exact ⟨_, h⟩
  | ldMemI x => left; rcases exec_ldMemI_cases x s with ⟨_, h⟩ | ⟨_, h⟩ <;> exact ⟨_, h⟩
  | ldVxMem x => left; rcases exec_ldVxMem_cases x s with ⟨_, h⟩ | ⟨_, h⟩ <;> exact ⟨_, h⟩
  | _ => exact .inl ⟨_, rfl⟩

end Sys2Proof.Machine
end

