-- ==== Sys2Proof/Laws/Frame.lean ====
section
/-! SUPPORT. The frame of each named update, and how frames combine. -/

namespace Sys2Proof.Machine

/-- A frame may be stated with more pieces. -/
theorem OnlyChanges.mono {a b : Piece → Prop} {s t : State} (h : OnlyChanges a s t) (hab : ∀ p, a p → b p) :
    OnlyChanges b s t := fun p hp => h p fun ha => hp (hab p ha)

/-- Frames of two transitions after each other. -/
theorem OnlyChanges.trans {a b : Piece → Prop} {s t u : State} (h : OnlyChanges a s t) (h' : OnlyChanges b t u) :
    OnlyChanges (fun p => a p ∨ b p) s u := by
  intro p hp
  obtain ⟨ha, hb⟩ := not_or.1 hp
  have h1 := h p ha
  have h2 := h' p hb
  cases p <;> simp only [Piece.same] at h1 h2 ⊢ <;> exact h2.trans h1

theorem OnlyChanges.refl (a : Piece → Prop) (s : State) : OnlyChanges a s s := by
  intro p _
  cases p <;> rfl

/-- A write to one register. -/
theorem onlyChanges_setReg (s : State) (x : Reg) (b : Byte) : OnlyChanges (these [.reg x]) s (s.setReg x b) := by
  intro p hp
  cases p <;> first | rfl | skip
  rename_i r
  exact State.reg_setReg_of_ne s b fun e => hp (by simp [these, e])

theorem onlyChanges_setPc (s : State) (a : Word) : OnlyChanges (these [.pc]) s (s.setPc a) := by
  intro p hp
  cases p <;> first | rfl | exact absurd (by simp [these]) hp

theorem onlyChanges_setIndex (s : State) (a : Word) : OnlyChanges (these [.index]) s (s.setIndex a) := by
  intro p hp
  cases p <;> first | rfl | exact absurd (by simp [these]) hp

theorem onlyChanges_setStack (s : State) (l : List Word) : OnlyChanges (these [.stack]) s (s.setStack l) := by
  intro p hp
  cases p <;> first | rfl | exact absurd (by simp [these]) hp

theorem onlyChanges_setDT (s : State) (t : Timer) : OnlyChanges (these [.dt]) s (s.setDT t) := by
  intro p hp
  cases p <;> first | rfl | exact absurd (by simp [these]) hp

theorem onlyChanges_setST (s : State) (t : Timer) : OnlyChanges (these [.st]) s (s.setST t) := by
  intro p hp
  cases p <;> first | rfl | exact absurd (by simp [these]) hp

theorem onlyChanges_setLatch (s : State) (l : Option Reg) : OnlyChanges (these [.latch]) s (s.setLatch l) := by
  intro p hp
  cases p <;> first | rfl | exact absurd (by simp [these]) hp

theorem onlyChanges_setResult (s : State) (r : Option StepResult) :
    OnlyChanges (these [.result]) s (s.setResult r) := by
  intro p hp
  cases p <;> first | rfl | exact absurd (by simp [these]) hp

theorem onlyChanges_startSound (s : State) : OnlyChanges (these [.playing, .events]) s s.startSound := by
  intro p hp
  cases p <;> first | rfl | exact absurd (by simp [these]) hp

theorem onlyChanges_countRandom (s : State) : OnlyChanges (these [.randomCount]) s s.countRandom := by
  intro p hp
  cases p <;> first | rfl | exact absurd (by simp [these]) hp

theorem onlyChanges_countFree (s : State) : OnlyChanges (these [.freeCount]) s s.countFree := by
  intro p hp
  cases p <;> first | rfl | exact absurd (by simp [these]) hp

theorem onlyChanges_setDisplay (s : State) (d : Display) : OnlyChanges anyCell s (s.setDisplay d) := by
  intro p hp
  cases p <;> first | rfl | exact absurd ⟨_, _, rfl⟩ hp

/-- One byte of memory. -/
theorem onlyChanges_setByte (s : State) (a : Nat) (b : Byte) :
    OnlyChanges (these [.mem a]) s (s.setMem (s.mem.setByte a b)) := by
  intro p hp
  cases p <;> first | rfl | skip
  exact Memory.byteAt_setByte_of_ne s.mem b fun e => hp (by simp [these, e])

/-- Bytes at rising addresses. -/
theorem onlyChanges_setBytes (s : State) (a : Nat) (bs : List Byte) :
    OnlyChanges (bytesFrom a bs.length) s (s.setMem (s.mem.setBytes a bs)) := by
  intro p hp
  cases p <;> first | rfl | skip
  rename_i c
  simp only [Piece.same, State.setMem_mem, Memory.byteAt_setBytes]
  rw [if_neg]
  rintro ⟨h1, h2⟩
  exact hp ⟨c - a, by omega, by congr; omega⟩

/-- Taking a fault (60_exceptions.md R301): a frame of what came before it is kept. -/
theorem TakesFault.of_raise {a : Piece → Prop} {s t : State} (f : Fault) (h : OnlyChanges a s t)
    (hr : t.faultRecord = s.faultRecord) : TakesFault f a s (t.raise f) := by
  refine ⟨rfl, by simp [hr], fun p hp => ?_⟩
  simp only [not_or] at hp
  have h1 := h p hp.1
  cases p <;> simp only [Piece.same] at h1 ⊢ <;> first | exact h1 | exact absurd rfl hp.2.1 | exact absurd rfl hp.2.2

/-- A skip (42_skip.md R140). -/
theorem onlyChanges_skipIf (s : State) (c : Bool) : OnlyChanges (these [.pc]) s (s.skipIf c) := by
  unfold State.skipIf
  split
  · exact onlyChanges_setPc s _
  · exact OnlyChanges.refl _ s

theorem State.skipIf_pc (s : State) (c : Bool) : (s.skipIf c).pc = if c = true then s.pc + 2 else s.pc := by
  unfold State.skipIf
  split <;> rfl

/-- The start of a step (40_execution_cycle.md R101, R102). -/
theorem onlyChanges_ticked (s : State) (rate : Nat) : OnlyChanges (these stepPieces) s (s.ticked rate) := by
  intro p hp
  cases p <;> simp only [Piece.same, State.ticked_mem, State.reg_ticked, State.ticked_i, State.ticked_pc,
    State.ticked_stack, State.ticked_display, State.ticked_latch, State.ticked_quirks, State.ticked_params,
    State.ticked_faultRecord, State.ticked_randomCount, State.ticked_freeCount] <;>
    exact absurd (by simp [these, stepPieces]) hp

/-- The state from which a decoded instruction runs (40_execution_cycle.md R105). -/
theorem onlyChanges_started (s : State) (rate : Nat) (i : Instr) :
    OnlyChanges (these (.pc :: stepPieces)) s (s.started rate i) :=
  (((onlyChanges_ticked s rate).trans (onlyChanges_setPc _ _)).trans (onlyChanges_setResult _ _)).mono (by
    rintro p ((h | h) | h)
    · exact List.mem_cons_of_mem _ h
    · simp [these] at h; simp [these, h]
    · simp [these] at h; simp [these, h, stepPieces])

/-- The result/flag write (43_alu.md R160) as the statements' predicate. -/
theorem writesResultAndFlag (s : State) (x y : Reg) (r : Byte → Byte → Byte) (f : Byte) :
    WritesResultAndFlag s (s.writeResultAndFlag x y r f) x y r f := by
  refine ⟨fun p hp => ?_, ?_⟩
  · cases p <;> try (rw [State.writeResultAndFlag_eq]; rfl)
    rename_i z
    have h1 : z ≠ x := fun e => hp (by simp [these, e])
    have h2 : z ≠ vf := fun e => hp (by simp [these, e])
    simp only [Piece.same, State.reg_writeResultAndFlag]
    split <;> simp [h1, h2]
  · cases h : s.params.vfWriteOrder <;> simp only [State.reg_writeResultAndFlag, h]
    · exact ⟨by simp, fun hx => by simp [hx]⟩
    · exact ⟨by simp, fun hx => by simp [Ne.symm hx]⟩
    · exact ⟨by simp, fun hx => by simp [Ne.symm hx]⟩

/-- The invariant reads seven fields only. -/
theorem State.Inv.congr {s t : State} (h : s.Inv) (hm : t.mem = s.mem) (hs : t.stack = s.stack) (hp : t.pc = s.pc)
    (hd : t.dt = s.dt) (ht : t.st = s.st) (hr : t.result = s.result) (hf : t.faultRecord = s.faultRecord) : t.Inv := by
  unfold State.Inv State.FaultRecorded
  rw [hm, hs, hp, hd, ht, hr, hf]
  exact h

/-- Taking a fault keeps the invariant. -/
theorem State.Inv.raise {s : State} (h : s.Inv) (f : Fault) : (s.raise f).Inv :=
  ⟨h.1, h.2.1, h.2.2.1, h.2.2.2.1, h.2.2.2.2.1, h.2.2.2.2.2.1, fun g _ => by simp⟩

end Sys2Proof.Machine
end

