-- ==== Sys2Proof/Laws/Operands.lean ====
section
/-! SUPPORT. What each operand form and each flag computes, as numbers (41_flow.md to 44_index_memory.md). -/

namespace Sys2Proof.Machine

/-- A 12-bit address as a number (30_encoding.md R73). -/
theorem zextAddr_toNat (nnn : Addr12) : (zextAddr nnn).toNat = nnn.toNat := by
  have := nnn.isLt
  simp only [zextAddr, BitVec.toNat_setWidth]
  omega

/-- BNNN's target is the exact sum (41_flow.md R124). -/
theorem State.offsetTarget_toNat (s : State) (nnn : Addr12) :
    (s.offsetTarget nnn).toNat = nnn.toNat + (s.reg 0).toNat := by
  have h1 := nnn.isLt
  have h2 := (s.reg 0).isLt
  simp only [State.offsetTarget, BitVec.toNat_add, zextAddr_toNat, BitVec.toNat_setWidth]
  omega

/-- Pressed: the current key is the number in the register (42_skip.md R145). -/
theorem State.keyPressed_iff (s : State) (b : Byte) :
    s.keyPressed b = true ↔ ∃ k, s.key = some k ∧ k.toNat = b.toNat := by
  unfold State.keyPressed
  split
  · rename_i k h
    have := k.isLt
    simp only [h, beq_iff_eq, ← BitVec.toNat_inj, BitVec.toNat_setWidth, Option.some.injEq]
    rw [Nat.mod_eq_of_lt (by omega)]
    exact ⟨fun e => ⟨k, rfl, e⟩, fun ⟨_, e1, e2⟩ => e1.trans e2⟩
  · rename_i h
    simp [h]

/-- The carry flag (43_alu.md R167). -/
theorem carryFlag_eq (x y : Byte) : carryFlag x y = if x.toNat + y.toNat > 255 then 1#8 else 0#8 := by
  simp [carryFlag, flagByte]

/-- The not-borrow flag (43_alu.md R168). -/
theorem notBorrowFlag_eq (a b : Byte) : notBorrowFlag a b = if a.toNat < b.toNat then 0#8 else 1#8 := by
  unfold notBorrowFlag flagByte
  by_cases h : a.toNat < b.toNat <;> simp [h]

/-- The bit that a right shift moves out (43_alu.md R169). -/
theorem lowBitFlag_toNat (v : Byte) : (lowBitFlag v).toNat = v.toNat % 2 := by
  simp [lowBitFlag]

/-- The bit that a left shift moves out (43_alu.md R171). -/
theorem highBitFlag_toNat (v : Byte) : (highBitFlag v).toNat = v.toNat / 128 := by
  have := v.isLt
  simp only [highBitFlag, BitVec.toNat_and, BitVec.toNat_ushiftRight, Nat.shiftRight_eq_div_pow, BitVec.toNat_ofNat]
  simp
  omega

/-- A wrapped difference (43_alu.md R168). -/
theorem sub_eq_ofInt (a b : Byte) : a - b = BitVec.ofInt 8 ((a.toNat : Int) - b.toNat) := by
  apply BitVec.eq_of_toInt_eq
  rw [BitVec.toInt_sub, BitVec.toInt_ofInt]
  simp [BitVec.toInt_eq_toNat_bmod]

/-- The glyph address of a code of at most 15 (44_index_memory.md R193). -/
theorem glyphAddress_of_le (p : FontCodePolicy) {c : Byte} (h : c.toNat ≤ 15) :
    (glyphAddress p c).toNat = c.toNat * 5 := by
  simp only [glyphAddress, h, if_true, BitVec.toNat_ofNat]
  omega

/-- The glyph address of a greater code, by the policy (44_index_memory.md R193). -/
theorem glyphAddress_of_gt (p : FontCodePolicy) {c : Byte} (h : 15 < c.toNat) :
    (glyphAddress p c).toNat = match p with
      | .maskLowNibble => c.toNat % 16 * 5
      | .unmasked => c.toNat * 5 := by
  have hc := c.isLt
  have e : (c &&& 0xF#8).toNat = c.toNat % 16 := by
    rw [BitVec.toNat_and]
    exact Nat.and_two_pow_sub_one_eq_mod _ 4
  unfold glyphAddress
  rw [if_neg (by omega)]
  cases p
  · simp only [e, BitVec.toNat_ofNat]
    omega
  · simp only [BitVec.toNat_ofNat]
    omega

theorem bcdDigits_length (v : Byte) : (bcdDigits v).length = 3 := rfl

end Sys2Proof.Machine
end

