-- ==== Sys2Proof/Laws/PerInstr.lean ====
section
/-! SUPPORT. Per instruction: the encoded word against the opcode table's fixed bits. -/

namespace Sys2Proof.Laws.EncodeMatchesTable

open Sys2Proof

/-- The row of spec/opcode_table.json for an instruction: its mask, and the value of the masked bits. -/
def row : Instr → Word × Word
  | .sys _ => (0xF000#16, 0x0000#16)
  | .cls => (0xFFFF#16, 0x00E0#16)
  | .ret => (0xFFFF#16, 0x00EE#16)
  | .jp _ => (0xF000#16, 0x1000#16)
  | .call _ => (0xF000#16, 0x2000#16)
  | .seImm _ _ => (0xF000#16, 0x3000#16)
  | .sneImm _ _ => (0xF000#16, 0x4000#16)
  | .seReg _ _ => (0xF00F#16, 0x5000#16)
  | .ldImm _ _ => (0xF000#16, 0x6000#16)
  | .addImm _ _ => (0xF000#16, 0x7000#16)
  | .ldReg _ _ => (0xF00F#16, 0x8000#16)
  | .orReg _ _ => (0xF00F#16, 0x8001#16)
  | .andReg _ _ => (0xF00F#16, 0x8002#16)
  | .xorReg _ _ => (0xF00F#16, 0x8003#16)
  | .addReg _ _ => (0xF00F#16, 0x8004#16)
  | .subReg _ _ => (0xF00F#16, 0x8005#16)
  | .shr _ _ => (0xF00F#16, 0x8006#16)
  | .subn _ _ => (0xF00F#16, 0x8007#16)
  | .shl _ _ => (0xF00F#16, 0x800E#16)
  | .sneReg _ _ => (0xF00F#16, 0x9000#16)
  | .ldI _ => (0xF000#16, 0xA000#16)
  | .jpV0 _ => (0xF000#16, 0xB000#16)
  | .rnd _ _ => (0xF000#16, 0xC000#16)
  | .drw _ _ _ => (0xF000#16, 0xD000#16)
  | .skp _ => (0xF0FF#16, 0xE09E#16)
  | .sknp _ => (0xF0FF#16, 0xE0A1#16)
  | .ldVxDT _ => (0xF0FF#16, 0xF007#16)
  | .ldVxK _ => (0xF0FF#16, 0xF00A#16)
  | .ldDTVx _ => (0xF0FF#16, 0xF015#16)
  | .ldSTVx _ => (0xF0FF#16, 0xF018#16)
  | .addI _ => (0xF0FF#16, 0xF01E#16)
  | .ldF _ => (0xF0FF#16, 0xF029#16)
  | .ldB _ => (0xF0FF#16, 0xF033#16)
  | .ldMemI _ => (0xF0FF#16, 0xF055#16)
  | .ldVxMem _ => (0xF0FF#16, 0xF065#16)

/-- The bits of the encoded word that the opcode table fixes have the table's values. -/
def Statement (i : Instr) : Prop := encode i &&& (row i).1 = (row i).2

/-- Masking two fields put side by side is masking each. -/
theorem append_and {v w : Nat} (a c : BitVec v) (b d : BitVec w) : (a ++ b) &&& (c ++ d) = (a &&& c) ++ (b &&& d) := by
  apply BitVec.eq_of_getLsbD_eq
  intro k hk
  simp only [BitVec.getLsbD_and, BitVec.getLsbD_append]
  split <;> rfl

theorem packNNN_prefix (p : BitVec 4) (nnn : Addr12) : packNNN p nnn &&& 0xF000#16 = p ++ 0x000#12 := by
  show (p ++ nnn) &&& (BitVec.allOnes 4 ++ 0#12) = _
  rw [append_and, BitVec.and_allOnes, BitVec.and_zero]

theorem packXNN_prefix (p : BitVec 4) (x : Reg) (nn : Byte) : packXNN p x nn &&& 0xF000#16 = p ++ 0x000#12 :=
  packNNN_prefix p (x ++ nn)

theorem packXNN_last (p : BitVec 4) (x : Reg) (nn : Byte) :
    packXNN p x nn &&& 0xF0FF#16 = packXNN p 0#4 nn := by
  show (p ++ (x ++ nn : BitVec 12)) &&& (BitVec.allOnes 4 ++ (0#4 ++ BitVec.allOnes 8 : BitVec 12)) = p ++ (0#4 ++ nn)
  rw [append_and, append_and, BitVec.and_allOnes, BitVec.and_allOnes, BitVec.and_zero]

theorem packXYN_prefix (p : BitVec 4) (x y : Reg) (n : Nibble) : packXYN p x y n &&& 0xF000#16 = p ++ 0x000#12 :=
  packXNN_prefix p x (y ++ n)

theorem packXYN_last (p : BitVec 4) (x y : Reg) (n : Nibble) :
    packXYN p x y n &&& 0xF00F#16 = packXYN p 0#4 0#4 n := by
  show (p ++ (x ++ (y ++ n : Byte) : BitVec 12)) &&&
    (BitVec.allOnes 4 ++ (0#4 ++ (0#4 ++ BitVec.allOnes 4 : Byte) : BitVec 12)) = p ++ (0#4 ++ (0#4 ++ n))
  rw [append_and, append_and, append_and, BitVec.and_allOnes, BitVec.and_allOnes, BitVec.and_zero, BitVec.and_zero]

theorem sys (nnn : Addr12) : Statement (.sys nnn) := packNNN_prefix _ nnn
theorem cls : Statement (.cls) := rfl
theorem ret : Statement (.ret) := rfl
theorem jp (nnn : Addr12) : Statement (.jp nnn) := packNNN_prefix _ nnn
theorem call (nnn : Addr12) : Statement (.call nnn) := packNNN_prefix _ nnn
theorem seImm (x : Reg) (nn : Byte) : Statement (.seImm x nn) := packXNN_prefix _ x nn
theorem sneImm (x : Reg) (nn : Byte) : Statement (.sneImm x nn) := packXNN_prefix _ x nn
theorem seReg (x : Reg) (y : Reg) : Statement (.seReg x y) := packXYN_last _ x y _
theorem ldImm (x : Reg) (nn : Byte) : Statement (.ldImm x nn) := packXNN_prefix _ x nn
theorem addImm (x : Reg) (nn : Byte) : Statement (.addImm x nn) := packXNN_prefix _ x nn
theorem ldReg (x : Reg) (y : Reg) : Statement (.ldReg x y) := packXYN_last _ x y _
theorem orReg (x : Reg) (y : Reg) : Statement (.orReg x y) := packXYN_last _ x y _
theorem andReg (x : Reg) (y : Reg) : Statement (.andReg x y) := packXYN_last _ x y _
theorem xorReg (x : Reg) (y : Reg) : Statement (.xorReg x y) := packXYN_last _ x y _
theorem addReg (x : Reg) (y : Reg) : Statement (.addReg x y) := packXYN_last _ x y _
theorem subReg (x : Reg) (y : Reg) : Statement (.subReg x y) := packXYN_last _ x y _
theorem shr (x : Reg) (y : Reg) : Statement (.shr x y) := packXYN_last _ x y _
theorem subn (x : Reg) (y : Reg) : Statement (.subn x y) := packXYN_last _ x y _
theorem shl (x : Reg) (y : Reg) : Statement (.shl x y) := packXYN_last _ x y _
theorem sneReg (x : Reg) (y : Reg) : Statement (.sneReg x y) := packXYN_last _ x y _
theorem ldI (nnn : Addr12) : Statement (.ldI nnn) := packNNN_prefix _ nnn
theorem jpV0 (nnn : Addr12) : Statement (.jpV0 nnn) := packNNN_prefix _ nnn
theorem rnd (x : Reg) (nn : Byte) : Statement (.rnd x nn) := packXNN_prefix _ x nn
theorem drw (x : Reg) (y : Reg) (n : Nibble) : Statement (.drw x y n) := packXYN_prefix _ x y n
theorem skp (x : Reg) : Statement (.skp x) := packXNN_last _ x _
theorem sknp (x : Reg) : Statement (.sknp x) := packXNN_last _ x _
theorem ldVxDT (x : Reg) : Statement (.ldVxDT x) := packXNN_last _ x _
theorem ldVxK (x : Reg) : Statement (.ldVxK x) := packXNN_last _ x _
theorem ldDTVx (x : Reg) : Statement (.ldDTVx x) := packXNN_last _ x _
theorem ldSTVx (x : Reg) : Statement (.ldSTVx x) := packXNN_last _ x _
theorem addI (x : Reg) : Statement (.addI x) := packXNN_last _ x _
theorem ldF (x : Reg) : Statement (.ldF x) := packXNN_last _ x _
theorem ldB (x : Reg) : Statement (.ldB x) := packXNN_last _ x _
theorem ldMemI (x : Reg) : Statement (.ldMemI x) := packXNN_last _ x _
theorem ldVxMem (x : Reg) : Statement (.ldVxMem x) := packXNN_last _ x _

end Sys2Proof.Laws.EncodeMatchesTable
end

