-- ==== Sys2Proof/Laws/Starts.lean ====
section
/-! SUPPORT. `State.eraseStarts` goes through every named update, so that a claim about what never reads a timer's
`start` (10_state.md R35) needs no update unfolded. -/

namespace Sys2Proof.Machine

/-- A timer with `start` 0. -/
def Timer.eraseStart (t : Timer) : Timer := { t with start := 0 }

@[simp] theorem State.eraseStarts_mem (s : State) : s.eraseStarts.mem = s.mem := rfl
@[simp] theorem State.eraseStarts_v (s : State) : s.eraseStarts.v = s.v := rfl
@[simp] theorem State.eraseStarts_i (s : State) : s.eraseStarts.i = s.i := rfl
@[simp] theorem State.eraseStarts_pc (s : State) : s.eraseStarts.pc = s.pc := rfl
@[simp] theorem State.eraseStarts_stack (s : State) : s.eraseStarts.stack = s.stack := rfl
@[simp] theorem State.eraseStarts_display (s : State) : s.eraseStarts.display = s.display := rfl
@[simp] theorem State.eraseStarts_dt (s : State) : s.eraseStarts.dt = s.dt.eraseStart := rfl
@[simp] theorem State.eraseStarts_st (s : State) : s.eraseStarts.st = s.st.eraseStart := rfl
@[simp] theorem State.eraseStarts_playing (s : State) : s.eraseStarts.playing = s.playing := rfl
@[simp] theorem State.eraseStarts_latch (s : State) : s.eraseStarts.latch = s.latch := rfl
@[simp] theorem State.eraseStarts_quirks (s : State) : s.eraseStarts.quirks = s.quirks := rfl
@[simp] theorem State.eraseStarts_params (s : State) : s.eraseStarts.params = s.params := rfl
@[simp] theorem State.eraseStarts_rate (s : State) : s.eraseStarts.rate = s.rate := rfl
@[simp] theorem State.eraseStarts_key (s : State) : s.eraseStarts.key = s.key := rfl
@[simp] theorem State.eraseStarts_pending (s : State) : s.eraseStarts.pending = s.pending := rfl
@[simp] theorem State.eraseStarts_result (s : State) : s.eraseStarts.result = s.result := rfl
@[simp] theorem State.eraseStarts_events (s : State) : s.eraseStarts.events = s.events := rfl
@[simp] theorem State.eraseStarts_faultRecord (s : State) : s.eraseStarts.faultRecord = s.faultRecord := rfl
@[simp] theorem State.eraseStarts_randomCount (s : State) : s.eraseStarts.randomCount = s.randomCount := rfl
@[simp] theorem State.eraseStarts_freeCount (s : State) : s.eraseStarts.freeCount = s.freeCount := rfl
@[simp] theorem State.reg_eraseStarts (s : State) (r : Reg) : s.eraseStarts.reg r = s.reg r := rfl
@[simp] theorem State.eraseStarts_eraseStarts (s : State) : s.eraseStarts.eraseStarts = s.eraseStarts := rfl
@[simp] theorem Timer.eraseStart_current (t : Timer) : t.eraseStart.current = t.current := rfl

@[simp] theorem State.eraseStarts_setMem (s : State) (m : Memory) :
    (s.setMem m).eraseStarts = s.eraseStarts.setMem m := rfl
@[simp] theorem State.eraseStarts_setIndex (s : State) (a : Word) :
    (s.setIndex a).eraseStarts = s.eraseStarts.setIndex a := rfl
@[simp] theorem State.eraseStarts_setPc (s : State) (a : Word) :
    (s.setPc a).eraseStarts = s.eraseStarts.setPc a := rfl
@[simp] theorem State.eraseStarts_setStack (s : State) (l : List Word) :
    (s.setStack l).eraseStarts = s.eraseStarts.setStack l := rfl
@[simp] theorem State.eraseStarts_setDisplay (s : State) (d : Display) :
    (s.setDisplay d).eraseStarts = s.eraseStarts.setDisplay d := rfl
@[simp] theorem State.eraseStarts_setDT (s : State) (t : Timer) :
    (s.setDT t).eraseStarts = s.eraseStarts.setDT t.eraseStart := rfl
@[simp] theorem State.eraseStarts_setST (s : State) (t : Timer) :
    (s.setST t).eraseStarts = s.eraseStarts.setST t.eraseStart := rfl
@[simp] theorem State.eraseStarts_setPlaying (s : State) (b : Bool) :
    (s.setPlaying b).eraseStarts = s.eraseStarts.setPlaying b := rfl
@[simp] theorem State.eraseStarts_setLatch (s : State) (l : Option Reg) :
    (s.setLatch l).eraseStarts = s.eraseStarts.setLatch l := rfl
@[simp] theorem State.eraseStarts_setResult (s : State) (r : Option StepResult) :
    (s.setResult r).eraseStarts = s.eraseStarts.setResult r := rfl
@[simp] theorem State.eraseStarts_emit (s : State) (e : SoundEvent) :
    (s.emit e).eraseStarts = s.eraseStarts.emit e := rfl
@[simp] theorem State.eraseStarts_countRandom (s : State) :
    (s.countRandom).eraseStarts = s.eraseStarts.countRandom := rfl
@[simp] theorem State.eraseStarts_countFree (s : State) :
    (s.countFree).eraseStarts = s.eraseStarts.countFree := rfl
@[simp] theorem State.eraseStarts_raise (s : State) (f : Fault) :
    (s.raise f).eraseStarts = s.eraseStarts.raise f := rfl
@[simp] theorem State.eraseStarts_setReg (s : State) (x : Reg) (b : Byte) :
    (s.setReg x b).eraseStarts = s.eraseStarts.setReg x b := rfl
@[simp] theorem State.eraseStarts_setRegs (s : State) (w : Vector Byte 16) :
    (s.setRegs w).eraseStarts = s.eraseStarts.setRegs w := rfl

/-- A tick does not read `start` (60_exceptions.md R322). -/
theorem Timer.drain_eraseStart (n : Nat) (t : Timer) : Timer.drain n t.eraseStart = (Timer.drain n t).eraseStart := by
  induction n generalizing t with
  | zero => rfl
  | succ n ih =>
    show (if t.acc.geOne = true then Timer.drain n t.decrement.eraseStart else t.eraseStart) =
      (if t.acc.geOne = true then Timer.drain n t.decrement else t).eraseStart
    split
    · exact ih _
    · rfl

@[simp] theorem Timer.tick_eraseStart (t : Timer) (p : SubratePolicy) (rate : Nat) :
    Timer.tick p t.eraseStart rate = (Timer.tick p t rate).eraseStart := by
  unfold Timer.tick
  split
  · exact Timer.drain_eraseStart _ (t.progress rate)
  · show (if (t.progress rate).acc.geOne = true then (t.progress rate).decrement.eraseStart
      else (t.progress rate).eraseStart) =
      (if (t.progress rate).acc.geOne = true then (t.progress rate).decrement else t.progress rate).eraseStart
    split <;> rfl

@[simp] theorem State.takeInput_eraseStarts (s : State) : s.eraseStarts.takeInput = s.takeInput.eraseStarts := by
  unfold State.takeInput
  simp only [State.eraseStarts_pending]
  split <;> rfl

@[simp] theorem State.soundStopCheck_eraseStarts (s : State) :
    s.eraseStarts.soundStopCheck = s.soundStopCheck.eraseStarts := by
  show (if (s.playing && s.st.current == 0) = true then (s.eraseStarts.emit .pause).setPlaying false else s.eraseStarts) =
    (if (s.playing && s.st.current == 0) = true then (s.emit .pause).setPlaying false else s).eraseStarts
  split <;> rfl

/-- The start of a step does not read `start` (40_execution_cycle.md R102). -/
@[simp] theorem State.ticked_eraseStarts (s : State) (rate : Nat) :
    s.eraseStarts.ticked rate = (s.ticked rate).eraseStarts := by
  unfold State.ticked State.tickPhase State.beginStep
  rw [← State.soundStopCheck_eraseStarts, State.takeInput_eraseStarts]
  simp only [State.eraseStarts_setST, State.eraseStarts_setDT]
  congr 2
  · exact congrArg _ (Timer.tick_eraseStart _ _ _)
  · exact Timer.tick_eraseStart _ _ _

/-! ## The shared operations -/

theorem State.eraseStarts_skipIf (s : State) (c : Bool) : (s.skipIf c).eraseStarts = s.eraseStarts.skipIf c := by
  simp [State.skipIf_eq]

theorem State.eraseStarts_writeResultAndFlag (s : State) (x y : Reg) (r : Byte → Byte → Byte) (f : Byte) :
    (s.writeResultAndFlag x y r f).eraseStarts = s.eraseStarts.writeResultAndFlag x y r f := by
  unfold State.writeResultAndFlag
  rw [State.eraseStarts_params]
  split <;> rfl

theorem State.eraseStarts_storeFreely (s : State) (e a slot : Nat) (bs : List Byte) :
    (s.storeFreely e a slot bs).eraseStarts = s.eraseStarts.storeFreely e a slot bs := by
  rw [State.storeFreely_eq, State.storeFreely_eq s.eraseStarts, State.eraseStarts_setMem,
    State.storeFreely_mem_congr (s := s) (t := s.eraseStarts) rfl]

theorem State.eraseStarts_loadFirst (s : State) (n : Nat) : (s.loadFirst n).eraseStarts = s.eraseStarts.loadFirst n := by
  have h : ∀ (ks : List Nat) (m : Memory) (a : Nat) (u : State),
      (ks.foldl (fun t j => t.setReg (BitVec.ofNat 4 j) (m.byteAt (a + j))) u).eraseStarts =
        ks.foldl (fun t j => t.setReg (BitVec.ofNat 4 j) (m.byteAt (a + j))) u.eraseStarts := by
    intro ks m a
    induction ks with
    | nil => exact fun _ => rfl
    | cons k ks ih => exact fun u => ih _
  exact h _ _ _ _

end Sys2Proof.Machine
end

