-- ==== Sys2Proof/Tests/Slice0.lean ====
section
/-! SUPPORT. The model's own tests, each a named theorem about one step with its expected result from
spec/95_test_vectors.md (its entry in the docstring), and one named witness for the hypotheses of every statement. -/

namespace Sys2Proof.Tests

open Sys2Proof Sys2Proof.Machine

/-! ## Helpers -/

/-- The step gives a next state of which `p` holds. -/
def after (s : State) (p : State → Bool) : Bool :=
  match step s with
  | .next t => p t
  | _ => false

/-- The instruction gives a next state of which `p` holds. -/
def afterExec (i : Instr) (s : State) (p : State → Bool) : Bool :=
  match exec i s with
  | .next t => p t
  | _ => false

/-- The step is refused for this reason. -/
def isRefused (s : State) (r : Refusal) : Bool :=
  match step s with
  | .refused r' => r' == r
  | _ => false

/-- The reset state with an instruction word at 0x200. -/
def at200 (w : Nat) : State := State.reset.withFetchWord 16 w

/-- A call stack of `n` entries 0x202. -/
def stackOf (n : Nat) : List Word := List.replicate n 0x202

/-- The reset state under other quirks. -/
def withQuirks (q : Quirks) (s : State) : State := { s with quirks := q }

/-- The reset state under other open parameters. -/
def withParams (p : Params) (s : State) : State := { s with params := p }

/-- Every quirk on. -/
def quirksOn : Quirks := ⟨true, true, true, true, true⟩

/-- The driver's inputs for the next step. -/
def withInput (rate : TickRate) (key : Option Key) (s : State) : State := s.withDriver [⟨rate, key⟩]

/-- A timer with nothing accumulated. -/
def timerOf (start current : Byte) : Timer := ⟨start, current, ⟨0, 1⟩⟩

/-! ## WellFormed: the one check, and the terms it refuses (30_encoding.md R75) -/

/-- 00E0 is CLS, so SYS 0E0 is no instruction. -/
theorem test_wellFormed_refuses_sys_0E0 : (Instr.sys 0x0E0#12).wellFormed = false := by decide

/-- 00EE is RET, so SYS 0EE is no instruction. -/
theorem test_wellFormed_refuses_sys_0EE : (Instr.sys 0x0EE#12).wellFormed = false := by decide

/-- F19: the words beside them are SYS. -/
theorem test_wellFormed_sys_0E1 : (Instr.sys 0x0E1#12).wellFormed = true ∧ (Instr.sys 0x0FF#12).wellFormed = true := by
  decide

/-! ## Decoding: one word per instruction, written out from 30_encoding.md section 2 as prefix, X, Y and N, or with the
last byte as one field, or the last twelve bits -/

theorem test_decode_sys : decode (0x0#4 ++ 0x123#12) = .ok (.sys 0x123#12) ∧ encode (.sys 0x123#12) = 0x0#4 ++ 0x123#12 := by decide
theorem test_decode_cls : decode (0x00E0#16) = .ok (.cls) ∧ encode (.cls) = 0x00E0#16 := by decide
theorem test_decode_ret : decode (0x00EE#16) = .ok (.ret) ∧ encode (.ret) = 0x00EE#16 := by decide
theorem test_decode_jp : decode (0x1#4 ++ 0x234#12) = .ok (.jp 0x234#12) ∧ encode (.jp 0x234#12) = 0x1#4 ++ 0x234#12 := by decide
theorem test_decode_call : decode (0x2#4 ++ 0x240#12) = .ok (.call 0x240#12) ∧ encode (.call 0x240#12) = 0x2#4 ++ 0x240#12 := by decide
theorem test_decode_seImm : decode (0x3#4 ++ 0x7#4 ++ 0x42#8) = .ok (.seImm 7#4 0x42#8) ∧ encode (.seImm 7#4 0x42#8) = 0x3#4 ++ 0x7#4 ++ 0x42#8 := by decide
theorem test_decode_sneImm : decode (0x4#4 ++ 0xA#4 ++ 0x81#8) = .ok (.sneImm 0xA#4 0x81#8) ∧ encode (.sneImm 0xA#4 0x81#8) = 0x4#4 ++ 0xA#4 ++ 0x81#8 := by decide
theorem test_decode_seReg : decode (0x5#4 ++ 0x1#4 ++ 0x2#4 ++ 0x0#4) = .ok (.seReg 1#4 2#4) ∧ encode (.seReg 1#4 2#4) = 0x5#4 ++ 0x1#4 ++ 0x2#4 ++ 0x0#4 := by decide
theorem test_decode_ldImm : decode (0x6#4 ++ 0xA#4 ++ 0x7F#8) = .ok (.ldImm 0xA#4 0x7F#8) ∧ encode (.ldImm 0xA#4 0x7F#8) = 0x6#4 ++ 0xA#4 ++ 0x7F#8 := by decide
theorem test_decode_addImm : decode (0x7#4 ++ 0x2#4 ++ 0x20#8) = .ok (.addImm 2#4 0x20#8) ∧ encode (.addImm 2#4 0x20#8) = 0x7#4 ++ 0x2#4 ++ 0x20#8 := by decide
theorem test_decode_ldReg : decode (0x8#4 ++ 0xB#4 ++ 0x3#4 ++ 0x0#4) = .ok (.ldReg 0xB#4 3#4) ∧ encode (.ldReg 0xB#4 3#4) = 0x8#4 ++ 0xB#4 ++ 0x3#4 ++ 0x0#4 := by decide
theorem test_decode_orReg : decode (0x8#4 ++ 0xB#4 ++ 0x3#4 ++ 0x1#4) = .ok (.orReg 0xB#4 3#4) ∧ encode (.orReg 0xB#4 3#4) = 0x8#4 ++ 0xB#4 ++ 0x3#4 ++ 0x1#4 := by decide
theorem test_decode_andReg : decode (0x8#4 ++ 0xB#4 ++ 0x3#4 ++ 0x2#4) = .ok (.andReg 0xB#4 3#4) ∧ encode (.andReg 0xB#4 3#4) = 0x8#4 ++ 0xB#4 ++ 0x3#4 ++ 0x2#4 := by decide
theorem test_decode_xorReg : decode (0x8#4 ++ 0xB#4 ++ 0x3#4 ++ 0x3#4) = .ok (.xorReg 0xB#4 3#4) ∧ encode (.xorReg 0xB#4 3#4) = 0x8#4 ++ 0xB#4 ++ 0x3#4 ++ 0x3#4 := by decide
theorem test_decode_addReg : decode (0x8#4 ++ 0xB#4 ++ 0x3#4 ++ 0x4#4) = .ok (.addReg 0xB#4 3#4) ∧ encode (.addReg 0xB#4 3#4) = 0x8#4 ++ 0xB#4 ++ 0x3#4 ++ 0x4#4 := by decide
theorem test_decode_subReg : decode (0x8#4 ++ 0xB#4 ++ 0x3#4 ++ 0x5#4) = .ok (.subReg 0xB#4 3#4) ∧ encode (.subReg 0xB#4 3#4) = 0x8#4 ++ 0xB#4 ++ 0x3#4 ++ 0x5#4 := by decide
theorem test_decode_shr : decode (0x8#4 ++ 0xB#4 ++ 0x3#4 ++ 0x6#4) = .ok (.shr 0xB#4 3#4) ∧ encode (.shr 0xB#4 3#4) = 0x8#4 ++ 0xB#4 ++ 0x3#4 ++ 0x6#4 := by decide
theorem test_decode_subn : decode (0x8#4 ++ 0xB#4 ++ 0x3#4 ++ 0x7#4) = .ok (.subn 0xB#4 3#4) ∧ encode (.subn 0xB#4 3#4) = 0x8#4 ++ 0xB#4 ++ 0x3#4 ++ 0x7#4 := by decide
theorem test_decode_shl : decode (0x8#4 ++ 0xB#4 ++ 0x3#4 ++ 0xE#4) = .ok (.shl 0xB#4 3#4) ∧ encode (.shl 0xB#4 3#4) = 0x8#4 ++ 0xB#4 ++ 0x3#4 ++ 0xE#4 := by decide
theorem test_decode_sneReg : decode (0x9#4 ++ 0xC#4 ++ 0x4#4 ++ 0x0#4) = .ok (.sneReg 0xC#4 4#4) ∧ encode (.sneReg 0xC#4 4#4) = 0x9#4 ++ 0xC#4 ++ 0x4#4 ++ 0x0#4 := by decide
theorem test_decode_ldI : decode (0xA#4 ++ 0x2F0#12) = .ok (.ldI 0x2F0#12) ∧ encode (.ldI 0x2F0#12) = 0xA#4 ++ 0x2F0#12 := by decide
theorem test_decode_jpV0 : decode (0xB#4 ++ 0x523#12) = .ok (.jpV0 0x523#12) ∧ encode (.jpV0 0x523#12) = 0xB#4 ++ 0x523#12 := by decide
theorem test_decode_rnd : decode (0xC#4 ++ 0x3#4 ++ 0x0F#8) = .ok (.rnd 3#4 0x0F#8) ∧ encode (.rnd 3#4 0x0F#8) = 0xC#4 ++ 0x3#4 ++ 0x0F#8 := by decide
theorem test_decode_drw : decode (0xD#4 ++ 0x1#4 ++ 0x2#4 ++ 0x5#4) = .ok (.drw 1#4 2#4 5#4) ∧ encode (.drw 1#4 2#4 5#4) = 0xD#4 ++ 0x1#4 ++ 0x2#4 ++ 0x5#4 := by decide
theorem test_decode_skp : decode (0xE#4 ++ 0x4#4 ++ 0x9E#8) = .ok (.skp 4#4) ∧ encode (.skp 4#4) = 0xE#4 ++ 0x4#4 ++ 0x9E#8 := by decide
theorem test_decode_sknp : decode (0xE#4 ++ 0x4#4 ++ 0xA1#8) = .ok (.sknp 4#4) ∧ encode (.sknp 4#4) = 0xE#4 ++ 0x4#4 ++ 0xA1#8 := by decide
theorem test_decode_ldVxDT : decode (0xF#4 ++ 0x9#4 ++ 0x07#8) = .ok (.ldVxDT 9#4) ∧ encode (.ldVxDT 9#4) = 0xF#4 ++ 0x9#4 ++ 0x07#8 := by decide
theorem test_decode_ldVxK : decode (0xF#4 ++ 0x9#4 ++ 0x0A#8) = .ok (.ldVxK 9#4) ∧ encode (.ldVxK 9#4) = 0xF#4 ++ 0x9#4 ++ 0x0A#8 := by decide
theorem test_decode_ldDTVx : decode (0xF#4 ++ 0x9#4 ++ 0x15#8) = .ok (.ldDTVx 9#4) ∧ encode (.ldDTVx 9#4) = 0xF#4 ++ 0x9#4 ++ 0x15#8 := by decide
theorem test_decode_ldSTVx : decode (0xF#4 ++ 0x9#4 ++ 0x18#8) = .ok (.ldSTVx 9#4) ∧ encode (.ldSTVx 9#4) = 0xF#4 ++ 0x9#4 ++ 0x18#8 := by decide
theorem test_decode_addI : decode (0xF#4 ++ 0x9#4 ++ 0x1E#8) = .ok (.addI 9#4) ∧ encode (.addI 9#4) = 0xF#4 ++ 0x9#4 ++ 0x1E#8 := by decide
theorem test_decode_ldF : decode (0xF#4 ++ 0x9#4 ++ 0x29#8) = .ok (.ldF 9#4) ∧ encode (.ldF 9#4) = 0xF#4 ++ 0x9#4 ++ 0x29#8 := by decide
theorem test_decode_ldB : decode (0xF#4 ++ 0x9#4 ++ 0x33#8) = .ok (.ldB 9#4) ∧ encode (.ldB 9#4) = 0xF#4 ++ 0x9#4 ++ 0x33#8 := by decide
theorem test_decode_ldMemI : decode (0xF#4 ++ 0x9#4 ++ 0x55#8) = .ok (.ldMemI 9#4) ∧ encode (.ldMemI 9#4) = 0xF#4 ++ 0x9#4 ++ 0x55#8 := by decide
theorem test_decode_ldVxMem : decode (0xF#4 ++ 0x9#4 ++ 0x65#8) = .ok (.ldVxMem 9#4) ∧ encode (.ldVxMem 9#4) = 0xF#4 ++ 0x9#4 ++ 0x65#8 := by decide

/-- S10: 0xF10A is FX0A with X = 1; K8, A24, K19, M26: invalid words. -/
theorem test_decode_words_of_the_spec :
    decode 0xF10A#16 = .ok (.ldVxK 1#4) ∧ decode 0x5121#16 = .error (.invalid 0x5121#16) ∧
    decode 0x8008#16 = .error (.invalid 0x8008#16) ∧ decode 0xE400#16 = .error (.invalid 0xE400#16) ∧
    decode 0xF000#16 = .error (.invalid 0xF000#16) := by decide

/-- Fewer than two bytes are no instruction (30_encoding.md R70). -/
theorem test_decode_truncated :
    decodeBytes [] = .error .truncated ∧ decodeBytes [0x12#8] = .error .truncated ∧
    decodeBytes [0x12#8, 0x34#8, 0x56#8] = .ok (.jp 0x234#12, [0x56#8]) := by decide

/-- The host's numbering: bit 0 of the word is the least significant (the first byte in memory is bits 15..8). -/
theorem test_decodeTableWord : decodeTableWord 16 0x1234 = some (.jp 0x234#12) ∧ decodeTableWord 16 0x5121 = none := by
  decide

/-- 30_encoding.md R80: the mnemonic text, and the two shifts under their quirk (R76). -/
theorem test_mnemonicText :
    mnemonicText Quirks.off (.jp 0x234#12) = "JP 234" ∧ mnemonicText Quirks.off (.drw 1#4 2#4 5#4) = "DRW V1, V2, 5" ∧
    mnemonicText Quirks.off (.shr 0#4 1#4) = "SHR V0" ∧ mnemonicText quirksOn (.shr 0#4 1#4) = "SHR V0, V1" := by decide

/-! ## One step per instruction (95_test_vectors.md section 2) -/

/-- F1. -/
theorem test_sys_nop : after (at200 0x0123)
    (fun t => t.result == some (.executed (.sys 0x123#12)) && t.pc == 0x202) = true := by decide

/-- F3. -/
theorem test_sys_refuse : isRefused (withParams ⟨.refuse, .flagLast, .maskLowNibble, .multi, true⟩ (at200 0x0123))
    .sysRefused = true := by decide

/-- F4. -/
theorem test_jp : after (at200 0x1234)
    (fun t => t.pc == 0x234) = true := by decide

/-- F6. -/
theorem test_call : after (at200 0x2240)
    (fun t => t.pc == 0x240 && t.stack == [0x202]) = true := by decide

/-- F7. -/
theorem test_call_full : after ((at200 0x2240).setStack (stackOf 16))
    (fun t => t.pc == 0x202 && t.stack == stackOf 16 && t.result == some (.fault .callStackOverflow)) = true := by decide

/-- F9. -/
theorem test_ret : after ((at200 0x00EE).setStack [0x3A6, 0x204])
    (fun t => t.pc == 0x3A6 && t.stack == [0x204]) = true := by decide

/-- F10. -/
theorem test_ret_empty : after (at200 0x00EE)
    (fun t => t.pc == 0x202 && t.result == some (.fault .callStackEmpty) && t.faultRecord == some .callStackEmpty) = true := by decide

/-- F13: V0 is the offset, not V5. -/
theorem test_jpV0 : after (((at200 0xB523).setReg 0 0x01).setReg 5 0x09)
    (fun t => t.pc == 0x524) = true := by decide

/-- K1. -/
theorem test_seImm : after ((at200 0x3342).setReg 3 0x42)
    (fun t => t.pc == 0x204) = true := by decide

/-- K2. -/
theorem test_seImm_not : after ((at200 0x3343).setReg 3 0x42)
    (fun t => t.pc == 0x202) = true := by decide

/-- K4. -/
theorem test_sneImm : after ((at200 0x4300).setReg 3 0x42)
    (fun t => t.pc == 0x204) = true := by decide

/-- K3. -/
theorem test_sneImm_not : after ((at200 0x4342).setReg 3 0x42)
    (fun t => t.pc == 0x202) = true := by decide

/-- K5. -/
theorem test_seReg : after (((at200 0x5120).setReg 1 0x07).setReg 2 0x07)
    (fun t => t.pc == 0x204) = true := by decide

/-- K6. -/
theorem test_seReg_not : after (((at200 0x5120).setReg 1 0x07).setReg 2 0x08)
    (fun t => t.pc == 0x202) = true := by decide

/-- K9. -/
theorem test_sneReg : after (((at200 0x9120).setReg 1 0x07).setReg 2 0x08)
    (fun t => t.pc == 0x204) = true := by decide

/-- K10. -/
theorem test_sneReg_not : after (((at200 0x9120).setReg 1 0x07).setReg 2 0x07)
    (fun t => t.pc == 0x202) = true := by decide

/-- K12. -/
theorem test_skp : after (withInput (.hz 60) (some 5) ((at200 0xE49E).setReg 4 0x05))
    (fun t => t.pc == 0x204 && t.key == some 5) = true := by decide

/-- K15: V4 above 15 never matches. -/
theorem test_skp_not : after (withInput (.hz 60) (some 5) ((at200 0xE49E).setReg 4 0x15))
    (fun t => t.pc == 0x202) = true := by decide

/-- K18. -/
theorem test_sknp : after (withInput (.hz 60) (some 5) ((at200 0xE4A1).setReg 4 0x15))
    (fun t => t.pc == 0x204) = true := by decide

/-- K17. -/
theorem test_sknp_not : after (withInput (.hz 60) (some 5) ((at200 0xE4A1).setReg 4 0x05))
    (fun t => t.pc == 0x202) = true := by decide

/-- A1. -/
theorem test_ldImm : after (at200 0x6A7F)
    (fun t => t.reg 0xA == 0x7F && t.pc == 0x202) = true := by decide

/-- A2: wraps, VF unchanged. -/
theorem test_addImm : after (((at200 0x7220).setReg 2 0xF0).setReg vf 0xAA)
    (fun t => t.reg 2 == 0x10 && t.reg vf == 0xAA) = true := by decide

/-- A4. -/
theorem test_ldReg : after ((at200 0x8150).setReg 5 0x03)
    (fun t => t.reg 1 == 0x03 && t.reg 5 == 0x03) = true := by decide

/-- A5. -/
theorem test_orReg : after ((((at200 0x8121).setReg 1 0x0F).setReg 2 0xF0).setReg vf 0xAA)
    (fun t => t.reg 1 == 0xFF && t.reg vf == 0xAA) = true := by decide

/-- A6. -/
theorem test_andReg : after ((((at200 0x8122).setReg 1 0x3C).setReg 2 0x0F).setReg vf 0xAA)
    (fun t => t.reg 1 == 0x0C && t.reg vf == 0xAA) = true := by decide

/-- A7. -/
theorem test_xorReg : after ((((at200 0x8123).setReg 1 0x3C).setReg 2 0x0F).setReg vf 0xAA)
    (fun t => t.reg 1 == 0x33 && t.reg vf == 0xAA) = true := by decide

/-- A10 (S6). -/
theorem test_addReg : after (((at200 0x8014).setReg 0 0xFF).setReg 1 0x03)
    (fun t => t.reg 0 == 0x02 && t.reg vf == 1) = true := by decide

/-- A27: VF as the destination, under each `vf_write_order`. -/
theorem test_addReg_into_vf :
    after (withParams ⟨.nop, .flagLast, .maskLowNibble, .multi, true⟩ (((at200 0x8F14).setReg vf 0xFF).setReg 1 0x01))
      (fun t => t.reg vf == 0x01) = true ∧
    after (withParams ⟨.nop, .resultLast, .maskLowNibble, .multi, true⟩ (((at200 0x8F14).setReg vf 0xFF).setReg 1 0x01))
      (fun t => t.reg vf == 0x00) = true ∧
    after (withParams ⟨.nop, .flagFirstReread, .maskLowNibble, .multi, true⟩
      (((at200 0x8F14).setReg vf 0xFF).setReg 1 0x01)) (fun t => t.reg vf == 0x02) = true := by decide

/-- A14 (S7). -/
theorem test_subReg : after (((at200 0x8015).setReg 0 0x01).setReg 1 0x02)
    (fun t => t.reg 0 == 0xFF && t.reg vf == 0) = true := by decide

/-- A15. -/
theorem test_subReg_equal : after (((at200 0x8015).setReg 0 0x05).setReg 1 0x05)
    (fun t => t.reg 0 == 0x00 && t.reg vf == 1) = true := by decide

/-- A17. -/
theorem test_subn : after (((at200 0x8017).setReg 0 0x02).setReg 1 0x01)
    (fun t => t.reg 0 == 0xFF && t.reg vf == 0) = true := by decide

/-- A30: VF as the second operand of SUBN, under each `vf_write_order`. -/
theorem test_subn_from_vf :
    after (withParams ⟨.nop, .resultLast, .maskLowNibble, .multi, true⟩ (((at200 0x80F7).setReg 0 0x03).setReg vf 0x05))
      (fun t => t.reg 0 == 0x02 && t.reg vf == 1) = true ∧
    after (withParams ⟨.nop, .flagFirstReread, .maskLowNibble, .multi, true⟩
      (((at200 0x80F7).setReg 0 0x03).setReg vf 0x05)) (fun t => t.reg 0 == 0xFE && t.reg vf == 1) = true := by decide

/-- A18 (S8). -/
theorem test_shr : after (((at200 0x8016).setReg 0 0x0D).setReg 1 0xFF)
    (fun t => t.reg 0 == 0x06 && t.reg vf == 1) = true := by decide

/-- A19 (S8). -/
theorem test_shr_uses_vy : after (withQuirks quirksOn (((at200 0x8016).setReg 0 0xFF).setReg 1 0x0D))
    (fun t => t.reg 0 == 0x06 && t.reg vf == 1) = true := by decide

/-- A21. -/
theorem test_shl : after ((at200 0x801E).setReg 0 0x81)
    (fun t => t.reg 0 == 0x02 && t.reg vf == 1) = true := by decide

/-- A22. -/
theorem test_shl_uses_vy : after (withQuirks quirksOn (((at200 0x801E).setReg 0 0xFF).setReg 1 0x40))
    (fun t => t.reg 0 == 0x80 && t.reg vf == 0) = true := by decide

/-- M1. -/
theorem test_ldI : after (at200 0xA2F0)
    (fun t => t.i == 0x2F0) = true := by decide

/-- M2: quirk off, VF unchanged. -/
theorem test_addI : after ((((at200 0xF21E).setIndex 0x0FFF).setReg 2 0x01).setReg vf 0xAA)
    (fun t => t.i == 0x1000 && t.reg vf == 0xAA) = true := by decide

/-- M5: VF is the operand too. -/
theorem test_addI_overflow : after (withQuirks quirksOn (((at200 0xFF1E).setIndex 0xFFF0).setReg vf 0x20))
    (fun t => t.i == 0x0010 && t.reg vf == 1) = true := by decide

/-- M8. -/
theorem test_ldF : after ((at200 0xF729).setReg 7 0x1A)
    (fun t => t.i == 0x032) = true := by decide

/-- M9. -/
theorem test_ldF_unmasked : after (withParams ⟨.nop, .flagLast, .unmasked, .multi, true⟩ ((at200 0xF729).setReg 7 0x1A))
    (fun t => t.i == 0x082) = true := by decide

/-- M13: the last three bytes of memory. -/
theorem test_ldB : after (((at200 0xF033).setReg 0 0x7B).setIndex 0xFFD)
    (fun t => t.mem.byteAt 0xFFD == 1 && t.mem.byteAt 0xFFE == 2 && t.mem.byteAt 0xFFF == 3) = true := by decide

/-- M15. -/
theorem test_ldB_out_of_range : after (((at200 0xF033).setReg 0 0x7B).setIndex 0x1000)
    (fun t => t.pc == 0x202 && t.result == some (.fault (.memFault 0x1000)) && t.mem == (at200 0xF033).mem) = true := by decide

/-- M17. -/
theorem test_ldMemI : after (withQuirks quirksOn (((((at200 0xF255).setReg 0 1).setReg 1 2).setReg 2 3).setIndex 0x300))
    (fun t => t.mem.byteAt 0x300 == 1 && t.mem.byteAt 0x302 == 3 && t.mem.byteAt 0x303 == 0 && t.i == 0x303) = true := by decide

/-- M20. -/
theorem test_ldMemI_partial : after (withQuirks quirksOn (((((at200 0xF255).setReg 0 1).setReg 1 2).setReg 2 3).setIndex 0xFFE))
    (fun t => t.result == some (.fault (.memFault 0x1000)) && t.mem.byteAt 0xFFE == 1 && t.mem.byteAt 0xFFF == 2 && t.i == 0xFFE) = true := by decide

/-- M21. -/
theorem test_ldVxMem : after (((at200 0xF265).setMem ((at200 0xF265).mem.setBytes 0x300 [1, 2, 3])).setIndex 0x300)
    (fun t => t.reg 0 == 1 && t.reg 1 == 2 && t.reg 2 == 3 && t.reg 3 == 0 && t.i == 0x300) = true := by decide

/-- M24. -/
theorem test_ldVxMem_partial : after (withQuirks quirksOn ((((at200 0xF265).setMem ((at200 0xF265).mem.setBytes 0xFFE [0x11, 0x22])).setIndex 0xFFE).setReg 2 0x55))
    (fun t => t.result == some (.fault (.memFault 0x1000)) && t.reg 0 == 0x11 && t.reg 1 == 0x22 && t.reg 2 == 0x55 && t.i == 0xFFE) = true := by decide

/-- D1. -/
theorem test_cls : after ((at200 0x00E0).setDisplay ((Display.blank.xorCell 0 0 true).xorCell 63 31 true))
    (fun t => !t.display.cell 0 0 && !t.display.cell 63 31 && t.pc == 0x202) = true := by decide

/-- D5: glyph 0 at (62, 31) wraps on both axes, 14 pixels. -/
theorem test_drw : after (((at200 0xD125).setReg 1 0x3E).setReg 2 0x1F)
    (fun t => t.display.cell 62 31 && t.display.cell 1 31 && t.display.cell 62 0 && !t.display.cell 63 0 && t.display.cell 1 3 &&
      (t.display.toList.map fun r => r.toList.count true).sum == 14 && t.reg vf == 0) = true := by decide

/-- D7. -/
theorem test_drw_collides : after ((((at200 0xD121).setIndex 0x32).setDisplay ((Display.blank.xorCell 0 0 true).xorCell 7 0 true)))
    (fun t => !t.display.cell 0 0 && t.display.cell 3 0 && t.display.cell 7 0 && t.reg vf == 1) = true := by decide

/-- T1, T2: the random byte is a free value; whatever it is, its masked bits are 0. -/
theorem test_rnd : ∃ t, step (at200 0xC300) = .next t ∧ t.reg 3 = Config.randomByte 0 &&& 0x00#8 ∧ t.randomCount = 1 :=
  ⟨_, rfl, rfl, rfl⟩

/-- T4: the timer is ticked before. -/
theorem test_ldVxDT : after ((at200 0xF507).setDT (timerOf 0x3D 0x3D))
    (fun t => t.reg 5 == 0x3C && t.dt == timerOf 0x3D 0x3C) = true := by decide

/-- T5. -/
theorem test_ldVxDT_rate_180 : after (withInput (.hz 180) none ((at200 0xF507).setDT (timerOf 0x3D 0x3D)))
    (fun t => t.reg 5 == 0x3D && t.dt == ⟨0x3D, 0x3D, ⟨1, 3⟩⟩) = true := by decide

/-- T6 (S10). -/
theorem test_ldVxK : after (at200 0xF10A)
    (fun t => t.latch == some 1 && t.pc == 0x202) = true := by decide

/-- T11. -/
theorem test_ldDTVx : after ((at200 0xF215).setReg 2 0x3C)
    (fun t => t.dt == timerOf 0x3C 0x3C) = true := by decide

/-- T14: again, with no pause. -/
theorem test_ldSTVx : after (((at200 0xF118).setReg 1 0x0A).setST (timerOf 2 2) |>.setPlaying true)
    (fun t => t.st == timerOf 0x0A 0x0A && t.playing && t.events == [.play]) = true := by decide

/-- T17: no sound for 0 where `play_on_zero` is false. -/
theorem test_ldSTVx_zero : after (withParams ⟨.nop, .flagLast, .maskLowNibble, .multi, false⟩ (at200 0xF018))
    (fun t => !t.playing && t.events == []) = true := by decide

/-! ## The step around the instructions -/

/-- F14. -/
theorem test_fetch_at_4094 : after ((State.reset.setPc 0xFFE).withFetchWord 16 0x602A)
    (fun t => t.reg 0 == 0x2A && t.pc == 0x1000) = true := by decide

/-- F15. -/
theorem test_fetch_at_4095 : after (State.reset.setPc 0xFFF)
    (fun t => t.pc == 0xFFF && t.result == some (.fault (.memFault 0x1000))) = true := by decide

/-- F16. -/
theorem test_fetch_at_4096 : after (State.reset.setPc 0x1000)
    (fun t => t.pc == 0x1000 && t.result == some (.fault (.memFault 0x1000))) = true := by decide

/-- F17. -/
theorem test_fetch_at_odd_pc : after ((State.reset.setPc 0x201).withFetchWord 16 0x6107)
    (fun t => t.reg 1 == 7 && t.pc == 0x203) = true := by decide

/-- K8. -/
theorem test_invalid_word : after (at200 0x5121)
    (fun t => t.pc == 0x202 && t.result == some (.fault (.invalidOpcode 0x5121))) = true := by decide

/-- T8. -/
theorem test_waiting : after ((State.reset.setLatch (some 4)).setDT (timerOf 5 5))
    (fun t => t.result == some .waiting && t.dt == timerOf 5 4 && t.pc == 0x200 && t.latch == some 4) = true := by decide

/-- T9. -/
theorem test_key_resolved : after (withInput (.hz 60) (some 0xC) (State.reset.setLatch (some 4)))
    (fun t => t.result == some (.keyResolved 4 0xC) && t.reg 4 == 0x0C && t.latch == none && t.pc == 0x200) = true := by decide

/-- T10. -/
theorem test_pause : after (((State.reset.setLatch (some 4)).setST (timerOf 1 1)).setPlaying true)
    (fun t => t.st == timerOf 1 0 && !t.playing && t.events == [.pause]) = true := by decide

/-- T29. -/
theorem test_rate_0 : isRefused (withInput (.hz 0) none State.reset) .badRate = true := by decide

/-- 92_eei_decisions.md D14: a rate that is no integer. -/
theorem test_rate_notInteger : isRefused (withInput .notInteger none State.reset) .badRate = true := by decide

/-- T25, T26: two ticks at 45 Hz, by policy. -/
theorem test_tick_45 :
    ((timerOf 10 10).tick .multi 45) = ⟨10, 9, ⟨1, 3⟩⟩ ∧
    (((((timerOf 10 10).tick .single 45).tick .single 45).tick .single 45).tick .single 45) = ⟨10, 6, ⟨4, 3⟩⟩ ∧
    (((((timerOf 10 10).tick .multi 45).tick .multi 45).tick .multi 45).tick .multi 45) = ⟨10, 5, ⟨1, 3⟩⟩ := by decide

/-- T27, T28: at 1 Hz, 60 decrements are due. -/
theorem test_tick_1 : ((timerOf 10 10).tick .multi 1) = ⟨10, 0, ⟨0, 1⟩⟩ ∧
    ((timerOf 10 10).tick .single 1) = ⟨10, 9, ⟨59, 1⟩⟩ := by decide

/-- The codes of 60_exceptions.md R300. -/
theorem test_fault_codes :
    (Fault.callStackEmpty).code = 1 ∧ (Fault.callStackOverflow).code = 2 ∧ (Fault.invalidOpcode 0x5121#16).code = 3 ∧
    (Fault.invalidRegister 16).code = 4 ∧ (Fault.memFault 4096).code = 5 ∧ (Fault.displayFault).code = 6 ∧
    (Fault.romTooLarge).code = 7 ∧ (Fault.nonMonotonicClockValue).code = 8 := by decide

/-! ## Construction -/

/-- Construction with the choices of 95_test_vectors.md section 0 and the empty image gives `State.reset` (R1). -/
theorem test_construct_empty :
    construct [] Quirks.off Params.standard conventionalFont Init.zero = .ok State.reset := by rfl

/-- R5: glyph A of the conventional table. -/
theorem test_glyph_A : (List.range' 0x32 5).map State.reset.mem.byteAt = [0xF0, 0x90, 0xF0, 0x90, 0x90] := by decide

/-- R2, R3: 3583 bytes construct, 3584 do not. -/
theorem test_construct_boundary :
    (∃ s, construct (List.replicate 3583 0) Quirks.off Params.standard conventionalFont Init.zero = .ok s) ∧
    construct (List.replicate 3584 0) Quirks.off Params.standard conventionalFont Init.zero = .error .romTooLarge := by
  constructor
  · exact ⟨_, if_neg (by rw [List.length_replicate]; decide)⟩
  · exact if_pos (by rw [List.length_replicate]; decide)

/-- The display read port (60_exceptions.md R333) and the call-stack snapshot in push order (10_state.md R33). -/
theorem test_ports : (State.reset.setDisplay (Display.blank.xorCell 2 1 true)).displayRow 1 =
      [false, false, true] ++ List.replicate 61 false ∧
    (State.reset.setStack [0x3A6, 0x204]).stackSnapshot = some [0x204, 0x3A6] ∧ State.reset.stackSnapshot = none := by
  decide
/-! ## Witnesses: for every statement with hypotheses, states and operands that meet them, one for each clause, at the
bounds of its range -/

theorem witness_EncodeThenDecode :
    (Instr.drw 15#4 15#4 15#4).wellFormed = true ∧ (Instr.sys 0x0E1#12).wellFormed = true ∧
    (Instr.sys 0xFFF#12).wellFormed = true := by decide

theorem witness_DecodeThenEncode :
    decode 0x00EF#16 = .ok (.sys 0x0EF#12) ∧ decode 0xFF65#16 = .ok (.ldVxMem 15#4) := by decide

theorem witness_InvalidWordsAreExactlyTheListed :
    decode 0x5001#16 = .error (.invalid 0x5001#16) ∧ decode 0x900F#16 = .error (.invalid 0x900F#16) ∧
    decode 0x8008#16 = .error (.invalid 0x8008#16) ∧ decode 0x800D#16 = .error (.invalid 0x800D#16) ∧
    decode 0x800F#16 = .error (.invalid 0x800F#16) ∧ decode 0xE0A2#16 = .error (.invalid 0xE0A2#16) ∧
    decode 0xF0FF#16 = .error (.invalid 0xF0FF#16) ∧ decode 0x800E#16 ≠ .error (.invalid 0x800E#16) ∧
    decode 0x8007#16 ≠ .error (.invalid 0x8007#16) := by decide

theorem witness_MnemonicDependsOnQuirksForShiftsOnly :
    mnemonicText Quirks.off (.shr 0#4 1#4) ≠ mnemonicText quirksOn (.shr 0#4 1#4) ∧
    mnemonicText Quirks.off (.shl 0#4 1#4) ≠ mnemonicText quirksOn (.shl 0#4 1#4) := by decide

theorem witness_FetchReadsTwoBytesBigEndian :
    4096 ≤ (State.reset.setPc 4096).pc.toNat ∧ (State.reset.setPc 4095).pc.toNat = 4095 ∧
    (State.reset.setPc 4094).pc.toNat ≤ 4094 := by decide

theorem witness_StepRunsTheDecodedInstruction :
    let s := (State.reset.setPc 4094).withFetchWord 16 0x2240
    s.stepRate = some 60 ∧ s.latch = none ∧ s.pc.toNat ≤ 4094 ∧
      decode (wordOfBytes (s.mem.byteAt s.pc.toNat) (s.mem.byteAt (s.pc.toNat + 1))) = .ok (.call 0x240#12) := by decide

theorem witness_FetchFaultKeepsThePc :
    (State.reset.setPc 4095).stepRate = some 60 ∧ (State.reset.setPc 4095).latch = none ∧
    4095 ≤ (State.reset.setPc 4095).pc.toNat := by decide

theorem witness_InvalidOpcodeMovesPastTheWord :
    (at200 0x5121).stepRate = some 60 ∧ (at200 0x5121).latch = none ∧ (at200 0x5121).fetch = .ok 0x5121#16 ∧
    decode 0x5121#16 = .error (.invalid 0x5121#16) := ⟨rfl, rfl, rfl, rfl⟩

/-- With a key and without one. -/
theorem witness_AwaitingKeyRunsNoInstruction :
    (State.reset.setLatch (some 15)).stepRate = some 60 ∧ (State.reset.setLatch (some 15)).latch = some 15 ∧
    (State.reset.setLatch (some 15)).takeInput.key = none ∧
    (withInput (.hz 60) (some 15) (State.reset.setLatch (some 15))).takeInput.key = some 15 ∧
    (withInput (.hz 60) (some 15) (State.reset.setLatch (some 15))).stepRate = some 60 := by decide

/-- Clause 1 at both inadmissible rates, clause 2 at the least admissible rate. -/
theorem witness_StepAnswersUnlessRefused :
    (withInput (.hz 0) none State.reset).stepRate = none ∧ (withInput .notInteger none State.reset).stepRate = none ∧
    (withInput (.hz 1) none State.reset).stepRate ≠ none := by decide

theorem reset_inv : State.reset.Inv := by
  refine ⟨⟨List.Pairwise.nil, fun c h => (nomatch h)⟩, by decide, by decide, fun a h => (nomatch h), ?_, ?_,
    fun f h => (nomatch h)⟩ <;>
    exact ⟨by decide, by decide⟩

theorem witness_StepKeepsTheInvariant : State.reset.Inv ∧ ∃ t, step State.reset = .next t := ⟨reset_inv, _, rfl⟩

theorem witness_ConstructionMeetsTheInvariant :
    Init.zero.mem.wf ∧ construct [] Quirks.off Params.standard conventionalFont Init.zero = .ok State.reset :=
  ⟨⟨List.Pairwise.nil, fun _ h => nomatch h⟩, rfl⟩

theorem witness_QuirksAndParametersNeverChange : ∃ t, step State.reset = .next t := ⟨_, rfl⟩

/-- Without and with an earlier fault, and a step that returns a fault. -/
theorem witness_FaultRecordIsSticky :
    (∃ t, step (at200 0x00EE) = .next t ∧ (at200 0x00EE).faultRecord = none ∧
      t.result = some (.fault .callStackEmpty)) ∧
    (∃ t, step (State.reset.raise .callStackOverflow) = .next t ∧
      (State.reset.raise .callStackOverflow).faultRecord = some .callStackOverflow) :=
  ⟨⟨_, rfl, rfl, rfl⟩, _, rfl, rfl⟩

theorem witness_UnreachableFaultsAreNeverReturned : ∃ t, step (at200 0xF000) = .next t := ⟨_, rfl⟩

/-- For each clause an instruction that writes the piece it names. -/
theorem witness_OnlyTheNamedInstructionsWrite :
    afterExec (.call 0#12) State.reset (fun t => t.stack != State.reset.stack) = true ∧
    afterExec (.ldVxK 0#4) State.reset (fun t => t.latch != State.reset.latch) = true ∧
    afterExec (.ldDTVx 0#4) (State.reset.setReg 0 1) (fun t => t.dt != State.reset.dt) = true ∧
    afterExec (.ldSTVx 0#4) State.reset (fun t => t.playing != State.reset.playing) = true ∧
    afterExec (.ldVxMem 0#4) (withQuirks quirksOn State.reset) (fun t => t.i != State.reset.i) = true ∧
    afterExec (.ldB 0#4) State.reset (fun t => t.mem.byteAt 0 != State.reset.mem.byteAt 0) = true ∧
    afterExec (.rnd 0#4 0#8) State.reset (fun t => t.randomCount != State.reset.randomCount) = true ∧
    afterExec (.jp 0#12) State.reset (fun t => t.pc != State.reset.pc) = true ∧
    afterExec .ret State.reset (fun t => t.result != State.reset.result) = true ∧
    afterExec (.drw 0#4 0#4 2#4) (State.reset.setIndex 4095) (fun t => t.freeCount != State.reset.freeCount) = true := by
  decide

theorem witness_OnlyTheNamedInstructionsWrite_display :
    ∃ t, exec (.drw 0#4 0#4 1#4) State.reset = .next t ∧ t.display ≠ State.reset.display := by
  refine ⟨_, rfl, fun h => ?_⟩
  have := congrArg (fun d => Display.cell d 0 0) h
  revert this
  decide

theorem witness_RegistersChangeOnlyWhereNamed :
    ∃ t, exec (.addImm 15#4 1#8) State.reset = .next t ∧ t.reg vf ≠ State.reset.reg vf := ⟨_, rfl, by decide⟩

/-- The largest image that constructs (90_conflicts.md C1). -/
theorem witness_ConstructionPlacesTheImage : (List.replicate 3583 (0xFF : Byte)).length + 0x200 < 4096 := by
  rw [List.length_replicate]; decide

theorem witness_ConstructionTakesLaunchValues :
    ∃ s, construct [0x12, 0x00] Quirks.off Params.standard conventionalFont Init.zero = .ok s := ⟨_, rfl⟩

/-- Both sides of the bound. -/
theorem witness_ConstructionRefusesLargeImages :
    3584 ≤ (List.replicate 3584 (0 : Byte)).length ∧ ¬ 3584 ≤ (List.replicate 3583 (0 : Byte)).length := by
  rw [List.length_replicate, List.length_replicate]; decide

theorem witness_RegisterAccessIsChecked : (15 : Nat) < 16 ∧ (16 : Nat) ≤ 16 := by decide

theorem witness_MemoryAccessIsChecked : (4096 : Nat) ≤ 4096 ∧ (4095 : Nat) < 4096 := by decide

theorem witness_StackIsBoundedAndLastInFirstOut :
    (State.reset.setStack (stackOf 16)).stack.length = 16 ∧ (State.reset.setStack (stackOf 15)).stack.length < 16 ∧
    State.reset.stack = [] := by decide

theorem witness_SysFollowsItsPolicy :
    State.reset.params.sysPolicy = .nop ∧
    (withParams ⟨.refuse, .flagLast, .maskLowNibble, .multi, true⟩ State.reset).params.sysPolicy = .refuse := by decide

theorem witness_CallPushesAndJumps :
    (State.reset.setStack (stackOf 15)).stack.length < 16 ∧ 16 ≤ (State.reset.setStack (stackOf 16)).stack.length := by
  decide

theorem witness_ReturnPopsIntoThePc :
    (State.reset.setStack [0x3A6, 0x204]).stack = 0x3A6 :: [0x204] ∧ State.reset.stack = [] := ⟨rfl, rfl⟩

theorem witness_CallThenReturnComesBack : (State.reset.setStack (stackOf 15)).stack.length < 16 := by decide

theorem witness_AddIndexWraps :
    (withQuirks quirksOn State.reset).quirks.indexAddSetsVf = true ∧ State.reset.quirks.indexAddSetsVf = false := by decide

/-- The codes at the bound, under both policies. -/
theorem witness_FontAddressIsFiveTimesTheCode :
    ((State.reset.setReg 0 15).reg 0).toNat ≤ 15 ∧
    (15 < ((State.reset.setReg 0 16).reg 0).toNat ∧ (State.reset.setReg 0 16).params.fontCodePolicy = .maskLowNibble) ∧
    (15 < ((withParams ⟨.nop, .flagLast, .unmasked, .multi, true⟩ (State.reset.setReg 0 255)).reg 0).toNat ∧
      (withParams ⟨.nop, .flagLast, .unmasked, .multi, true⟩ (State.reset.setReg 0 255)).params.fontCodePolicy =
        .unmasked) := by decide

theorem witness_BcdStoresThreeDigits : (State.reset.setIndex 4093).i.toNat + 2 ≤ 4095 := by decide

/-- The first index that faults, and the first from which nothing is stored. -/
theorem witness_BcdFaultLeavesOldOrDigit :
    4095 < (State.reset.setIndex 4094).i.toNat + 2 ∧
    (4095 < (State.reset.setIndex 4096).i.toNat + 2 ∧ 4096 ≤ (State.reset.setIndex 4096).i.toNat) := by decide

theorem witness_BulkStoreCopiesRegisters : (State.reset.setIndex 4080).i.toNat + (15#4).toNat ≤ 4095 := by decide

theorem witness_BulkStoreFaultKeepsThePrefix :
    4095 < (State.reset.setIndex 4081).i.toNat + (15#4).toNat ∧ 4095 < (State.reset.setIndex 0xFFFF).i.toNat + (0#4).toNat := by
  decide

theorem witness_BulkLoadCopiesMemory : (State.reset.setIndex 4080).i.toNat + (15#4).toNat ≤ 4095 := by decide

theorem witness_BulkLoadFaultKeepsThePrefix :
    4095 < (State.reset.setIndex 4081).i.toNat + (15#4).toNat ∧ 4095 < (State.reset.setIndex 0xFFFF).i.toNat + (0#4).toNat := by
  decide

/-- No row at the greatest index; one row at the last byte, over a set pixel (glyph 0 starts with 1 bits) and over none. -/
theorem witness_DrawXorsTheSprite :
    (0#4 = 0#4 ∨ (State.reset.setIndex 0xFFFF).i.toNat + (0#4).toNat ≤ 4096) ∧
    (1#4 = 0#4 ∨ (State.reset.setIndex 4095).i.toNat + (1#4).toNat ≤ 4096) ∧
    Collides (State.reset.setDisplay (Display.blank.xorCell 0 0 true)) 0 0 1 ∧ ¬ Collides State.reset 0 0 1 := by
  refine ⟨by decide, by decide, ⟨0, 0, by decide, by decide⟩, ?_⟩
  rintro ⟨x, y, h, -⟩
  simp [State.reset, Display.blank, Display.cell] at h

/-- The first row out of range is the second, and is the first. -/
theorem witness_DrawFaultLeavesOldOrNew :
    (2#4 ≠ 0#4 ∧ 4096 < (State.reset.setIndex 4095).i.toNat + (2#4).toNat) ∧
    (1#4 ≠ 0#4 ∧ 4096 < (State.reset.setIndex 4096).i.toNat + (1#4).toNat ∧ 4096 ≤ (State.reset.setIndex 4096).i.toNat) := by
  decide

theorem witness_DrawingTwiceRestoresTheDisplay :
    (15#4 = 0#4 ∨ (State.reset.setIndex 4081).i.toNat + (15#4).toNat ≤ 4096) ∧ (1 : Reg) ≠ vf ∧ (14 : Reg) ≠ vf := by
  decide

/-- A nonzero value; 0 with `play_on_zero`; 0 without. -/
theorem witness_SoundTimerStartsTheSound :
    ((State.reset.setReg 0 1).reg 0 ≠ 0#8 ∨ (State.reset.setReg 0 1).params.playOnZero = true) ∧
    (State.reset.reg 0 ≠ 0#8 ∨ State.reset.params.playOnZero = true) ∧
    ((withParams ⟨.nop, .flagLast, .maskLowNibble, .multi, false⟩ State.reset).reg 0 = 0#8 ∧
      (withParams ⟨.nop, .flagLast, .maskLowNibble, .multi, false⟩ State.reset).params.playOnZero = false) := by decide

/-- A timer in lowest terms; the rates at the bound, with both policies. -/
theorem witness_TimerTickIsExact :
    (timerOf 10 10).wf ∧ (0 < 60 ∧ (60 ≤ 60 ∨ SubratePolicy.single = .multi)) ∧
    (0 < 1 ∧ (60 ≤ 1 ∨ SubratePolicy.multi = .multi)) ∧ (0 < 59 ∧ 59 < 60 ∧ SubratePolicy.single = .single) :=
  ⟨⟨by decide, by decide⟩, by decide, by decide, by decide⟩

theorem witness_TicksCountDownAtSixtyHertz : (60 : Nat) ≤ 60 ∧ (60 : Nat) ≤ 180 := by decide

/-- A step that signals pause, and one that does not. -/
theorem witness_PauseIsSignalledOncePerTransition :
    (∃ t, ((State.reset.setST (timerOf 1 1)).setPlaying true).stepRate = some 60 ∧
      step ((State.reset.setST (timerOf 1 1)).setPlaying true) = .next t ∧ t.events = [.pause]) ∧
    (∃ t, State.reset.stepRate = some 60 ∧ step State.reset = .next t ∧ t.events = []) :=
  ⟨⟨_, rfl, rfl, rfl⟩, _, rfl, rfl, rfl⟩

end Sys2Proof.Tests
end

section
/-! The call stack's two operations (10_state.md R31, R32): an equation per case, and what they give together. -/

namespace Sys2Proof.Machine

/-- R31 with room: the value becomes the new top. -/
theorem State.push_of_lt {s : State} (h : s.stack.length < stackCap) (a : Word) :
    s.push a = .ok (s.setStack (a :: s.stack)) := if_pos h

/-- R31 on a full stack, or on a longer one, which no run reaches. -/
theorem State.push_of_le {s : State} (h : stackCap ≤ s.stack.length) (a : Word) :
    s.push a = .error .callStackOverflow := if_neg (Nat.not_lt.2 h)

/-- R32 on an empty stack. -/
theorem State.pop_of_nil {s : State} (h : s.stack = []) : s.pop = .error .callStackEmpty := by
  simp only [State.pop, h]

/-- R32 with an entry: the top is given and the rest is left. -/
theorem State.pop_of_cons {s : State} {a : Word} {l : List Word} (h : s.stack = a :: l) :
    s.pop = .ok (a, s.setStack l) := by
  simp only [State.pop, h]

theorem State.setStack_setStack (s : State) (l l' : List Word) : (s.setStack l).setStack l' = s.setStack l' := rfl

/-- Last in, first out: a pop undoes a push, the whole state included. -/
theorem State.pop_setStack_cons (s : State) (a : Word) : (s.setStack (a :: s.stack)).pop = .ok (a, s) := by
  rw [State.pop_of_cons (State.setStack_stack s _), State.setStack_setStack, State.setStack_self]

/-- Settles O25, by the equations of push and pop at the two bounds of the stack, and `State.pop_setStack_cons`. -/
theorem stackIsBoundedAndLastInFirstOut : Obligations.StackIsBoundedAndLastInFirstOut := by
  intro s a
  refine ⟨fun hfull => ?full, fun hroom => ?room, State.pop_of_nil⟩
  case full => exact State.push_of_le hfull.ge a
  case room =>
    exact ⟨s.setStack (a :: s.stack), State.push_of_lt hroom a, State.setStack_stack s _,
      onlyChanges_setStack s _, State.pop_setStack_cons s a⟩

end Sys2Proof.Machine
end

section
/-! Memory and the fetch over it (20_memory.md R52, R53, R55): what a read gives after a write, and the fetch's three
cases. -/

namespace Sys2Proof.Machine

/-- R52 after R53 at the same address: the byte stored is the byte read. -/
theorem State.memRead_setMem_setByte_self (s : State) {a : Nat} (b : Byte) (h : a < memSize) :
    (s.setMem (s.mem.setByte a b)).memRead a = .ok b := by
  rw [State.memRead_of_lt _ h, State.setMem_mem, Memory.byteAt_setByte_self]

/-- Settles O24, by the equations of a read and a write on the two sides of 4096. -/
theorem memoryAccessIsChecked : Obligations.MemoryAccessIsChecked := by
  intro s a b
  refine ⟨fun hout => ?outside, fun hin => ?inside⟩
  case outside => exact ⟨State.memRead_of_ge s hout, State.memWrite_of_ge s b hout⟩
  case inside =>
    exact ⟨State.memRead_of_lt s hin, s.setMem (s.mem.setByte a b), State.memWrite_of_lt s b hin,
      State.memRead_setMem_setByte_self s b hin, onlyChanges_setByte s a b⟩

/-- Settles O6, by the equations of the fetch on the two sides of 4095: the faulting address is the greater of `pc` and
4096, and a fetched word is the number its two bytes spell. -/
theorem fetchReadsTwoBytesBigEndian : Obligations.FetchReadsTwoBytesBigEndian := by
  intro s
  refine ⟨fun hout => ?outside, fun hlast => ?lastByte, fun hin => ?inside⟩
  case outside => rw [State.fetch_of_gt s (by omega), Nat.max_eq_left hout]
  case lastByte => rw [State.fetch_of_gt s hlast.ge, Nat.max_eq_right (by omega)]
  case inside => exact ⟨_, State.fetch_of_le s hin, wordOfBytes_toNat _ _⟩

end Sys2Proof.Machine
end

section
/-! The skip on two registers (42_skip.md R143): its execution as the shared skip operation. -/

namespace Sys2Proof.Machine

/-- R143: the skip whose condition is that the two registers are equal. -/
theorem exec_seReg_eq (x y : Reg) (s : State) :
    exec (.seReg x y) s = .next (s.skipIf (s.reg x == s.reg y)) := rfl

/-- Settles O32: the next state is the shared skip (`exec_seReg_eq`), whose `pc` is `State.skipIf_pc` and whose frame is
`onlyChanges_skipIf`. -/
theorem registerCompareSkips : Obligations.RegisterCompareSkips := by
  intro s x y
  refine ⟨s.skipIf (s.reg x == s.reg y), exec_seReg_eq x y s, ?pc, onlyChanges_skipIf s _⟩
  case pc => simp only [State.skipIf_pc, beq_iff_eq]

end Sys2Proof.Machine
end

section
/-! Addition and subtraction (43_alu.md R162, R167, R168, R170): each execution as one register write or one result/flag
write, and the wrapped sum as a number. -/

namespace Sys2Proof.Machine

/-! ## The execution of each instruction -/

/-- R162: one register write, without a flag. -/
theorem exec_addImm_eq (x : Reg) (nn : Byte) (s : State) :
    exec (.addImm x nn) s = .next (s.setReg x (s.reg x + nn)) := rfl

/-- R167: the result/flag write of the sum and its carry. -/
theorem exec_addReg_eq (x y : Reg) (s : State) :
    exec (.addReg x y) s =
      .next (s.writeResultAndFlag x y (fun vx vy => vx + vy) (carryFlag (s.reg x) (s.reg y))) := rfl

/-- R168: the result/flag write of VX - VY and its not-borrow. -/
theorem exec_subReg_eq (x y : Reg) (s : State) :
    exec (.subReg x y) s =
      .next (s.writeResultAndFlag x y (fun vx vy => vx - vy) (notBorrowFlag (s.reg x) (s.reg y))) := rfl

/-- R170: the result/flag write of VY - VX and its not-borrow. -/
theorem exec_subn_eq (x y : Reg) (s : State) :
    exec (.subn x y) s =
      .next (s.writeResultAndFlag x y (fun vx vy => vy - vx) (notBorrowFlag (s.reg y) (s.reg x))) := rfl

/-! ## The wrapped sum -/

/-- A wrapped sum, as `sub_eq_ofInt` is a wrapped difference. -/
theorem add_eq_ofNat_mod (a b : Byte) : a + b = BitVec.ofNat 8 ((a.toNat + b.toNat) % 256) := by
  rw [← BitVec.toNat_add, BitVec.ofNat_toNat, BitVec.setWidth_eq]

/-! ## The statements -/

/-- Settles O37: whatever the order of the two writes, the result/flag write meets its predicate
(`writesResultAndFlag`); its result is the wrapped sum and its flag the carry of the exact one. -/
theorem addRegisterSetsCarry : Obligations.AddRegisterSetsCarry := by
  intro s x y
  refine ⟨_, exec_addReg_eq x y s, ?_⟩
  simpa only [add_eq_ofNat_mod, carryFlag_eq] using
    writesResultAndFlag s x y (fun vx vy => vx + vy) (carryFlag (s.reg x) (s.reg y))

/-- Settles O38: as for ADD, with the wrapped difference and its not-borrow, the operands exchanged for SUBN. -/
theorem subtractionsSetNotBorrow : Obligations.SubtractionsSetNotBorrow := by
  intro s x y
  refine ⟨⟨_, exec_subReg_eq x y s, ?sub⟩, ⟨_, exec_subn_eq x y s, ?subn⟩⟩
  case sub =>
    simpa only [sub_eq_ofInt, notBorrowFlag_eq] using
      writesResultAndFlag s x y (fun vx vy => vx - vy) (notBorrowFlag (s.reg x) (s.reg y))
  case subn =>
    simpa only [sub_eq_ofInt, notBorrowFlag_eq] using
      writesResultAndFlag s x y (fun vx vy => vy - vx) (notBorrowFlag (s.reg y) (s.reg x))

/-- Settles O35: the one register write gives the wrapped sum, and its frame is VX alone. -/
theorem addImmediateWraps : Obligations.AddImmediateWraps := by
  intro s x nn
  refine ⟨_, exec_addImm_eq x nn s, ?sum, onlyChanges_setReg s x _⟩
  case sum => rw [State.reg_setReg_self, BitVec.toNat_add]

end Sys2Proof.Machine
end

section
/-! Addition to the index register (44_index_memory.md R191): the wrapped sum and its 16-bit overflow as numbers, the
execution under each value of the quirk, and the frame of the two writes. -/

namespace Sys2Proof.Machine

/-- The sum that the index register takes: VX is zero-extended, and the sum wraps at 16 bits. -/
theorem index_add_toNat (i : Word) (b : Byte) :
    (i + b.setWidth 16).toNat = (i.toNat + b.toNat) % 65536 := by
  rw [BitVec.toNat_add, BitVec.toNat_setWidth_of_le (by decide)]

/-- The 16-bit overflow flag, as `carryFlag_eq` is the 8-bit one. -/
theorem indexOverflowFlag_eq (i : Word) (b : Byte) :
    indexOverflowFlag i b = if i.toNat + b.toNat > 0xFFFF then 1#8 else 0#8 := by
  simp [indexOverflowFlag, flagByte]

/-- R191, quirk on: the index write, then the overflow of the old values to VF. -/
theorem exec_addI_of_quirk {s : State} (h : s.quirks.indexAddSetsVf = true) (x : Reg) :
    exec (.addI x) s =
      .next ((s.setIndex (s.i + (s.reg x).setWidth 16)).setReg vf (indexOverflowFlag s.i (s.reg x))) := by
  rw [exec_addI_eq, if_pos h]

/-- R191, quirk off: the index write alone. -/
theorem exec_addI_of_not_quirk {s : State} (h : s.quirks.indexAddSetsVf = false) (x : Reg) :
    exec (.addI x) s = .next (s.setIndex (s.i + (s.reg x).setWidth 16)) := by
  rw [exec_addI_eq, if_neg (ne_true_of_eq_false h)]

/-- An index write and a register write change those two pieces only. -/
theorem onlyChanges_setIndex_setReg (s : State) (a : Word) (x : Reg) (b : Byte) :
    OnlyChanges (these [.index, .reg x]) s ((s.setIndex a).setReg x b) :=
  ((onlyChanges_setIndex s a).trans (onlyChanges_setReg _ x b)).mono fun _ => List.mem_append.2

/-- Settles O41, by the two values of the quirk: each gives the same wrapped index, and only the one that is on adds the
flag write to it. -/
theorem addIndexWraps : Obligations.AddIndexWraps := by
  intro s x
  cases hq : s.quirks.indexAddSetsVf with
  | true =>
    refine ⟨_, exec_addI_of_quirk hq x, index_add_toNat s.i (s.reg x), fun _ => ⟨?flag, ?frame⟩, nofun⟩
    case flag => rw [State.reg_setReg_self, indexOverflowFlag_eq]
    case frame => exact onlyChanges_setIndex_setReg s _ vf _
  | false =>
    exact ⟨_, exec_addI_of_not_quirk hq x, index_add_toNat s.i (s.reg x), nofun, fun _ => onlyChanges_setIndex s _⟩

end Sys2Proof.Machine
end

section
/-! Clearing the display (45_display.md R220). -/

namespace Sys2Proof.Machine

/-- R220: the one state operation of CLS is the write of the blank display. -/
theorem exec_cls_eq (s : State) : exec .cls s = .next (s.setDisplay Display.blank) := rfl

/-- Settles O49: each cell of the blank display is 0, and a display write changes cells alone, so VF stands. -/
theorem clearZeroesEveryCell : Obligations.ClearZeroesEveryCell := by
  intro s
  refine ⟨s.setDisplay Display.blank, exec_cls_eq s, ?cells, onlyChanges_setDisplay s _⟩
  case cells =>
    intro x y
    rw [State.setDisplay_display, Display.cell_blank]

end Sys2Proof.Machine
end

section
/-! The random byte (46_timer_key_random.md R230). -/

namespace Sys2Proof.Machine

/-- R230: RND is one register write, of the masked answer, and one counted request. -/
theorem exec_rnd_eq (x : Reg) (nn : Byte) (s : State) :
    exec (.rnd x nn) s = .next (s.setReg x (s.randomByte &&& nn)).countRandom := rfl

/-- A register write and a counted request change those two pieces only. -/
theorem onlyChanges_setReg_countRandom (s : State) (x : Reg) (b : Byte) :
    OnlyChanges (these [.reg x, .randomCount]) s (s.setReg x b).countRandom :=
  ((onlyChanges_setReg s x b).trans (onlyChanges_countRandom _)).mono fun _ => List.mem_append.2

/-- Settles O53, by `exec_rnd_eq`: the answer, whichever byte it is, stays the free value of the old count; the counting
leaves the register just written, and the write leaves the count. -/
theorem randomByteIsMasked : Obligations.RandomByteIsMasked := by
  intro s x nn
  refine ⟨_, exec_rnd_eq x nn s, ?byte, ?count, onlyChanges_setReg_countRandom s x _⟩
  case byte => rw [State.reg_countRandom, State.reg_setReg_self]
  case count => rw [State.countRandom_randomCount, State.setReg_randomCount]

end Sys2Proof.Machine
end

section
/-! The sound of a step (60_exceptions.md R324; 46_timer_key_random.md R234 to R236): the events and `playing` are those
of the tick phase, to which only FX18 adds anything. -/

namespace Sys2Proof.Machine

/-- The state of the sound: `playing`, and the events signalled so far in the step. -/
def State.sound (s : State) : Bool × List SoundEvent := (s.playing, s.events)

/-! ## The updates and the shared operations that leave the sound -/

@[simp] theorem State.setMem_sound (s : State) (m : Memory) : (s.setMem m).sound = s.sound := rfl

@[simp] theorem State.setIndex_sound (s : State) (a : Word) : (s.setIndex a).sound = s.sound := rfl

@[simp] theorem State.setDisplay_sound (s : State) (d : Display) : (s.setDisplay d).sound = s.sound := rfl

@[simp] theorem State.setReg_sound (s : State) (x : Reg) (b : Byte) : (s.setReg x b).sound = s.sound := rfl

@[simp] theorem State.countFree_sound (s : State) : s.countFree.sound = s.sound := rfl

@[simp] theorem State.raise_sound (s : State) (f : Fault) : (s.raise f).sound = s.sound := rfl

@[simp] theorem State.skipIf_sound (s : State) (c : Bool) : (s.skipIf c).sound = s.sound := by
  rw [State.skipIf_eq]; rfl

@[simp] theorem State.writeResultAndFlag_sound (s : State) (x y : Reg) (r : Byte → Byte → Byte) (f : Byte) :
    (s.writeResultAndFlag x y r f).sound = s.sound := by
  rw [State.writeResultAndFlag_eq]; rfl

@[simp] theorem State.storeFreely_sound (s : State) (e a slot : Nat) (bs : List Byte) :
    (s.storeFreely e a slot bs).sound = s.sound := by
  rw [State.storeFreely_eq]; rfl

@[simp] theorem State.drawFreely_sound (s : State) (k : Canvas) : (s.drawFreely k).sound = s.sound := by
  obtain ⟨d, b, e, _⟩ := State.drawFreely_cases s k
  rw [e, State.setReg_sound, State.setDisplay_sound]

@[simp] theorem State.loadFirst_sound (s : State) (n : Nat) : (s.loadFirst n).sound = s.sound := by
  rw [State.loadFirst_eq]; rfl

@[simp] theorem State.awaitKey_sound (s : State) (x : Reg) : (s.awaitKey x).sound = s.sound := by
  rw [State.awaitKey_eq]; cases s.key <;> rfl

/-! ## The instructions -/

/-- Only FX18 writes `playing` or the events. -/
theorem exec_sound_of_ne_ldSTVx {i : Instr} {s t : State} (hi : ∀ x, i ≠ .ldSTVx x) (h : exec i s = .next t) :
    t.sound = s.sound := by
  cases i with
  | ldSTVx x => exact absurd rfl (hi x)
  | sys nnn => rw [(exec_sys_cases h).2]
  | ret => obtain ⟨_, _, _, rfl⟩ | ⟨_, rfl⟩ := exec_ret_cases h <;> rfl
  | call nnn => obtain ⟨_, rfl⟩ | ⟨_, rfl⟩ := exec_call_cases h <;> rfl
  | seImm | sneImm | seReg | sneReg | skp | sknp => cases h; exact State.skipIf_sound s _
  | addReg | subReg | shr | subn | shl => cases h; exact State.writeResultAndFlag_sound s _ _ _ _
  | addI x => simp [← Host.Outcome.next.inj ((exec_addI_eq x s).symm.trans h), apply_ite State.sound]
  | drw x y n =>
    obtain ⟨_, _, e, _⟩ | ⟨_, _, _, _, e, _⟩ | ⟨_, _, e⟩ := exec_drw_cases x y n s <;>
      simp [← Host.Outcome.next.inj (e.symm.trans h)]
  | ldB x =>
    obtain ⟨_, e⟩ | ⟨_, _, e⟩ | ⟨_, e⟩ := exec_ldB_cases x s <;>
      simp [← Host.Outcome.next.inj (e.symm.trans h)]
  | ldMemI x =>
    obtain ⟨_, e⟩ | ⟨_, e⟩ := exec_ldMemI_cases x s <;>
      simp [← Host.Outcome.next.inj (e.symm.trans h), apply_ite State.sound]
  | ldVxMem x =>
    obtain ⟨_, e⟩ | ⟨_, e⟩ := exec_ldVxMem_cases x s <;>
      simp [← Host.Outcome.next.inj (e.symm.trans h), apply_ite State.sound]
  | _ => cases h; rfl

/-- FX18 leaves the sound, or signals play and sets `playing` (R234 to R236). -/
theorem exec_ldSTVx_sound {x : Reg} {s t : State} (h : exec (.ldSTVx x) s = .next t) :
    t.sound = s.sound ∨ t.sound = (true, s.sound.2 ++ [.play]) := by
  obtain ⟨_, e⟩ | ⟨_, _, e⟩ := exec_ldSTVx_cases x s <;> obtain rfl := Host.Outcome.next.inj (e.symm.trans h)
  · exact .inr rfl
  · exact .inl rfl

/-- ALL THAT AN INSTRUCTION CAN DO TO THE SOUND. -/
theorem exec_sound {i : Instr} {s t : State} (h : exec i s = .next t) :
    t.sound = s.sound ∨ t.sound = (true, s.sound.2 ++ [.play]) := by
  by_cases hi : ∃ x, i = .ldSTVx x
  · obtain ⟨x, rfl⟩ := hi
    exact exec_ldSTVx_sound h
  · exact .inl (exec_sound_of_ne_ldSTVx (not_exists.1 hi) h)

/-! ## The step -/

theorem State.started_sound (s : State) (rate : Nat) (i : Instr) :
    (s.started rate i).sound = (s.ticked rate).sound := rfl

/-- ALL THAT A STEP CAN DO TO THE SOUND after its tick phase. -/
theorem step_sound {s t : State} {rate : Nat} (hr : s.stepRate = some rate) (h : step s = .next t) :
    t.sound = (s.ticked rate).sound ∨ t.sound = (true, (s.ticked rate).sound.2 ++ [.play]) := by
  obtain ⟨rate', hr', hcases⟩ := step_cases h
  obtain rfl : rate = rate' := Option.some.inj (hr.symm.trans hr')
  obtain ⟨x, _, rfl⟩ | ⟨_, ⟨f, _, rfl⟩ | ⟨w, _, _, ⟨_, rfl⟩ | ⟨i, _, hexec⟩⟩⟩ := hcases
  · exact .inl (State.awaitKey_sound _ x)
  · exact .inl rfl
  · exact .inl rfl
  · rw [← State.started_sound s rate i]
    exact exec_sound hexec

/-- R324, the sound-stop check signals: `playing` was set and the tick leaves the sound timer at 0. -/
theorem State.ticked_sound_of_stop {s : State} {rate : Nat} (hp : s.playing = true)
    (hz : (s.st.tick s.params.subratePolicy rate).current = 0) : (s.ticked rate).sound = (false, [.pause]) := by
  simp [State.sound, State.ticked_playing, State.ticked_events, hp, hz]

/-- R324, the sound-stop check does nothing: `playing` stays as it was, with no event. -/
theorem State.ticked_sound_of_not_stop {s : State} {rate : Nat}
    (h : ¬ (s.playing = true ∧ (s.st.tick s.params.subratePolicy rate).current = 0)) :
    (s.ticked rate).sound = (s.playing, []) := by
  rw [State.sound, State.ticked_events, if_neg h, State.ticked_playing]
  cases hp : s.playing
  · rfl
  · simpa [hp] using h

/-- Settles O59: the sound of a step is that of its tick phase, which signals pause and clears `playing` or does
nothing, followed by at most one play (`step_sound`). -/
theorem pauseIsSignalledOncePerTransition : Obligations.PauseIsSignalledOncePerTransition := by
  intro s t rate hr h
  have hs := step_sound hr h
  by_cases hstop : s.playing = true ∧ (s.st.tick s.params.subratePolicy rate).current = 0
  case pos =>
    rw [State.ticked_sound_of_stop hstop.1 hstop.2] at hs
    obtain hs | hs := hs <;> obtain ⟨hplaying, hevents⟩ := Prod.mk.inj hs <;>
      simp [hplaying, hevents, hstop]
  case neg =>
    rw [State.ticked_sound_of_not_stop hstop] at hs
    obtain hs | hs := hs <;> obtain ⟨hplaying, hevents⟩ := Prod.mk.inj hs <;>
      simpa [hplaying, hevents] using hstop

end Sys2Proof.Machine
end

section
/-! Construction of an image that fits (70_reset_and_hazards.md R400 to R405): the new instance, and where its memory
holds the image and the glyph table. -/

namespace Sys2Proof.Machine

/-- R401, R405: an image that fits constructs, as `construct_of_ge` says of one that does not; the memory is the one
that `byteAt_constructMemory` reads. -/
theorem construct_of_lt {image : List Byte} (q : Quirks) (p : Params) (font : Vector Byte 80) (l : Init)
    (h : image.length + 0x200 < memSize) :
    ∃ s, construct image q p font l = .ok s ∧ s.mem = constructMemory image font l.mem ∧ s.pc = 0x200#16 ∧
      s.stack = [] ∧ s.latch = none :=
  ⟨_, if_neg h.not_ge, rfl, rfl, rfl, rfl⟩

/-- R403: the image stands at 0x200. -/
theorem byteAt_constructMemory_image {image : List Byte} (font : Vector Byte 80) (mem : Memory) {k : Nat}
    (h : k < image.length) : (constructMemory image font mem).byteAt (0x200 + k) = image[k] := by
  rw [byteAt_constructMemory, if_pos (by omega), Nat.add_sub_cancel_left, List.getD_eq_getElem _ _ h]

/-- R402: the glyph table stands at 0, below the image. -/
theorem byteAt_constructMemory_font (image : List Byte) (font : Vector Byte 80) (mem : Memory) {k : Nat}
    (h : k < 80) : (constructMemory image font mem).byteAt k = font[k] := by
  rw [byteAt_constructMemory, if_neg (by omega), if_pos h, List.getD_eq_getElem _ _ (by simpa using h),
    Vector.getElem_toList]

/-- Settles O20: the instance is that of `construct_of_lt`, in whose memory the image and the glyph table are read at
their places. -/
theorem constructionPlacesTheImage : Obligations.ConstructionPlacesTheImage := by
  intro image q p font l hfits
  obtain ⟨s, hok, hmem, hpc, hstack, hlatch⟩ := construct_of_lt q p font l hfits
  refine ⟨s, hok, hpc, hstack, hlatch, fun k hk => ?image, fun k hk => ?font⟩
  case image => rw [hmem, byteAt_constructMemory_image font l.mem hk]
  case font => rw [hmem, byteAt_constructMemory_font image font l.mem hk]

end Sys2Proof.Machine
end

section
/-! Encoding and decoding (30_encoding.md sections 1 to 4): each is the other's inverse, bucket by bucket, and the words
that no bucket takes. -/

namespace Sys2Proof.Machine

/-! ## Decoding what was encoded -/

theorem decode_of_bucket0 {w : Word} (h : fieldPrefix w = 0x0#4) : decode w = .ok (decodeBucket0 w) := by
  simp [decode, h]

theorem packNNN_ne {p : BitVec 4} {a b : Addr12} (h : a ≠ b) : packNNN p a ≠ packNNN p b := fun e =>
  h (by simpa only [fieldNNN_packNNN] using congrArg fieldNNN e)

/-- Bucket 0 (R75): an operand of SYS that is neither 0E0 nor 0EE decodes as SYS. -/
theorem decode_packNNN_zero {nnn : Addr12} (hcls : nnn ≠ 0x0E0#12) (hret : nnn ≠ 0x0EE#12) :
    decode (packNNN 0x0#4 nnn) = .ok (.sys nnn) := by
  rw [decode_of_bucket0 (fieldPrefix_packNNN _ _), decodeBucket0, fieldNNN_packNNN,
    if_neg (show packNNN 0x0#4 nnn ≠ 0x00E0#16 from packNNN_ne hcls),
    if_neg (show packNNN 0x0#4 nnn ≠ 0x00EE#16 from packNNN_ne hret)]

/-- The decoder undoes the encoder: it reads the fields that the encoder packed. -/
theorem decode_encode {i : Instr} (h : i.wellFormed = true) : decode (encode i) = .ok i := by
  cases i with
  | sys nnn =>
    simp only [Instr.wellFormed, Bool.and_eq_true, bne_iff_ne] at h
    exact decode_packNNN_zero h.1 h.2
  | cls | ret => rfl
  | jp | call | ldI | jpV0 => simp [encode, decode, fieldPrefix_packNNN, fieldNNN_packNNN]
  | seImm | sneImm | ldImm | addImm | rnd =>
    simp [encode, decode, fieldPrefix_packXNN, fieldX_packXNN, fieldNN_packXNN]
  | skp | sknp =>
    simp [encode, decode, decodeBucketE, fieldPrefix_packXNN, fieldX_packXNN, fieldNN_packXNN]
  | ldVxDT | ldVxK | ldDTVx | ldSTVx | addI | ldF | ldB | ldMemI | ldVxMem =>
    simp [encode, decode, decodeBucketF, fieldPrefix_packXNN, fieldX_packXNN, fieldNN_packXNN]
  | seReg | sneReg | drw =>
    simp [encode, decode, fieldPrefix_packXYN, fieldX_packXYN, fieldY_packXYN, fieldN_packXYN]
  | ldReg | orReg | andReg | xorReg | addReg | subReg | shr | subn | shl =>
    simp [encode, decode, decodeBucket8, fieldPrefix_packXYN, fieldX_packXYN, fieldY_packXYN, fieldN_packXYN]

/-- Settles O2: the two bytes put together again are the encoded word, which decodes by `decode_encode`. -/
theorem encodeThenDecode : Obligations.EncodeThenDecode := by
  intro i rest hwf
  simp only [encodeBytes, List.cons_append, List.nil_append, decodeBytes, wordOfBytes_bytes, decode_encode hwf]

/-- Settles O1, by running the decoder on each of the words. -/
theorem opcodeMapWordsDecode : Obligations.OpcodeMapWordsDecode := by
  unfold Obligations.OpcodeMapWordsDecode
  decide

/-! ## Encoding what was decoded -/

/-- A field given by its number. -/
theorem eq_ofNat_of_toNat {n k : Nat} {f : BitVec n} (h : f.toNat = k) : f = BitVec.ofNat n k := by
  rw [← h, BitVec.ofNat_toNat, BitVec.setWidth_eq]

theorem packNNN_of_bucket {w : Word} {p : BitVec 4} (hp : fieldPrefix w = p) : packNNN p (fieldNNN w) = w := by
  rw [← hp, packNNN_fields]

theorem packXNN_of_bucket {w : Word} {p : BitVec 4} {nn : Byte} (hp : fieldPrefix w = p) (hnn : fieldNN w = nn) :
    packXNN p (fieldX w) nn = w := by
  rw [← hp, ← hnn, packXNN_fields]

theorem packXYN_of_bucket {w : Word} {p : BitVec 4} {n : Nibble} (hp : fieldPrefix w = p) (hn : fieldN w = n) :
    packXYN p (fieldX w) (fieldY w) n = w := by
  rw [← hp, ← hn, packXYN_fields]

/-- Bucket 0. -/
theorem encode_decodeBucket0 {w : Word} (hp : fieldPrefix w = 0x0#4) :
    encode (decodeBucket0 w) = w ∧ (decodeBucket0 w).wellFormed = true := by
  unfold decodeBucket0
  split
  · exact ⟨Eq.symm ‹_›, rfl⟩
  · split
    · exact ⟨Eq.symm ‹_›, rfl⟩
    · rename_i hcls hret
      have field_ne {a : Addr12} (h : w ≠ packNNN 0x0#4 a) : fieldNNN w ≠ a := fun e =>
        h (by rw [← e, packNNN_of_bucket hp])
      refine ⟨packNNN_of_bucket hp, ?_⟩
      simp only [Instr.wellFormed, Bool.and_eq_true, bne_iff_ne]
      exact ⟨field_ne hcls, field_ne hret⟩

/-- The last bucket is what the others leave. -/
theorem fieldPrefix_eq_F {w : Word} (h : 14 < (fieldPrefix w).toNat) : fieldPrefix w = 0xF#4 :=
  eq_ofNat_of_toNat (Nat.le_antisymm (Nat.le_of_lt_succ (fieldPrefix w).isLt) h)

/-- Bucket 8. -/
theorem encode_of_decodeBucket8 {w : Word} {i : Instr} (hp : fieldPrefix w = 0x8#4)
    (h : decodeBucket8 w = .ok i) : encode i = w ∧ i.wellFormed = true := by
  unfold decodeBucket8 at h
  split at h <;> cases h <;> exact ⟨packXYN_of_bucket hp (eq_ofNat_of_toNat ‹_›), rfl⟩

/-- Bucket E. -/
theorem encode_of_decodeBucketE {w : Word} {i : Instr} (hp : fieldPrefix w = 0xE#4)
    (h : decodeBucketE w = .ok i) : encode i = w ∧ i.wellFormed = true := by
  unfold decodeBucketE at h
  split at h <;> cases h <;> exact ⟨packXNN_of_bucket hp (eq_ofNat_of_toNat ‹_›), rfl⟩

/-- Bucket F. -/
theorem encode_of_decodeBucketF {w : Word} {i : Instr} (hp : fieldPrefix w = 0xF#4)
    (h : decodeBucketF w = .ok i) : encode i = w ∧ i.wellFormed = true := by
  unfold decodeBucketF at h
  split at h <;> cases h <;> exact ⟨packXNN_of_bucket hp (eq_ofNat_of_toNat ‹_›), rfl⟩

/-- Settles O3, by the buckets of the decoder: the decoded operands are the fields of the word, and the rest of the word
is what the bucket fixes. -/
theorem decodeThenEncode : Obligations.DecodeThenEncode := by
  intro w i h
  unfold decode at h
  split at h <;> rename_i hp
  case h_16 => exact encode_of_decodeBucketF (fieldPrefix_eq_F (by grind)) h
  all_goals have hp := eq_ofNat_of_toNat hp
  case h_1 => cases h; exact encode_decodeBucket0 hp
  case h_2 | h_3 | h_11 | h_12 => cases h; exact ⟨packNNN_of_bucket hp, rfl⟩
  case h_4 | h_5 | h_7 | h_8 | h_13 => cases h; exact ⟨packXNN_of_bucket hp rfl, rfl⟩
  case h_6 | h_10 =>
    split at h <;> cases h
    exact ⟨packXYN_of_bucket hp ‹_›, rfl⟩
  case h_14 => cases h; exact ⟨packXYN_of_bucket hp rfl, rfl⟩
  case h_9 => exact encode_of_decodeBucket8 hp h
  case h_15 => exact encode_of_decodeBucketE hp h

/-! ## The words that no bucket takes -/

/-- Bucket 8 (R78). -/
theorem decodeBucket8_invalid_iff (w : Word) : decodeBucket8 w = .error (.invalid w) ↔
    8#4 ≤ fieldN w ∧ fieldN w ≤ 0xD#4 ∨ fieldN w = 0xF#4 := by
  have hlt := (fieldN w).isLt
  unfold decodeBucket8
  simp only [BitVec.le_def, ← BitVec.toNat_inj, BitVec.toNat_ofNat]
  split <;> simp_all
  omega

/-- Bucket E (R78). -/
theorem decodeBucketE_invalid_iff (w : Word) : decodeBucketE w = .error (.invalid w) ↔
    fieldNN w ∉ [0x9E#8, 0xA1#8] := by
  unfold decodeBucketE
  simp only [List.mem_cons, List.not_mem_nil, ← BitVec.toNat_inj, BitVec.toNat_ofNat]
  split <;> simp_all

/-- Bucket F (R78). -/
theorem decodeBucketF_invalid_iff (w : Word) : decodeBucketF w = .error (.invalid w) ↔
    fieldNN w ∉ [0x07#8, 0x0A#8, 0x15#8, 0x18#8, 0x1E#8, 0x29#8, 0x33#8, 0x55#8, 0x65#8] := by
  unfold decodeBucketF
  simp only [List.mem_cons, List.not_mem_nil, ← BitVec.toNat_inj, BitVec.toNat_ofNat]
  split <;> simp_all

/-- Settles O4, by the buckets of the decoder: the three that dispatch further have a lemma each, buckets 5 and 9 look
at N, and every other bucket takes all its words. -/
theorem invalidWordsAreExactlyTheListed : Obligations.InvalidWordsAreExactlyTheListed := by
  intro w
  unfold decode
  split <;> rename_i hp
  case h_16 => simp [fieldPrefix_eq_F (w := w) (by grind), decodeBucketF_invalid_iff]
  all_goals have hp := eq_ofNat_of_toNat hp
  case h_9 => simp [hp, decodeBucket8_invalid_iff]
  case h_15 => simp [hp, decodeBucketE_invalid_iff]
  all_goals simp [hp]

/-! ## The mnemonic text -/

/-- Settles O5: but for the two shifts the text is the same term for all quirks; a shift's reads its own flag alone. -/
theorem mnemonicDependsOnQuirksForShiftsOnly : Obligations.MnemonicDependsOnQuirksForShiftsOnly := by
  intro q q' i h
  cases i with
  | shr x y => exact .inl ⟨x, y, rfl, fun e => h (by simp only [mnemonicText, e])⟩
  | shl x y => exact .inr ⟨x, y, rfl, fun e => h (by simp only [mnemonicText, e])⟩
  | _ => exact absurd rfl h

end Sys2Proof.Machine
end

section
/-! Frames named by lists of pieces, and the checked register accesses past the last register (10_state.md R22). -/

namespace Sys2Proof.Machine

/-- Two transitions after each other change the pieces that either changes. -/
theorem OnlyChanges.trans_these {l l' m : List Piece} {s t u : State} (h : OnlyChanges (these l) s t)
    (h' : OnlyChanges (these l') t u) (hm : l ++ l' ⊆ m) : OnlyChanges (these m) s u :=
  (h.trans h').mono fun _ hp => hm (List.mem_append.2 hp)

theorem OnlyChanges.mono_these {l m : List Piece} {s t : State} (h : OnlyChanges (these l) s t) (hm : l ⊆ m) :
    OnlyChanges (these m) s t := h.mono fun _ hp => hm hp

theorem State.regRead_of_ge (s : State) {k : Nat} (h : 16 ≤ k) : s.regRead k = .error (.invalidRegister k) :=
  if_neg h.not_gt

theorem State.regWrite_of_ge (s : State) {k : Nat} (b : Byte) (h : 16 ≤ k) :
    s.regWrite k b = .error (.invalidRegister k) := if_neg h.not_gt

/-- Settles O23, by the equations of a read and a write on the two sides of the index 16. -/
theorem registerAccessIsChecked : Obligations.RegisterAccessIsChecked := by
  intro s k b
  refine ⟨fun hin => ⟨State.regRead_of_lt s hin, ?write⟩,
    fun hout => ⟨State.regRead_of_ge s hout, State.regWrite_of_ge s b hout⟩⟩
  case write =>
    exact ⟨_, State.regWrite_of_lt s b hin, State.reg_setReg_self s _ b, onlyChanges_setReg s _ b⟩

end Sys2Proof.Machine
end

section
/-! Control transfer (41_flow.md R120 to R124): each execution as updates of `pc` and the stack, or as the fault it
takes. -/

namespace Sys2Proof.Machine

/-! ## SYS and the jumps -/

/-- R120 under `nop`. -/
theorem exec_sys_of_nop {s : State} (h : s.params.sysPolicy = .nop) (nnn : Addr12) : exec (.sys nnn) s = .next s := by
  simp only [exec, execSys, h]

/-- R120 under `refuse`. -/
theorem exec_sys_of_refuse {s : State} (h : s.params.sysPolicy = .refuse) (nnn : Addr12) :
    exec (.sys nnn) s = .refused .sysRefused := by
  simp only [exec, execSys, h]

/-- R122. -/
theorem exec_jp_eq (nnn : Addr12) (s : State) : exec (.jp nnn) s = .next (s.setPc (zextAddr nnn)) := rfl

/-- R124. -/
theorem exec_jpV0_eq (nnn : Addr12) (s : State) : exec (.jpV0 nnn) s = .next (s.setPc (s.offsetTarget nnn)) := rfl

/-- Settles O26, by the two values of the policy. -/
theorem sysFollowsItsPolicy : Obligations.SysFollowsItsPolicy := by
  intro s nnn
  exact ⟨fun hnop => ⟨s, exec_sys_of_nop hnop nnn, OnlyChanges.refl _ s⟩,
    fun hrefuse => exec_sys_of_refuse hrefuse nnn⟩

/-- Settles O27: both jumps are one write of `pc`, and neither target wraps (`zextAddr_toNat`,
`State.offsetTarget_toNat`). -/
theorem jumpsSetThePc : Obligations.JumpsSetThePc := by
  intro s nnn
  exact ⟨⟨_, exec_jp_eq nnn s, zextAddr_toNat nnn, onlyChanges_setPc s _⟩,
    ⟨_, exec_jpV0_eq nnn s, s.offsetTarget_toNat nnn, onlyChanges_setPc s _⟩⟩

/-! ## CALL and RET -/

/-- R123 with room on the stack. -/
theorem exec_call_of_lt {s : State} (h : s.stack.length < stackCap) (nnn : Addr12) :
    exec (.call nnn) s = .next ((s.setStack (s.pc :: s.stack)).setPc (zextAddr nnn)) := by
  simp only [exec, execCall, State.push_of_lt h]

/-- R123 on a full stack. -/
theorem exec_call_of_le {s : State} (h : stackCap ≤ s.stack.length) (nnn : Addr12) :
    exec (.call nnn) s = .next (s.raise .callStackOverflow) := by
  simp only [exec, execCall, State.push_of_le h]

/-- R121 with an entry on the stack. -/
theorem exec_ret_of_cons {s : State} {a : Word} {l : List Word} (h : s.stack = a :: l) :
    exec .ret s = .next ((s.setStack l).setPc a) := by
  simp only [exec, execRet, State.pop_of_cons h]

/-- R121 on an empty stack. -/
theorem exec_ret_of_nil {s : State} (h : s.stack = []) : exec .ret s = .next (s.raise .callStackEmpty) := by
  simp only [exec, execRet, State.pop_of_nil h]

theorem onlyChanges_setStack_setPc (s : State) (l : List Word) (a : Word) :
    OnlyChanges (these [.pc, .stack]) s ((s.setStack l).setPc a) :=
  (onlyChanges_setStack s l).trans_these (onlyChanges_setPc _ a) (by simp)

/-- A fault taken in the state itself changes the result and the record alone. -/
theorem takesFault_raise (f : Fault) (may : Piece → Prop) (s : State) : TakesFault f may s (s.raise f) :=
  TakesFault.of_raise f (OnlyChanges.refl may s) rfl

/-- Settles O28, by the two equations of CALL. -/
theorem callPushesAndJumps : Obligations.CallPushesAndJumps := by
  intro s nnn
  refine ⟨fun hroom => ?room, fun hfull => ?full⟩
  case room =>
    exact ⟨_, exec_call_of_lt hroom nnn, by simp, zextAddr_toNat nnn, onlyChanges_setStack_setPc s _ _⟩
  case full => exact ⟨_, exec_call_of_le hfull nnn, takesFault_raise _ _ s⟩

/-- Settles O29, by the two equations of RET. -/
theorem returnPopsIntoThePc : Obligations.ReturnPopsIntoThePc := by
  intro s
  refine ⟨fun a rest hcons => ?entry, fun hnil => ?empty⟩
  case entry => exact ⟨_, exec_ret_of_cons hcons, rfl, by simp, onlyChanges_setStack_setPc s _ _⟩
  case empty => exact ⟨_, exec_ret_of_nil hnil, takesFault_raise _ _ s⟩

/-- Settles O30: RET pops what CALL pushed, and writing back the old `pc` and the old stack gives the old state. -/
theorem callThenReturnComesBack : Obligations.CallThenReturnComesBack := by
  intro s nnn hroom
  have hpop : exec .ret ((s.setStack (s.pc :: s.stack)).setPc (zextAddr nnn)) = .next s := exec_ret_of_cons rfl
  exact ⟨_, s, exec_call_of_lt hroom nnn, hpop, OnlyChanges.refl _ s⟩

end Sys2Proof.Machine
end

section
/-! The skips on an immediate, on unequal registers and on the key (42_skip.md R141 to R146): each execution as the
shared skip operation. -/

namespace Sys2Proof.Machine

/-- R141. -/
theorem exec_seImm_eq (x : Reg) (nn : Byte) (s : State) :
    exec (.seImm x nn) s = .next (s.skipIf (s.reg x == nn)) := rfl

/-- R142. -/
theorem exec_sneImm_eq (x : Reg) (nn : Byte) (s : State) :
    exec (.sneImm x nn) s = .next (s.skipIf (s.reg x != nn)) := rfl

/-- R144. -/
theorem exec_sneReg_eq (x y : Reg) (s : State) :
    exec (.sneReg x y) s = .next (s.skipIf (s.reg x != s.reg y)) := rfl

/-- R145. -/
theorem exec_skp_eq (x : Reg) (s : State) : exec (.skp x) s = .next (s.skipIf (s.keyPressed (s.reg x))) := rfl

/-- R146. -/
theorem exec_sknp_eq (x : Reg) (s : State) : exec (.sknp x) s = .next (s.skipIf (!s.keyPressed (s.reg x))) := rfl

/-- Settles O31: each is the shared skip with its own condition. -/
theorem compareSkips : Obligations.CompareSkips := by
  intro s x y nn
  refine ⟨⟨_, exec_seImm_eq x nn s, ?_, onlyChanges_skipIf s _⟩,
    ⟨_, exec_sneImm_eq x nn s, ?_, onlyChanges_skipIf s _⟩, ⟨_, exec_sneReg_eq x y s, ?_, onlyChanges_skipIf s _⟩⟩ <;>
  simp only [State.skipIf_pc, beq_iff_eq, bne_iff_ne]

/-- Settles O33: both are the shared skip, on the condition of `State.keyPressed_iff` and on its negation. -/
theorem keySkips : Obligations.KeySkips := by
  intro s x
  refine ⟨⟨_, exec_skp_eq x s, onlyChanges_skipIf s _, ?pressed⟩,
    ⟨_, exec_sknp_eq x s, onlyChanges_skipIf s _, ?released⟩⟩
  case pressed => simp only [State.skipIf_pc, State.keyPressed_iff]
  case released => simp only [State.skipIf_pc, Bool.not_eq_true', ← Bool.not_eq_true, State.keyPressed_iff, ite_not]

end Sys2Proof.Machine
end

section
/-! Register loads, logic and shifts (43_alu.md R161 to R171): each execution as one register write, or for the shifts
as one result/flag write. -/

namespace Sys2Proof.Machine

/-! ## Loads and logic -/

/-- R161. -/
theorem exec_ldImm_eq (x : Reg) (nn : Byte) (s : State) : exec (.ldImm x nn) s = .next (s.setReg x nn) := rfl

/-- R163. -/
theorem exec_ldReg_eq (x y : Reg) (s : State) : exec (.ldReg x y) s = .next (s.setReg x (s.reg y)) := rfl

/-- R164. -/
theorem exec_orReg_eq (x y : Reg) (s : State) :
    exec (.orReg x y) s = .next (s.setReg x (s.reg x ||| s.reg y)) := rfl

/-- R165. -/
theorem exec_andReg_eq (x y : Reg) (s : State) :
    exec (.andReg x y) s = .next (s.setReg x (s.reg x &&& s.reg y)) := rfl

/-- R166. -/
theorem exec_xorReg_eq (x y : Reg) (s : State) :
    exec (.xorReg x y) s = .next (s.setReg x (s.reg x ^^^ s.reg y)) := rfl

/-- Settles O34: both are one register write of the operand. -/
theorem loadsCopyTheirOperand : Obligations.LoadsCopyTheirOperand := by
  intro s x y nn
  exact ⟨⟨_, exec_ldImm_eq x nn s, State.reg_setReg_self s x _, onlyChanges_setReg s x _⟩,
    ⟨_, exec_ldReg_eq x y s, State.reg_setReg_self s x _, onlyChanges_setReg s x _⟩⟩

/-- Settles O36: each is one register write, of a byte whose bits are those of its operation. -/
theorem logicIsBitwise : Obligations.LogicIsBitwise := by
  intro s x y
  refine ⟨⟨_, exec_orReg_eq x y s, onlyChanges_setReg s x _, fun k => ?or⟩,
    ⟨_, exec_andReg_eq x y s, onlyChanges_setReg s x _, fun k => ?and⟩,
    ⟨_, exec_xorReg_eq x y s, onlyChanges_setReg s x _, fun k => ?xor⟩⟩
  case or => rw [State.reg_setReg_self, BitVec.getLsbD_or]
  case and => rw [State.reg_setReg_self, BitVec.getLsbD_and]
  case xor => rw [State.reg_setReg_self, BitVec.getLsbD_xor]

/-! ## The shifts -/

/-- R169: the result/flag write of the source moved right and its lowest bit. -/
theorem exec_shr_eq (x y : Reg) (s : State) :
    exec (.shr x y) s = .next (s.writeResultAndFlag x y (fun vx vy => shiftSource s.quirks.shrUsesVy vx vy >>> 1)
      (lowBitFlag (shiftSource s.quirks.shrUsesVy (s.reg x) (s.reg y)))) := rfl

/-- R171: the result/flag write of the source moved left and its highest bit. -/
theorem exec_shl_eq (x y : Reg) (s : State) :
    exec (.shl x y) s = .next (s.writeResultAndFlag x y (fun vx vy => shiftSource s.quirks.shlUsesVy vx vy <<< 1)
      (highBitFlag (shiftSource s.quirks.shlUsesVy (s.reg x) (s.reg y)))) := rfl

theorem shiftRight_one_eq (v : Byte) : v >>> 1 = BitVec.ofNat 8 (v.toNat / 2) :=
  eq_ofNat_of_toNat (by rw [BitVec.toNat_ushiftRight, Nat.shiftRight_eq_div_pow, pow_one])

theorem shiftLeft_one_eq (v : Byte) : v <<< 1 = BitVec.ofNat 8 (v.toNat * 2 % 256) :=
  eq_ofNat_of_toNat (by rw [BitVec.toNat_shiftLeft, Nat.shiftLeft_eq, pow_one])

theorem lowBitFlag_eq (v : Byte) : lowBitFlag v = BitVec.ofNat 8 (v.toNat % 2) := eq_ofNat_of_toNat (lowBitFlag_toNat v)

theorem highBitFlag_eq (v : Byte) : highBitFlag v = BitVec.ofNat 8 (v.toNat / 128) :=
  eq_ofNat_of_toNat (highBitFlag_toNat v)

/-- Settles O39: whatever the order of the two writes, the result/flag write meets its predicate
(`writesResultAndFlag`); moving by one bit halves or doubles, and the bit shifted out is the remainder or the
quotient. -/
theorem shiftsMoveOneBit : Obligations.ShiftsMoveOneBit := by
  intro s x y
  refine ⟨⟨_, exec_shr_eq x y s, ?shr⟩, ⟨_, exec_shl_eq x y s, ?shl⟩⟩
  case shr =>
    simpa only [shiftRight_one_eq, lowBitFlag_eq, shiftSource] using
      writesResultAndFlag s x y (fun vx vy => shiftSource s.quirks.shrUsesVy vx vy >>> 1)
        (lowBitFlag (shiftSource s.quirks.shrUsesVy (s.reg x) (s.reg y)))
  case shl =>
    simpa only [shiftLeft_one_eq, highBitFlag_eq, shiftSource] using
      writesResultAndFlag s x y (fun vx vy => shiftSource s.quirks.shlUsesVy vx vy <<< 1)
        (highBitFlag (shiftSource s.quirks.shlUsesVy (s.reg x) (s.reg y)))

end Sys2Proof.Machine
end

section
/-! The loads of the index register (44_index_memory.md R190, R193), the timer and sound registers and the key wait
(46_timer_key_random.md R231 to R236). -/

namespace Sys2Proof.Machine

/-! ## The index register -/

/-- R190. -/
theorem exec_ldI_eq (nnn : Addr12) (s : State) : exec (.ldI nnn) s = .next (s.setIndex (zextAddr nnn)) := rfl

/-- R193. -/
theorem exec_ldF_eq (x : Reg) (s : State) :
    exec (.ldF x) s = .next (s.setIndex (glyphAddress s.params.fontCodePolicy (s.reg x))) := rfl

/-- Settles O40: one write of the index, of the zero-extended address. -/
theorem loadIndexZeroExtends : Obligations.LoadIndexZeroExtends := by
  intro s nnn
  exact ⟨_, exec_ldI_eq nnn s, zextAddr_toNat nnn, onlyChanges_setIndex s _⟩

/-- Settles O42: one write of the index, of the glyph address on the two sides of the code 15. -/
theorem fontAddressIsFiveTimesTheCode : Obligations.FontAddressIsFiveTimesTheCode := by
  intro s x
  refine ⟨_, exec_ldF_eq x s, onlyChanges_setIndex s _, glyphAddress_of_le _,
    fun hgt hmask => ?mask, fun hgt hun => ?unmasked⟩
  case mask => rw [State.setIndex_i, glyphAddress_of_gt _ hgt, hmask]
  case unmasked => rw [State.setIndex_i, glyphAddress_of_gt _ hgt, hun]

/-! ## Timers, sound and key wait -/

/-- R231. -/
theorem exec_ldVxDT_eq (x : Reg) (s : State) : exec (.ldVxDT x) s = .next (s.setReg x s.dt.current) := rfl

/-- R233. -/
theorem exec_ldDTVx_eq (x : Reg) (s : State) : exec (.ldDTVx x) s = .next (s.setDT (s.dt.set (s.reg x))) := rfl

/-- R232. -/
theorem exec_ldVxK_eq (x : Reg) (s : State) : exec (.ldVxK x) s = .next (s.setLatch (some x)) := rfl

/-- The accumulator starts at 0 (60_exceptions.md R321; 70_reset_and_hazards.md R406). -/
theorem Frac.value_zero : (Frac.mk 0 1).value = 0 := by simp [Frac.value]

/-- Settles O54: FX07 is one register write and FX15 one set of the delay timer. -/
theorem delayTimerReadAndSet : Obligations.DelayTimerReadAndSet := by
  intro s x
  exact ⟨⟨_, exec_ldVxDT_eq x s, State.reg_setReg_self s x _, onlyChanges_setReg s x _⟩,
    ⟨_, exec_ldDTVx_eq x s, rfl, rfl, Frac.value_zero, onlyChanges_setDT s _⟩⟩

/-- Settles O56: one write of the latch. -/
theorem keyWaitSetsTheLatch : Obligations.KeyWaitSetsTheLatch := by
  intro s x
  exact ⟨_, exec_ldVxK_eq x s, rfl, onlyChanges_setLatch s _⟩

theorem onlyChanges_setST_startSound (s : State) (t : Timer) :
    OnlyChanges (these [.st, .playing, .events]) s (s.setST t).startSound :=
  (onlyChanges_setST s t).trans_these (onlyChanges_startSound _) (List.Subset.refl _)

/-- Settles O55, by the two ways FX18 ends (`exec_ldSTVx_cases`): each excludes the other's premise. -/
theorem soundTimerStartsTheSound : Obligations.SoundTimerStartsTheSound := by
  intro s x
  obtain ⟨hloud, e⟩ | ⟨hzero, hquiet, e⟩ := exec_ldSTVx_cases x s
  · refine ⟨_, e, rfl, rfl, Frac.value_zero, fun _ => ⟨rfl, rfl, onlyChanges_setST_startSound s _⟩, fun hsilent => ?_⟩
    obtain ⟨hzero, hquiet⟩ := hsilent
    exact absurd hloud (by simp [hzero, hquiet])
  · refine ⟨_, e, rfl, rfl, Frac.value_zero, fun hloud => ?_, fun _ => onlyChanges_setST s _⟩
    exact absurd hloud (by simp [hzero, hquiet])

end Sys2Proof.Machine
end

section
/-! FX33, FX55 and FX65 (44_index_memory.md R192 to R196): an equation per case of each, on the two sides of the last
address, and what the bytes and registers then hold. -/

namespace Sys2Proof.Machine

theorem memSize_eq : memSize = 4096 := rfl

/-! ## Bytes written at rising addresses -/

/-- The byte at an offset of the bytes written. -/
theorem Memory.byteAt_setBytes_add (m : Memory) (a : Nat) (bs : List Byte) {k : Nat} (h : k < bs.length) :
    (m.setBytes a bs).byteAt (a + k) = bs.getD k 0 := by
  rw [Memory.byteAt_setBytes, if_pos (by omega), Nat.add_sub_cancel_left]

/-- Free storing changes bytes in range alone (R194). -/
theorem onlyChanges_storeFreely (s : State) (e a slot : Nat) (bs : List Byte) :
    OnlyChanges (bytesFrom a (min bs.length (memSize - a))) s (s.storeFreely e a slot bs) := by
  intro p hp
  rw [State.storeFreely_eq]
  cases p with
  | mem c =>
    simp only [Piece.same, State.setMem_mem, State.byteAt_storeFreely]
    refine if_neg fun hc => hp ⟨c - a, ?_, ?_⟩
    · omega
    · rw [Nat.add_sub_cancel' hc.1.1]
  | _ => rfl

/-! ## FX33 -/

/-- R194, all three digits in range. -/
theorem exec_ldB_of_fits {s : State} (h : s.i.toNat + 2 ≤ 4095) (x : Reg) :
    exec (.ldB x) s = .next (s.setMem (s.mem.setBytes s.i.toNat (bcdDigits (s.reg x)))) := by
  have hsize := memSize_eq
  obtain ⟨_, e⟩ | ⟨_, _, _⟩ | ⟨_, _⟩ := exec_ldB_cases x s
  · exact e
  · omega
  · omega

/-- R194, the first digit in range and the last one not. -/
theorem exec_ldB_of_partial {s : State} (h : 4095 < s.i.toNat + 2) (hi : s.i.toNat < 4096) (x : Reg) :
    exec (.ldB x) s = .next (((s.storeFreely s.freeCount s.i.toNat 0 (bcdDigits (s.reg x))).countFree).raise
      (.memFault 4096)) := by
  have hsize := memSize_eq
  obtain ⟨_, _⟩ | ⟨_, _, e⟩ | ⟨_, _⟩ := exec_ldB_cases x s
  · omega
  · exact e
  · omega

/-- R194, no digit in range. -/
theorem exec_ldB_of_out {s : State} (hi : 4096 ≤ s.i.toNat) (x : Reg) :
    exec (.ldB x) s = .next (s.raise (.memFault s.i.toNat)) := by
  have hsize := memSize_eq
  obtain ⟨_, _⟩ | ⟨_, _, _⟩ | ⟨_, e⟩ := exec_ldB_cases x s
  · omega
  · omega
  · exact e

theorem bcdDigits_hundreds (v : Byte) : ((bcdDigits v).getD 0 0).toNat = v.toNat / 100 := by
  have := v.isLt
  simp [bcdDigits]
  omega

theorem bcdDigits_tens (v : Byte) : ((bcdDigits v).getD 1 0).toNat = v.toNat / 10 % 10 := by
  simp [bcdDigits]
  omega

theorem bcdDigits_ones (v : Byte) : ((bcdDigits v).getD 2 0).toNat = v.toNat % 10 := by
  simp [bcdDigits]
  omega

/-- Settles O43: one write of the three digits, each read at its offset. -/
theorem bcdStoresThreeDigits : Obligations.BcdStoresThreeDigits := by
  intro s x hfits
  have hbyte {k : Nat} (hk : k < 3) :
      (s.mem.setBytes s.i.toNat (bcdDigits (s.reg x))).byteAt (s.i.toNat + k) = (bcdDigits (s.reg x)).getD k 0 :=
    Memory.byteAt_setBytes_add _ _ _ hk
  refine ⟨_, exec_ldB_of_fits hfits x, ?hundreds, ?tens, ?ones, onlyChanges_setBytes s _ (bcdDigits (s.reg x))⟩
  case hundreds => exact (congrArg _ (hbyte (k := 0) (by omega))).trans (bcdDigits_hundreds _)
  case tens => exact (congrArg _ (hbyte (by omega))).trans (bcdDigits_tens _)
  case ones => exact (congrArg _ (hbyte (by omega))).trans (bcdDigits_ones _)

/-- R194: the first digits are free to be stored, and no other piece but the count of partial faults changes. -/
theorem takesFault_ldB_partial {s : State} (h : 4095 < s.i.toNat + 2) (x : Reg) :
    TakesFault (.memFault 4096) (fun p => bytesFrom s.i.toNat 2 p ∨ p = .freeCount) s
      (((s.storeFreely s.freeCount s.i.toNat 0 (bcdDigits (s.reg x))).countFree).raise (.memFault 4096)) := by
  have hsize := memSize_eq
  refine TakesFault.of_raise _ (((onlyChanges_storeFreely s _ _ _ _).trans (onlyChanges_countFree _)).mono ?_) ?_
  · rintro p (⟨k, hk, rfl⟩ | hp)
    · exact .inl ⟨k, by rw [bcdDigits_length] at hk; omega, rfl⟩
    · exact .inr (List.mem_singleton.1 hp)
  · rw [State.storeFreely_eq]; rfl

/-- Settles O44: on the two sides of the index 4096; below it each byte is what free storing leaves. -/
theorem bcdFaultLeavesOldOrDigit : Obligations.BcdFaultLeavesOldOrDigit := by
  intro s x hout
  by_cases hi : s.i.toNat < 4096
  case pos =>
    refine ⟨_, exec_ldB_of_partial hout hi x, ?fault, fun k hk => ?bytes, fun hge => absurd hi hge.not_gt⟩
    case fault =>
      rw [Nat.max_eq_right hi.le]
      exact takesFault_ldB_partial hout x
    case bytes =>
      simp only [State.raise_mem, State.countFree_mem, State.byteAt_storeFreely]
      by_cases hnew : s.i.toNat + k < memSize ∧ Config.freeChoice s.freeCount k = true
      · refine .inr ⟨hnew.1, ?_, ?_⟩
        · rintro rfl
          rw [if_pos (by simpa [bcdDigits_length] using hnew), Nat.sub_self, bcdDigits_hundreds]
        · rintro rfl
          rw [if_pos (by simpa [bcdDigits_length] using hnew), Nat.add_sub_cancel_left, bcdDigits_tens]
      · exact .inl (if_neg fun hc => hnew (by simpa using hc.2))
  case neg =>
    have hge : 4096 ≤ s.i.toNat := Nat.not_lt.1 hi
    refine ⟨_, exec_ldB_of_out hge x, ?_, fun _ _ => .inl rfl, fun _ => takesFault_raise _ _ s⟩
    rw [Nat.max_eq_left hge]
    exact takesFault_raise _ _ s

/-! ## The index after FX55 and FX65 -/

/-- An index write under a quirk is an index write. -/
theorem State.ite_setIndex (t : State) (q : Bool) (a : Word) :
    (if q = true then t.setIndex a else t) = t.setIndex (if q = true then a else t.i) := by
  cases q <;> rfl

theorem State.advancedIndex_toNat {s : State} {x : Reg} (h : s.i.toNat + x.toNat ≤ 4095) :
    (s.advancedIndex x).toNat = s.i.toNat + x.toNat + 1 := by
  rw [State.advancedIndex, BitVec.toNat_ofNat, Nat.mod_eq_of_lt (by omega)]

/-- The index of R195 and R196, as a number. -/
theorem State.quirkIndex_toNat {s : State} {x : Reg} (h : s.i.toNat + x.toNat ≤ 4095) (q : Bool) :
    (if q = true then s.advancedIndex x else s.i).toNat =
      if q = true then s.i.toNat + x.toNat + 1 else s.i.toNat := by
  rw [apply_ite BitVec.toNat, State.advancedIndex_toNat h]

/-! ## FX55 -/

/-- R195, every register's byte in range. -/
theorem exec_ldMemI_of_fits {s : State} {x : Reg} (h : s.i.toNat + x.toNat ≤ 4095) :
    exec (.ldMemI x) s = .next ((s.setMem (s.mem.setBytes s.i.toNat (s.regBytes (regsUpTo x)))).setIndex
      (if s.quirks.storeAdvancesI = true then s.advancedIndex x else s.i)) := by
  have hsize := memSize_eq
  obtain ⟨_, e⟩ | ⟨_, _⟩ := exec_ldMemI_cases x s
  · exact e.trans (congrArg _ (State.ite_setIndex _ _ _))
  · omega

/-- R192, R195, some register's byte out of range. -/
theorem exec_ldMemI_of_out {s : State} {x : Reg} (h : 4095 < s.i.toNat + x.toNat) :
    exec (.ldMemI x) s = .next ((s.setMem (s.mem.setBytes s.i.toNat
      ((s.regBytes (regsUpTo x)).take (4096 - s.i.toNat)))).raise (.memFault (max s.i.toNat 4096))) := by
  have hsize := memSize_eq
  obtain ⟨_, _⟩ | ⟨_, e⟩ := exec_ldMemI_cases x s
  · omega
  · exact e

theorem State.length_regBytes_regsUpTo (s : State) (x : Reg) : (s.regBytes (regsUpTo x)).length = x.toNat + 1 := by
  rw [State.regBytes, List.length_map, regsUpTo, List.length_range]

/-- FX55's bytes are those of the registers, in order. -/
theorem State.regBytes_regsUpTo_getD (s : State) {x r : Reg} (h : r.toNat ≤ x.toNat) :
    (s.regBytes (regsUpTo x)).getD r.toNat 0 = s.reg r := by
  rw [List.getD_eq_getElem _ _ (by rw [State.length_regBytes_regsUpTo]; omega)]
  simp [State.regBytes, regsUpTo]

/-- Settles O45: one write of the registers' bytes, each read at its offset, and one of the index. -/
theorem bulkStoreCopiesRegisters : Obligations.BulkStoreCopiesRegisters := by
  intro s x hfits
  have hlen := s.length_regBytes_regsUpTo x
  refine ⟨_, exec_ldMemI_of_fits hfits, fun r hr => ?bytes, State.quirkIndex_toNat hfits _, ?frame⟩
  case bytes =>
    exact (Memory.byteAt_setBytes_add _ _ _ (by omega)).trans (s.regBytes_regsUpTo_getD hr)
  case frame =>
    rw [← hlen]
    exact ((onlyChanges_setBytes s _ _).trans (onlyChanges_setIndex _ _)).mono fun p =>
      Or.imp_right List.mem_singleton.1

/-- Settles O46: one write of the bytes in range, which are the registers' first ones. -/
theorem bulkStoreFaultKeepsThePrefix : Obligations.BulkStoreFaultKeepsThePrefix := by
  intro s x hout
  have hlen := s.length_regBytes_regsUpTo x
  refine ⟨_, exec_ldMemI_of_out hout, fun r hr hin => ?bytes, TakesFault.of_raise _ ?frame rfl⟩
  case bytes =>
    have hget : ((s.regBytes (regsUpTo x)).take (4096 - s.i.toNat)).getD r.toNat 0 = s.reg r := by
      rw [List.getD_eq_getElem?_getD, List.getElem?_take_of_lt (by omega), ← List.getD_eq_getElem?_getD,
        s.regBytes_regsUpTo_getD hr]
    exact (Memory.byteAt_setBytes_add _ _ _ (by rw [List.length_take]; omega)).trans hget
  case frame =>
    refine (onlyChanges_setBytes s _ _).mono ?_
    rintro p ⟨k, hk, rfl⟩
    exact ⟨k, hk.trans_le (List.length_take_le _ _), rfl⟩

/-! ## FX65 -/

/-- R196, every byte in range. -/
theorem exec_ldVxMem_of_fits {s : State} {x : Reg} (h : s.i.toNat + x.toNat ≤ 4095) :
    exec (.ldVxMem x) s = .next ((s.loadFirst (x.toNat + 1)).setIndex
      (if s.quirks.loadAdvancesI = true then s.advancedIndex x else s.i)) := by
  have hsize := memSize_eq
  obtain ⟨_, e⟩ | ⟨_, _⟩ := exec_ldVxMem_cases x s
  · rw [e, State.ite_setIndex, State.loadFirst_eq, State.setRegs_i]
  · omega

/-- R192, R196, some byte out of range. -/
theorem exec_ldVxMem_of_out {s : State} {x : Reg} (h : 4095 < s.i.toNat + x.toNat) :
    exec (.ldVxMem x) s =
      .next ((s.loadFirst (4096 - s.i.toNat)).raise (.memFault (max s.i.toNat 4096))) := by
  have hsize := memSize_eq
  obtain ⟨_, _⟩ | ⟨_, e⟩ := exec_ldVxMem_cases x s
  · omega
  · exact e

/-- Loading registers changes the registers loaded alone. -/
theorem onlyChanges_loadFirst (s : State) {x : Reg} {n : Nat} (h : n ≤ x.toNat + 1) :
    OnlyChanges (regsTo x) s (s.loadFirst n) := by
  intro p hp
  have hx := x.isLt
  cases p with
  | reg r =>
    simp only [Piece.same, s.reg_loadFirst (show n ≤ 16 by omega)]
    exact if_neg fun hr => hp ⟨r, by omega, rfl⟩
  | _ => rw [State.loadFirst_eq]; rfl

/-- Settles O47: the registers as `State.reg_loadFirst` gives them, and one write of the index. -/
theorem bulkLoadCopiesMemory : Obligations.BulkLoadCopiesMemory := by
  intro s x hfits
  have hx := x.isLt
  refine ⟨_, exec_ldVxMem_of_fits hfits, fun r hr => ?regs, State.quirkIndex_toNat hfits _, ?frame⟩
  case regs => rw [State.reg_setIndex, s.reg_loadFirst (by omega), if_pos (by omega)]
  case frame =>
    exact ((onlyChanges_loadFirst s le_rfl).trans (onlyChanges_setIndex _ _)).mono fun p =>
      Or.imp_right List.mem_singleton.1

/-- Settles O48: the registers as `State.reg_loadFirst` gives them, those whose bytes are in range. -/
theorem bulkLoadFaultKeepsThePrefix : Obligations.BulkLoadFaultKeepsThePrefix := by
  intro s x hout
  have hx := x.isLt
  have hreg (r : Reg) := s.reg_loadFirst (show 4096 - s.i.toNat ≤ 16 by omega) r
  refine ⟨_, exec_ldVxMem_of_out hout, fun r _ hin => ?loaded, fun r hge => ?kept,
    TakesFault.of_raise _ (onlyChanges_loadFirst s (by omega)) ?record⟩
  case loaded => rw [State.reg_raise, hreg, if_pos (by omega)]
  case kept => rw [State.reg_raise, hreg, if_neg (by omega)]
  case record => rw [State.loadFirst_eq]; rfl

end Sys2Proof.Machine
end

section
/-! Drawing (45_display.md R221, R222): an equation per case, the flag, and the second draw of a sprite. -/

namespace Sys2Proof.Machine

theorem flagByte_of_true {b : Bool} (h : b = true) : flagByte b = 1#8 := by rw [h]; rfl

theorem flagByte_of_not {b : Bool} (h : ¬ b = true) : flagByte b = 0#8 := by rw [Bool.eq_false_of_not_eq_true h]; rfl

/-- R221, every row in range. -/
theorem exec_drw_of_fits {s : State} {n : Nibble} (h : n = 0#4 ∨ s.i.toNat + n.toNat ≤ 4096) (x y : Reg) :
    ∃ k : Canvas, exec (.drw x y n) s = .next ((s.setDisplay k.display).setReg vf (flagByte k.hit)) ∧
      (∀ px py, k.display.cell px py = (s.display.cell px py ^^ spritePixel s (s.reg x) (s.reg y) n.toNat px py)) ∧
      (k.hit = true ↔ Collides s (s.reg x) (s.reg y) n.toNat) := by
  have hsize := memSize_eq
  obtain ⟨_, hk⟩ | ⟨hn, hbig, _⟩ | ⟨hn, hbig, _⟩ := exec_drw_cases x y n s
  · exact hk
  · exact absurd h (not_or.2 ⟨hn, by omega⟩)
  · have hpos : n.toNat ≠ 0 := fun e => hn (eq_ofNat_of_toNat e)
    exact absurd h (not_or.2 ⟨hn, by omega⟩)

/-- R222, the first row in range and the last one not. -/
theorem exec_drw_of_partial {s : State} {n : Nibble} (hn : n ≠ 0#4) (h : 4096 < s.i.toNat + n.toNat)
    (hi : s.i.toNat < 4096) (x y : Reg) :
    ∃ k : Canvas, exec (.drw x y n) s = .next (((s.drawFreely k).countFree).raise (.memFault 4096)) ∧
      (∀ px py, k.display.cell px py =
        (s.display.cell px py ^^ spritePixel s (s.reg x) (s.reg y) (4096 - s.i.toNat) px py)) ∧
      (k.hit = true ↔ Collides s (s.reg x) (s.reg y) (4096 - s.i.toNat)) := by
  have hsize := memSize_eq
  obtain ⟨hfits, _⟩ | ⟨_, _, _, hk⟩ | ⟨_, _, _⟩ := exec_drw_cases x y n s
  · exact absurd hfits (not_or.2 ⟨hn, by omega⟩)
  · exact hk
  · omega

/-- R222, no row in range. -/
theorem exec_drw_of_out {s : State} {n : Nibble} (hn : n ≠ 0#4) (hi : 4096 ≤ s.i.toNat) (x y : Reg) :
    exec (.drw x y n) s = .next (s.raise (.memFault s.i.toNat)) := by
  have hsize := memSize_eq
  have hpos : n.toNat ≠ 0 := fun e => hn (eq_ofNat_of_toNat e)
  obtain ⟨hfits, _⟩ | ⟨_, _, _, _⟩ | ⟨_, _, e⟩ := exec_drw_cases x y n s
  · exact absurd hfits (not_or.2 ⟨hn, by omega⟩)
  · omega
  · exact e

theorem onlyChanges_setDisplay_setReg (s : State) (d : Display) (x : Reg) (b : Byte) :
    OnlyChanges (fun p => anyCell p ∨ p = .reg x) s ((s.setDisplay d).setReg x b) :=
  ((onlyChanges_setDisplay s d).trans (onlyChanges_setReg _ x b)).mono fun _ => Or.imp_right List.mem_singleton.1

/-- Settles O50: one write of the drawn display and one of the flag, which is the canvas's hit. -/
theorem drawXorsTheSprite : Obligations.DrawXorsTheSprite := by
  intro s x y n hfits
  obtain ⟨k, hexec, hcells, hhit⟩ := exec_drw_of_fits hfits x y
  refine ⟨_, hexec, hcells, fun hc => ?collision, fun hc => ?none, onlyChanges_setDisplay_setReg s _ vf _⟩
  case collision => rw [State.reg_setReg_self, flagByte_of_true (hhit.2 hc)]
  case none => rw [State.reg_setReg_self, flagByte_of_not fun h => hc (hhit.1 h)]

/-- R222: the display and VF are free, and no other piece but the count of partial faults changes. -/
theorem takesFault_drw_partial (s : State) (k : Canvas) (f : Fault) :
    TakesFault f (fun p => anyCell p ∨ p = .reg vf ∨ p = .freeCount) s (((s.drawFreely k).countFree).raise f) := by
  obtain ⟨d, b, e, _⟩ := State.drawFreely_cases s k
  rw [e]
  refine TakesFault.of_raise f
    (((onlyChanges_setDisplay_setReg s d vf b).trans (onlyChanges_countFree _)).mono fun p hp => ?_) rfl
  exact or_assoc.1 (hp.imp_right List.mem_singleton.1)

/-- Settles O51: on the two sides of the index 4096; below it the display and VF are what free drawing leaves. -/
theorem drawFaultLeavesOldOrNew : Obligations.DrawFaultLeavesOldOrNew := by
  intro s x y n hn hout
  by_cases hi : s.i.toNat < 4096
  case pos =>
    obtain ⟨k, hexec, hcells, hhit⟩ := exec_drw_of_partial hn hout hi x y
    obtain ⟨d, b, hfree, hd, hb⟩ := State.drawFreely_cases s k
    refine ⟨_, hexec, ?fault, fun px py => ?cells, ?flag, fun hge => absurd hi hge.not_gt⟩
    case fault =>
      rw [Nat.max_eq_right hi.le]
      exact takesFault_drw_partial s k _
    case cells =>
      rw [hfree, ← hcells]
      exact hd px py
    case flag =>
      rw [State.reg_raise, State.reg_countFree, hfree, State.reg_setReg_self]
      refine hb.imp_right fun hb => ?_
      by_cases hc : k.hit = true
      · exact .inl ⟨hhit.1 hc, by rw [hb, flagByte_of_true hc]⟩
      · exact .inr ⟨fun h => hc (hhit.2 h), by rw [hb, flagByte_of_not hc]⟩
  case neg =>
    have hge : 4096 ≤ s.i.toNat := Nat.not_lt.1 hi
    refine ⟨_, exec_drw_of_out hn hge x y, ?_, fun _ _ => .inl rfl, .inl rfl, fun _ => takesFault_raise _ _ s⟩
    rw [Nat.max_eq_left hge]
    exact takesFault_raise _ _ s

/-- A sprite is read from memory at I, and from no other piece. -/
theorem spritePixel_congr {s t : State} (hm : ∀ a, t.mem.byteAt a = s.mem.byteAt a) (hi : t.i = s.i) (x0 y0 : Byte)
    (n : Nat) (px : Fin 64) (py : Fin 32) : spritePixel t x0 y0 n px py = spritePixel s x0 y0 n px py := by
  simp only [spritePixel, hm, hi]

/-- Settles O52, by O50 for each draw: the first leaves memory, I and the coordinates, so that the second XORs the same
pixels again and hits exactly those that the first one set. -/
theorem drawingTwiceRestoresTheDisplay : Obligations.DrawingTwiceRestoresTheDisplay := by
  intro s x y n hfits hx hy
  obtain ⟨t, hexec, hcell, _, _, hframe⟩ := drawXorsTheSprite s x y n hfits
  have hi : t.i = s.i := hframe .index (by simp [anyCell])
  have hmem (a : Nat) : t.mem.byteAt a = s.mem.byteAt a := hframe (.mem a) (by simp [anyCell])
  have hreg {r : Reg} (hr : r ≠ vf) : t.reg r = s.reg r := hframe (.reg r) (by simp [anyCell, hr])
  obtain ⟨u, hexec', hcell', hhit, hmiss, hframe'⟩ := drawXorsTheSprite t x y n (by rwa [hi])
  simp only [hreg hx, hreg hy, Collides, spritePixel_congr hmem hi, hcell] at hcell' hhit hmiss
  refine ⟨t, u, hexec, hexec', ?frame, ?flag⟩
  case frame =>
    have hcells (px : Fin 64) (py : Fin 32) : u.display.cell px py = s.display.cell px py := by
      rw [hcell', Bool.xor_assoc, Bool.xor_self, Bool.xor_false]
    intro p hp
    by_cases hc : anyCell p
    · obtain ⟨px, py, rfl⟩ := hc
      exact hcells px py
    · have hvf : p ≠ .reg vf := fun e => hp (by simp [these, e])
      exact (hframe.trans hframe') p (by simp [hc, hvf])
  case flag =>
    have hset (c p : Bool) : ((c ^^ p) = true ∧ p = true) ↔ (c = false ∧ p = true) := by
      cases c <;> cases p <;> decide
    simp only [hset] at hhit hmiss
    refine ⟨fun h => ?_, hhit⟩
    by_contra hno
    rw [hmiss hno] at h
    exact absurd h (by decide)

end Sys2Proof.Machine
end

section
/-! The timer tick as exact arithmetic (60_exceptions.md R322, R323): the whole part that is drained, the remainder that
is left, and many ticks after a set. -/

namespace Sys2Proof.Machine

/-! ## The fraction's whole part -/

/-- The number of whole decrements that have accumulated. -/
theorem Frac.floor_value (a : Frac) : ⌊a.value⌋₊ = a.num / a.den := Nat.floor_div_eq_div a.num a.den

/-- Taking the whole part off a fraction leaves the remainder of the division. -/
theorem natCast_div_sub_div (n : Nat) {d : Nat} (h : 0 < d) :
    (n : ℚ) / d - (n / d : Nat) = (n % d : Nat) / (d : ℚ) := by
  have hd : (d : ℚ) ≠ 0 := by exact_mod_cast h.ne'
  have hn : (n : ℚ) = d * (n / d : Nat) + (n % d : Nat) := by exact_mod_cast (Nat.div_add_mod n d).symm
  rw [div_sub' hd, eq_sub_of_add_eq' hn.symm]

theorem Frac.value_nonneg (a : Frac) : 0 ≤ a.value := div_nonneg a.num.cast_nonneg a.den.cast_nonneg

theorem Frac.one_le_value_iff {a : Frac} (h : a.wf) : 1 ≤ a.value ↔ a.den ≤ a.num := by
  rw [Frac.value, one_le_div (by exact_mod_cast h.1), Nat.cast_le]

/-! ## One tick -/

/-- R322, R323: every whole decrement. -/
theorem Timer.tick_of_full {p : SubratePolicy} {rate : Nat} (h : 60 ≤ rate ∨ p = .multi) (t : Timer) :
    t.tick p rate = (t.progress rate).drainAll := if_pos h

/-- R323, `single` below 60 Hz: a tick adds more than 1, so that one decrement is due and made. -/
theorem Timer.tick_of_single {t : Timer} {rate : Nat} (ht : t.wf) (hpos : 0 < rate) (h : rate < 60) :
    (t.progress rate).acc.den ≤ (t.progress rate).acc.num ∧ t.tick .single rate = (t.progress rate).decrement := by
  have hlt : (1 : ℚ) < 60 / rate := by
    rw [one_lt_div (by exact_mod_cast hpos)]
    exact_mod_cast h
  have hdue : (t.progress rate).acc.den ≤ (t.progress rate).acc.num := by
    rw [Timer.progress_acc, ← Frac.one_le_value_iff (Frac.wf_addTick ht hpos), Frac.value_addTick ht hpos]
    linarith [t.acc.value_nonneg]
  refine ⟨hdue, ?_⟩
  rw [Timer.tick, if_neg (by simp [h]), Timer.drainOne, if_pos ((Frac.geOne_iff _).2 hdue)]

/-- Draining everything takes the floor of the accumulator off it and off the value. -/
theorem Timer.drainAll_floor {t : Timer} (h : t.wf) :
    t.drainAll.current.toNat = t.current.toNat - ⌊t.acc.value⌋₊ ∧
    t.drainAll.acc.value = t.acc.value - (⌊t.acc.value⌋₊ : ℚ) := by
  obtain ⟨_, hcurrent, hacc⟩ := Timer.drainAll_eq t h.1
  rw [hcurrent, hacc, Frac.floor_value]
  exact ⟨rfl, (natCast_div_sub_div t.acc.num h.1).symm⟩

/-- Settles O57: the progress is exact (`Frac.value_addTick`), and the tick drains it whole or makes the one decrement
that is due. -/
theorem timerTickIsExact : Obligations.TimerTickIsExact := by
  intro p t rate hwf hpos
  have hprogress : (t.progress rate).wf := Frac.wf_addTick hwf hpos
  have hvalue : (t.progress rate).acc.value = t.acc.value + 60 / rate := Frac.value_addTick hwf hpos
  refine ⟨Timer.tick_start t p rate, Timer.wf_tick hwf p hpos, fun hfull => ?full, ?single⟩
  case full =>
    rw [Timer.tick_of_full hfull, ← hvalue]
    exact Timer.drainAll_floor hprogress
  case single =>
    rintro hsub rfl
    obtain ⟨hdue, htick⟩ := Timer.tick_of_single hwf hpos hsub
    rw [htick, ← hvalue]
    exact ⟨Timer.decrement_current _, Frac.value_subOne hprogress hdue⟩

/-! ## Many ticks -/

/-- The whole parts of two successive divisions add up: what the first leaves is carried into the second. -/
theorem div_add_mod_add_div (a b : Nat) {d : Nat} (h : 0 < d) : a / d + (a % d + b) / d = (a + b) / d := by
  conv_rhs => rw [← Nat.div_add_mod a d, Nat.add_assoc, Nat.mul_add_div h]

/-- After `n` ticks the accumulator is well formed, the whole decrements of `60 n / rate` are made, and the remainder is
left. -/
theorem Timer.ticks_of_set (p : SubratePolicy) (t : Timer) (v : Byte) {rate : Nat} (h : 60 ≤ rate) (n : Nat) :
    ((fun u => Timer.tick p u rate)^[n] (t.set v)).wf ∧
    ((fun u => Timer.tick p u rate)^[n] (t.set v)).current.toNat = v.toNat - 60 * n / rate ∧
    ((fun u => Timer.tick p u rate)^[n] (t.set v)).acc.value = ((60 * n % rate : Nat) : ℚ) / rate := by
  have hpos : 0 < rate := by omega
  induction n with
  | zero => exact ⟨Timer.wf_set t v, by simp [Timer.set], by simp [Timer.set, Frac.value]⟩
  | succ n ih =>
    rw [Function.iterate_succ_apply']
    obtain ⟨hwf, hcurrent, hacc⟩ := ih
    obtain ⟨_, hwf', hfull, _⟩ := timerTickIsExact p _ rate hwf hpos
    obtain ⟨hcurrent', hacc'⟩ := hfull (.inl h)
    have hsum : ((60 * n % rate : Nat) : ℚ) / rate + 60 / rate = ((60 * n % rate + 60 : Nat) : ℚ) / rate := by
      rw [← add_div]
      push_cast
      rfl
    rw [hacc, hsum, Nat.floor_div_eq_div] at hcurrent' hacc'
    refine ⟨hwf', ?current, ?acc⟩
    case current => rw [hcurrent', hcurrent, Nat.sub_sub, div_add_mod_add_div _ _ hpos, Nat.mul_succ]
    case acc => rw [hacc', natCast_div_sub_div _ hpos, Nat.mod_add_mod, Nat.mul_succ]

/-- Settles O58, by induction on the number of ticks (`Timer.ticks_of_set`). -/
theorem ticksCountDownAtSixtyHertz : Obligations.TicksCountDownAtSixtyHertz := by
  intro p t v rate n h
  obtain ⟨_, hcurrent, hacc⟩ := Timer.ticks_of_set p t v h n
  exact ⟨hcurrent, hacc⟩

end Sys2Proof.Machine
end

section
/-! What construction takes from its arguments, when it fails, and that it meets the invariant
(70_reset_and_hazards.md R400 to R406). -/

namespace Sys2Proof.Machine

/-- ALL THAT CONSTRUCTION CAN ANSWER when it succeeds. -/
theorem construct_cases {image : List Byte} {q : Quirks} {p : Params} {font : Vector Byte 80} {l : Init} {s : State}
    (h : construct image q p font l = .ok s) :
    image.length + 0x200 < memSize ∧ s = {
      State.reset with
      mem := constructMemory image font l.mem
      v := l.v
      i := l.i
      display := l.display
      dt := ⟨l.dtStart, l.dtCurrent, ⟨0, 1⟩⟩
      st := ⟨l.stStart, l.stCurrent, ⟨0, 1⟩⟩
      quirks := q
      params := p } := by
  unfold construct at h
  split at h
  · cases h
  · exact ⟨Nat.not_le.1 ‹_›, (Except.ok.inj h).symm⟩

/-- R404: the launch bytes stay outside the glyph table and the image. -/
theorem byteAt_constructMemory_launch {image : List Byte} (font : Vector Byte 80) (mem : Memory) {a : Nat}
    (hfont : 80 ≤ a) (himage : a < 0x200 ∨ 0x200 + image.length ≤ a) :
    (constructMemory image font mem).byteAt a = mem.byteAt a := by
  rw [byteAt_constructMemory, if_neg (by omega), if_neg (by omega)]

/-- Settles O21, by the fields of the one state that construction answers. -/
theorem constructionTakesLaunchValues : Obligations.ConstructionTakesLaunchValues := by
  intro image q p font l s h
  obtain ⟨_, rfl⟩ := construct_cases h
  exact ⟨fun _ => byteAt_constructMemory_launch font l.mem, rfl, rfl, rfl, rfl, rfl, rfl, rfl, rfl, rfl,
    Frac.value_zero, Frac.value_zero, rfl, rfl⟩

/-- Settles O22, by the equations of construction on the two sides of the size. -/
theorem constructionRefusesLargeImages : Obligations.ConstructionRefusesLargeImages := by
  intro image q p font l
  have hsize := memSize_eq
  refine ⟨fun hfail => ?fails, fun hlarge => construct_of_ge q p font l (by omega)⟩
  case fails =>
    by_contra hsmall
    obtain ⟨s, hok, _⟩ := construct_of_lt q p font l (image := image) (by omega)
    rw [hfail] at hok
    cases hok

/-- A state in which nothing has run meets the invariant: 0x200 is below the bound of `pc`, the stack is empty, nothing
has accumulated, and there is no result yet. -/
theorem State.Inv.of_launch {s : State} (hmem : s.mem.wf) (hstack : s.stack = []) (hpc : s.pc = 0x200#16)
    (hdt : s.dt.acc = ⟨0, 1⟩) (hst : s.st.acc = ⟨0, 1⟩) (hresult : s.result = none) : s.Inv := by
  have hzero : Frac.wf ⟨0, 1⟩ := by decide
  refine ⟨hmem, by simp [hstack], by rw [hpc]; decide, by simp [hstack], ?_, ?_, ?_⟩
  · rw [Timer.wf, hdt]; exact hzero
  · rw [Timer.wf, hst]; exact hzero
  · intro f hf
    rw [hresult] at hf
    cases hf

/-- Settles O13: both are states in which nothing has run, and construction keeps the canonical form of the memory
(`wf_constructMemory`). -/
theorem constructionMeetsTheInvariant : Obligations.ConstructionMeetsTheInvariant := by
  refine ⟨State.Inv.of_launch Memory.wf_nil rfl rfl rfl rfl rfl, fun image q p font l s hmem h => ?_⟩
  obtain ⟨hfits, rfl⟩ := construct_cases h
  exact State.Inv.of_launch (wf_constructMemory hmem hfits.le) rfl rfl rfl rfl rfl

end Sys2Proof.Machine
end

section
/-! WHAT AN INSTRUCTION MAY WRITE, piece by piece: one frame for all instructions, from which the statements about who
writes what are read off. -/

namespace Sys2Proof.Machine

/-- The pieces that an instruction may write when it runs with quirks `q` (10_state.md R21 to R37; 41_flow.md to
46_timer_key_random.md). -/
def writesPiece (q : Quirks) : Instr → Piece → Prop
  | .sys _ => these []
  | .cls => anyCell
  | .jp _ | .jpV0 _ => these [.pc]
  | .seImm _ _ | .sneImm _ _ | .seReg _ _ | .sneReg _ _ | .skp _ | .sknp _ => these [.pc]
  | .ret | .call _ => these [.pc, .stack, .result, .faultRecord]
  | .ldImm x _ | .addImm x _ | .ldReg x _ | .orReg x _ | .andReg x _ | .xorReg x _ | .ldVxDT x => these [.reg x]
  | .addReg x _ | .subReg x _ | .shr x _ | .subn x _ | .shl x _ => these [.reg x, .reg vf]
  | .rnd x _ => these [.reg x, .randomCount]
  | .ldI _ | .ldF _ => these [.index]
  | .addI _ => fun p => p = .index ∨ (p = .reg vf ∧ q.indexAddSetsVf = true)
  | .ldVxK _ => these [.latch]
  | .ldDTVx _ => these [.dt]
  | .ldSTVx _ => these [.st, .playing, .events]
  | .drw _ _ _ => fun p => anyCell p ∨ p ∈ [.reg vf, .freeCount, .result, .faultRecord]
  | .ldB _ => fun p => (∃ a, p = .mem a) ∨ p ∈ [.freeCount, .result, .faultRecord]
  | .ldMemI _ => fun p =>
    ((∃ a, p = .mem a) ∨ p ∈ [.result, .faultRecord]) ∨ (p = .index ∧ q.storeAdvancesI = true)
  | .ldVxMem x => fun p => (regsTo x p ∨ p ∈ [.result, .faultRecord]) ∨ (p = .index ∧ q.loadAdvancesI = true)

/-! ## The frame -/

theorem onlyChanges_raise (s : State) (f : Fault) : OnlyChanges (these [.result, .faultRecord]) s (s.raise f) := by
  intro p hp
  cases p with
  | result | faultRecord => exact absurd (by simp [these]) hp
  | _ => rfl

/-- An index write under a quirk. -/
theorem onlyChanges_ite_setIndex (s : State) (q : Bool) (a : Word) :
    OnlyChanges (fun p => p = .index ∧ q = true) s (if q = true then s.setIndex a else s) := by
  cases q with
  | true => exact (onlyChanges_setIndex s a).mono fun _ hp => ⟨List.mem_singleton.1 hp, rfl⟩
  | false => exact OnlyChanges.refl _ s

/-- Bytes written at rising addresses, without saying where. -/
theorem onlyChanges_setBytes_mem (s : State) (a : Nat) (bs : List Byte) :
    OnlyChanges (fun p => ∃ c, p = .mem c) s (s.setMem (s.mem.setBytes a bs)) :=
  (onlyChanges_setBytes s a bs).mono fun _ ⟨k, _, hp⟩ => ⟨a + k, hp⟩

/-- An execution answers one state. -/
theorem exec_next_unique {i : Instr} {s t u : State} (h : exec i s = .next u) (h' : exec i s = .next t) : u = t :=
  Host.Outcome.next.inj (h.symm.trans h')

theorem exec_ldMemI_frame {x : Reg} {s t : State} (h : exec (.ldMemI x) s = .next t) :
    OnlyChanges (writesPiece s.quirks (.ldMemI x)) s t := by
  obtain ⟨_, e⟩ | ⟨_, e⟩ := exec_ldMemI_cases x s <;> obtain rfl := exec_next_unique e h
  · exact ((onlyChanges_setBytes_mem s _ _).trans (onlyChanges_ite_setIndex _ _ _)).mono fun _ => Or.imp_left .inl
  · exact ((onlyChanges_setBytes_mem s _ _).trans (onlyChanges_raise _ _)).mono fun _ => .inl

theorem exec_ldVxMem_frame {x : Reg} {s t : State} (h : exec (.ldVxMem x) s = .next t) :
    OnlyChanges (writesPiece s.quirks (.ldVxMem x)) s t := by
  have hsize := memSize_eq
  obtain ⟨_, e⟩ | ⟨_, e⟩ := exec_ldVxMem_cases x s <;> obtain rfl := exec_next_unique e h
  · exact ((onlyChanges_loadFirst s le_rfl).trans (onlyChanges_ite_setIndex _ _ _)).mono fun _ => Or.imp_left .inl
  · exact ((onlyChanges_loadFirst s (x := x) (by omega)).trans (onlyChanges_raise _ _)).mono fun _ => .inl

theorem exec_ldB_frame {x : Reg} {s t : State} (h : exec (.ldB x) s = .next t) :
    OnlyChanges (writesPiece s.quirks (.ldB x)) s t := by
  obtain ⟨_, e⟩ | ⟨_, _, e⟩ | ⟨_, e⟩ := exec_ldB_cases x s <;> obtain rfl := exec_next_unique e h
  · exact (onlyChanges_setBytes_mem s _ _).mono fun _ => .inl
  · refine (((onlyChanges_storeFreely s _ _ _ _).trans (onlyChanges_countFree _)).trans
      (onlyChanges_raise _ _)).mono ?_
    rintro p ((⟨k, _, hp⟩ | hp) | hp)
    · exact .inl ⟨_, hp⟩
    · exact .inr (List.mem_append_left _ hp)
    · exact .inr (List.mem_cons_of_mem _ hp)
  · exact (onlyChanges_raise s _).mono fun _ hp => .inr (List.mem_cons_of_mem _ hp)

theorem exec_drw_frame {x y : Reg} {n : Nibble} {s t : State} (h : exec (.drw x y n) s = .next t) :
    OnlyChanges (writesPiece s.quirks (.drw x y n)) s t := by
  obtain ⟨_, k, e, _⟩ | ⟨_, _, _, k, e, _⟩ | ⟨_, _, e⟩ := exec_drw_cases x y n s <;>
    obtain rfl := exec_next_unique e h
  · exact (onlyChanges_setDisplay_setReg s _ vf _).mono fun _ => Or.imp_right fun hp => by simp [hp]
  · refine (takesFault_drw_partial s k (.memFault memSize)).2.2.mono fun p hp => ?_
    simp only [writesPiece, List.mem_cons, List.not_mem_nil, or_false]
    tauto
  · exact (onlyChanges_raise s _).mono fun _ hp =>
      .inr (List.mem_cons_of_mem _ (List.mem_cons_of_mem _ hp))

theorem exec_addI_frame {x : Reg} {s t : State} (h : exec (.addI x) s = .next t) :
    OnlyChanges (writesPiece s.quirks (.addI x)) s t := by
  rw [exec_addI_eq] at h
  obtain rfl := Host.Outcome.next.inj h
  cases hq : s.quirks.indexAddSetsVf with
  | true =>
    refine (onlyChanges_setIndex_setReg s _ vf _).mono fun p hp => ?_
    simpa [these, writesPiece, hq] using hp
  | false => exact (onlyChanges_setIndex s _).mono fun _ hp => .inl (List.mem_singleton.1 hp)

/-- THE FRAME OF EVERY INSTRUCTION: it changes no piece but those it may write. -/
theorem exec_frame {i : Instr} {s t : State} (h : exec i s = .next t) : OnlyChanges (writesPiece s.quirks i) s t := by
  cases i with
  | sys => rw [(exec_sys_cases h).2]; exact OnlyChanges.refl _ s
  | cls => cases h; exact onlyChanges_setDisplay s _
  | jp | jpV0 => cases h; exact onlyChanges_setPc s _
  | seImm | sneImm | seReg | sneReg | skp | sknp => cases h; exact onlyChanges_skipIf s _
  | ret =>
    obtain ⟨_, _, _, rfl⟩ | ⟨_, rfl⟩ := exec_ret_cases h
    · exact (onlyChanges_setStack_setPc s _ _).mono_these (by simp)
    · exact (onlyChanges_raise s _).mono_these (by simp)
  | call =>
    obtain ⟨_, rfl⟩ | ⟨_, rfl⟩ := exec_call_cases h
    · exact (onlyChanges_setStack_setPc s _ _).mono_these (by simp)
    · exact (onlyChanges_raise s _).mono_these (by simp)
  | ldImm | addImm | ldReg | orReg | andReg | xorReg | ldVxDT => cases h; exact onlyChanges_setReg s _ _
  | addReg | subReg | shr | subn | shl => cases h; exact (writesResultAndFlag s _ _ _ _).1
  | rnd => cases h; exact onlyChanges_setReg_countRandom s _ _
  | ldI | ldF => cases h; exact onlyChanges_setIndex s _
  | addI => exact exec_addI_frame h
  | ldVxK => cases h; exact onlyChanges_setLatch s _
  | ldDTVx => cases h; exact onlyChanges_setDT s _
  | ldSTVx x =>
    obtain ⟨_, e⟩ | ⟨_, _, e⟩ := exec_ldSTVx_cases x s <;> obtain rfl := exec_next_unique e h
    · exact onlyChanges_setST_startSound s _
    · exact (onlyChanges_setST s _).mono_these (by simp)
  | drw => exact exec_drw_frame h
  | ldB => exact exec_ldB_frame h
  | ldMemI => exact exec_ldMemI_frame h
  | ldVxMem => exact exec_ldVxMem_frame h

/-- A piece that changed is one that may. -/
theorem OnlyChanges.may_of_not_same {may : Piece → Prop} {s t : State} (h : OnlyChanges may s t) {p : Piece}
    (hp : ¬ p.same s t) : may p := by_contra fun hmay => hp (h p hmay)

/-! ## Who writes each piece -/

section WhoWrites

variable {q : Quirks} {i : Instr}

theorem writesPiece_stack (h : writesPiece q i .stack) : i = .ret ∨ ∃ n, i = .call n := by
  cases i <;> simp [writesPiece, these, anyCell, regsTo] at h ⊢

theorem writesPiece_cell {x : Fin 64} {y : Fin 32} (h : writesPiece q i (.cell x y)) :
    i = .cls ∨ ∃ x y n, i = .drw x y n := by
  cases i <;> simp [writesPiece, these, anyCell, regsTo] at h ⊢

theorem writesPiece_latch (h : writesPiece q i .latch) : ∃ x, i = .ldVxK x := by
  cases i <;> simp [writesPiece, these, anyCell, regsTo] at h ⊢

theorem writesPiece_dt (h : writesPiece q i .dt) : ∃ x, i = .ldDTVx x := by
  cases i <;> simp [writesPiece, these, anyCell, regsTo] at h ⊢

theorem writesPiece_sound (h : writesPiece q i .st ∨ writesPiece q i .playing ∨ writesPiece q i .events) :
    ∃ x, i = .ldSTVx x := by
  cases i <;> simp [writesPiece, these, anyCell, regsTo] at h ⊢

theorem writesPiece_index (h : writesPiece q i .index) :
    (∃ n, i = .ldI n) ∨ (∃ x, i = .addI x) ∨ (∃ x, i = .ldF x) ∨ (∃ x, i = .ldMemI x ∧ q.storeAdvancesI = true) ∨
      (∃ x, i = .ldVxMem x ∧ q.loadAdvancesI = true) := by
  cases i <;> simp [writesPiece, these, anyCell, regsTo] at h ⊢ <;> exact h

theorem writesPiece_mem {a : Nat} (h : writesPiece q i (.mem a)) : (∃ x, i = .ldB x) ∨ ∃ x, i = .ldMemI x := by
  cases i <;> simp [writesPiece, these, anyCell, regsTo] at h ⊢

theorem writesPiece_randomCount (h : writesPiece q i .randomCount) : ∃ x n, i = .rnd x n := by
  cases i <;> simp [writesPiece, these, anyCell, regsTo] at h ⊢

theorem writesPiece_pc (h : writesPiece q i .pc) :
    (∃ n, i = .jp n ∨ i = .jpV0 n ∨ i = .call n) ∨ i = .ret ∨ (∃ x n, i = .seImm x n ∨ i = .sneImm x n) ∨
      (∃ x y, i = .seReg x y ∨ i = .sneReg x y) ∨ ∃ x, i = .skp x ∨ i = .sknp x := by
  cases i <;> simp [writesPiece, these, anyCell, regsTo] at h ⊢

theorem writesPiece_fault (h : writesPiece q i .result ∨ writesPiece q i .faultRecord) :
    i = .ret ∨ (∃ n, i = .call n) ∨ (∃ x y n, i = .drw x y n) ∨ ∃ x, i = .ldB x ∨ i = .ldMemI x ∨ i = .ldVxMem x := by
  cases i <;> simp [writesPiece, these, anyCell, regsTo] at h ⊢

theorem writesPiece_freeCount (h : writesPiece q i .freeCount) : (∃ x, i = .ldB x) ∨ ∃ x y n, i = .drw x y n := by
  cases i <;> simp [writesPiece, these, anyCell, regsTo] at h ⊢

theorem writesPiece_reg {r : Reg} (h : writesPiece q i (.reg r)) : writesReg q r i := by
  cases i <;> simp [writesPiece, writesReg, these, anyCell, regsTo] at h ⊢ <;> assumption

/-- No instruction writes an input, the quirks or the parameters. -/
theorem not_writesPiece_of_constant {p : Piece} (h : p ∈ [.rate, .key, .pending, .quirks, .params]) :
    ¬ writesPiece q i p := by
  simp only [List.mem_cons, List.not_mem_nil, or_false] at h
  obtain rfl | rfl | rfl | rfl | rfl := h <;> cases i <;> simp [writesPiece, these, anyCell, regsTo]

end WhoWrites

/-- Settles O17: a piece that changed is one that the instruction may write (`exec_frame`), and which instructions may
write it is read off `writesPiece`. -/
theorem onlyTheNamedInstructionsWrite : Obligations.OnlyTheNamedInstructionsWrite := by
  intro i s t h
  have hframe := exec_frame h
  have changed (p : Piece) (hp : ¬ p.same s t) : writesPiece s.quirks i p := hframe.may_of_not_same hp
  have constant (p : Piece) (hp : p ∈ [.rate, .key, .pending, .quirks, .params]) : p.same s t :=
    hframe p (not_writesPiece_of_constant hp)
  refine ⟨fun hne => writesPiece_stack (changed .stack hne), fun hne => ?display,
    fun hne => writesPiece_latch (changed .latch hne), fun hne => writesPiece_dt (changed .dt hne),
    fun hne => writesPiece_sound (hne.imp (changed .st) (.imp (changed .playing) (changed .events))),
    fun hne => writesPiece_index (changed .index hne), fun ⟨a, hne⟩ => writesPiece_mem (changed (.mem a) hne),
    fun hne => writesPiece_randomCount (changed .randomCount hne), fun hne => writesPiece_pc (changed .pc hne),
    fun hne => writesPiece_fault (hne.imp (changed .result) (changed .faultRecord)),
    fun hne => writesPiece_freeCount (changed .freeCount hne), ?constants⟩
  case display =>
    have hcell : ∃ x y, ¬ (Piece.cell x y).same s t := by
      by_contra hall
      push Not at hall
      exact hne (Display.ext_cell hall)
    obtain ⟨x, y, hxy⟩ := hcell
    exact writesPiece_cell (changed _ hxy)
  case constants =>
    exact ⟨constant .rate (by simp), constant .key (by simp), constant .pending (by simp), constant .quirks (by simp),
      constant .params (by simp)⟩

/-- Settles O18, by the frame of every instruction (`exec_frame`). -/
theorem registersChangeOnlyWhereNamed : Obligations.RegistersChangeOnlyWhereNamed := by
  intro i s t r h hne
  exact writesPiece_reg ((exec_frame h).may_of_not_same (p := .reg r) hne)

end Sys2Proof.Machine
end

section
/-! What a step runs, answers and records (40_execution_cycle.md R101 to R110; 60_exceptions.md R300 to R306). -/

namespace Sys2Proof.Machine

/-! ## One equation per way a step goes on -/

/-- R107: the step is the execution of the decoded instruction. -/
theorem step_of_decoded {s : State} {rate : Nat} {w : Word} {i : Instr} (hr : s.stepRate = some rate)
    (hl : s.latch = none) (hf : s.fetch = .ok w) (hd : decode w = .ok i) : step s = exec i (s.started rate i) := by
  simp only [step_of_running hr hl, hf, hd]

/-- R106: the fetched word is no instruction. -/
theorem step_of_invalid {s : State} {rate : Nat} {w : Word} {e : DecodeError} (hr : s.stepRate = some rate)
    (hl : s.latch = none) (hf : s.fetch = .ok w) (hd : decode w = .error e) :
    step s = .next ((s.ticked rate).advance.raise (.invalidOpcode w)) := by
  simp only [step_of_running hr hl, hf, hd]

/-- R104: the fetch faults. -/
theorem step_of_fetchFault {s : State} {rate : Nat} {f : Fault} (hr : s.stepRate = some rate)
    (hl : s.latch = none) (hf : s.fetch = .error f) : step s = .next ((s.ticked rate).raise f) := by
  simp only [step_of_running hr hl, hf]

/-! ## The states in which a step ends without an instruction -/

theorem State.ticked_advance_pc_toNat {s : State} (h : s.pc.toNat ≤ 4094) (rate : Nat) :
    ((s.ticked rate).advance.pc).toNat = s.pc.toNat + 2 := by
  rw [State.advance_pc_toNat (by rwa [State.ticked_pc]), State.ticked_pc]

theorem onlyChanges_ticked_advance (s : State) (rate : Nat) :
    OnlyChanges (these (.pc :: stepPieces)) s (s.ticked rate).advance :=
  (onlyChanges_ticked s rate).trans_these (onlyChanges_setPc _ _) (by simp)

/-- R103 with a key. -/
theorem State.awaitKey_of_key {s : State} {k : Key} (h : s.key = some k) (x : Reg) :
    s.awaitKey x = ((s.setReg x (k.setWidth 8)).setLatch none).setResult (some (.keyResolved x k)) := by
  simp only [State.awaitKey_eq, h]

/-- R103 without a key. -/
theorem State.awaitKey_of_no_key {s : State} (h : s.key = none) (x : Reg) :
    s.awaitKey x = s.setResult (some .waiting) := by
  simp only [State.awaitKey_eq, h]

@[simp] theorem State.awaitKey_dt (s : State) (x : Reg) : (s.awaitKey x).dt = s.dt := by
  rw [State.awaitKey_eq]; cases s.key <;> rfl

@[simp] theorem State.awaitKey_st (s : State) (x : Reg) : (s.awaitKey x).st = s.st := by
  rw [State.awaitKey_eq]; cases s.key <;> rfl

@[simp] theorem State.awaitKey_faultRecord (s : State) (x : Reg) : (s.awaitKey x).faultRecord = s.faultRecord := by
  rw [State.awaitKey_eq]; cases s.key <;> rfl

theorem onlyChanges_awaitKey (s : State) (x : Reg) :
    OnlyChanges (these [.reg x, .latch, .result]) s (s.awaitKey x) := by
  cases hk : s.key with
  | some k =>
    rw [State.awaitKey_of_key hk]
    exact ((onlyChanges_setReg s x _).trans_these (onlyChanges_setLatch _ _) (List.Subset.refl _)).trans_these
      (onlyChanges_setResult _ _) (List.Subset.refl _)
  | none =>
    rw [State.awaitKey_of_no_key hk]
    exact (onlyChanges_setResult s _).mono_these (by simp)

/-- The result of a key wait is no fault. -/
theorem State.awaitKey_result_ne_fault (s : State) (x : Reg) (f : Fault) : (s.awaitKey x).result ≠ some (.fault f) := by
  rw [State.awaitKey_eq]; cases s.key <;> simp

/-- The only fault of the fetch (20_memory.md R55). -/
theorem State.fetch_error {s : State} {f : Fault} (h : s.fetch = .error f) : ∃ a, f = .memFault a := by
  by_cases hpc : s.pc.toNat ≤ 4094
  · rw [State.fetch_of_le s hpc] at h
    cases h
  · rw [State.fetch_of_gt s (by omega)] at h
    exact ⟨_, (Except.error.inj h).symm⟩

/-! ## The statements about one step -/

/-- Settles O7: the state is `State.started`, whose fields are those of the ticked state with `pc` advanced and the
result set. -/
theorem stepRunsTheDecodedInstruction : Obligations.StepRunsTheDecodedInstruction := by
  intro s rate i hr hl hpc hd
  refine ⟨s.started rate i, step_of_decoded hr hl (State.fetch_of_le s hpc) hd, State.ticked_advance_pc_toNat hpc rate,
    State.ticked_dt s rate, State.ticked_st s rate, ?playing, ?events,
    State.ticked_rate s rate, State.ticked_key s rate, (State.ticked_pending s rate).trans (State.takeInput_pending s), rfl, onlyChanges_started s rate i⟩
  case playing => exact (State.ticked_playing s rate).trans (by rw [← State.ticked_st s rate]; rfl)
  case events => exact (State.ticked_events s rate).trans (by rw [← State.ticked_st s rate]; rfl)

/-- Settles O8: the fault is raised in the ticked state (`step_of_fetchFault`). -/
theorem fetchFaultKeepsThePc : Obligations.FetchFaultKeepsThePc := by
  intro s rate hr hl hpc
  exact ⟨_, step_of_fetchFault hr hl (State.fetch_of_gt s hpc),
    TakesFault.of_raise _ (onlyChanges_ticked s rate) (State.ticked_faultRecord s rate), State.ticked_dt s rate,
    State.ticked_st s rate⟩

/-- Settles O9: the fault is raised in the ticked and advanced state (`step_of_invalid`). -/
theorem invalidOpcodeMovesPastTheWord : Obligations.InvalidOpcodeMovesPastTheWord := by
  intro s rate w hr hl hf hd
  exact ⟨_, step_of_invalid hr hl hf hd,
    TakesFault.of_raise _ (onlyChanges_ticked_advance s rate) (State.ticked_faultRecord s rate),
    State.ticked_advance_pc_toNat (State.fetch_ok_le hf) rate, State.ticked_dt s rate, State.ticked_st s rate⟩

/-- Settles O10: the key wait follows the ticks (`step_of_latch`), and with or without a key it writes what R103
says. -/
theorem awaitingKeyRunsNoInstruction : Obligations.AwaitingKeyRunsNoInstruction := by
  intro s rate x hr hl
  refine ⟨_, step_of_latch hr hl, by simp, by simp, fun k hk => ?key, fun hk => ?waiting⟩
  case key =>
    have hframe := (onlyChanges_ticked s rate).trans_these (onlyChanges_awaitKey _ x)
      (m := .reg x :: .latch :: stepPieces) (by simp [stepPieces])
    have hnum : (k.setWidth 8).toNat = k.toNat := BitVec.toNat_setWidth_of_le (by decide)
    rw [State.awaitKey_of_key ((State.ticked_key s rate).trans hk)] at hframe ⊢
    exact ⟨by simpa using hnum, rfl, rfl, hframe⟩
  case waiting =>
    rw [State.awaitKey_of_no_key ((State.ticked_key s rate).trans hk)]
    exact ⟨rfl, (onlyChanges_ticked s rate).trans_these (onlyChanges_setResult _ _) (by simp [stepPieces])⟩

/-- Settles O11, by the ways a step goes on: only an execution can be refused, and only that of SYS
(`exec_next_or_sys`). -/
theorem stepAnswersUnlessRefused : Obligations.StepAnswersUnlessRefused := by
  intro s
  refine ⟨step_of_badRate, fun hrate => ?_⟩
  obtain ⟨rate, hr⟩ := Option.ne_none_iff_exists'.1 hrate
  cases hl : s.latch with
  | some x => exact .inl ⟨_, step_of_latch hr hl⟩
  | none =>
    cases hf : s.fetch with
    | error f => exact .inl ⟨_, step_of_fetchFault hr hl hf⟩
    | ok w =>
      cases hd : decode w with
      | error e => exact .inl ⟨_, step_of_invalid hr hl hf hd⟩
      | ok i =>
        rw [step_of_decoded hr hl hf hd]
        refine (exec_next_or_sys i _).imp_right ?_
        rintro ⟨hexec, hpolicy, n, rfl⟩
        exact ⟨hexec, (congrArg Params.sysPolicy (State.ticked_params s rate)).symm.trans hpolicy, rfl, w, n, rfl, hd⟩

/-- Settles O14: neither the start of a step nor the key wait writes them, and no instruction may
(`not_writesPiece_of_constant`). -/
theorem quirksAndParametersNeverChange : Obligations.QuirksAndParametersNeverChange := by
  intro s t h
  obtain ⟨rate, _, hcases⟩ := step_cases h
  have hticked : (s.ticked rate).quirks = s.quirks ∧ (s.ticked rate).params = s.params :=
    ⟨State.ticked_quirks s rate, State.ticked_params s rate⟩
  obtain ⟨x, _, rfl⟩ | ⟨_, ⟨f, _, rfl⟩ | ⟨w, _, _, ⟨_, rfl⟩ | ⟨i, _, hexec⟩⟩⟩ := hcases
  · have hframe := onlyChanges_awaitKey (s.ticked rate) x
    exact hticked.imp (hframe .quirks (by simp [these])).trans (hframe .params (by simp [these])).trans
  · exact hticked
  · exact hticked
  · have hframe := exec_frame hexec
    exact hticked.imp (hframe .quirks (not_writesPiece_of_constant (by simp))).trans
      (hframe .params (not_writesPiece_of_constant (by simp))).trans

end Sys2Proof.Machine
end

section
/-! Which faults a step can take, and what the fault record then holds (60_exceptions.md R300, R301, R305). -/

namespace Sys2Proof.Machine

/-- The faults that some step can take (R300): the taxonomy calls the others unreachable, but for RomTooLarge, which
construction returns. -/
def Fault.ofStep : Fault → Bool
  | .callStackEmpty | .callStackOverflow | .invalidOpcode _ | .memFault _ => true
  | .invalidRegister _ | .displayFault | .romTooLarge | .nonMonotonicClockValue => false

/-- `t` is the state after a fault was raised in some state that records what `s` does. -/
def RaisesFrom (s t : State) : Prop :=
  ∃ (u : State) (f : Fault), u.faultRecord = s.faultRecord ∧ f.ofStep = true ∧ t = u.raise f

theorem RaisesFrom.of_raise {s u : State} {f : Fault} (hu : u.faultRecord = s.faultRecord) (hf : f.ofStep = true) :
    RaisesFrom s (u.raise f) := ⟨u, f, hu, hf, rfl⟩

/-- Result and record are as before. -/
def KeepsFaults (s t : State) : Prop := t.result = s.result ∧ t.faultRecord = s.faultRecord

theorem State.drawFreely_faultRecord (s : State) (k : Canvas) : (s.drawFreely k).faultRecord = s.faultRecord := by
  obtain ⟨d, b, e, _⟩ := State.drawFreely_cases s k
  rw [e, State.setReg_faultRecord, State.setDisplay_faultRecord]

/-- ALL THAT AN INSTRUCTION CAN DO TO THE RESULT AND THE RECORD. -/
theorem exec_fault_cases {i : Instr} {s t : State} (h : exec i s = .next t) : KeepsFaults s t ∨ RaisesFrom s t := by
  have quiet (hresult : ¬ writesPiece s.quirks i .result) (hrecord : ¬ writesPiece s.quirks i .faultRecord) :
      KeepsFaults s t := ⟨exec_frame h .result hresult, exec_frame h .faultRecord hrecord⟩
  cases i with
  | ret =>
    obtain ⟨_, _, _, rfl⟩ | ⟨_, rfl⟩ := exec_ret_cases h
    · exact .inl ⟨rfl, rfl⟩
    · exact .inr (.of_raise rfl rfl)
  | call =>
    obtain ⟨_, rfl⟩ | ⟨_, rfl⟩ := exec_call_cases h
    · exact .inl ⟨rfl, rfl⟩
    · exact .inr (.of_raise rfl rfl)
  | drw x y n =>
    obtain ⟨_, k, e, _⟩ | ⟨_, _, _, k, e, _⟩ | ⟨_, _, e⟩ := exec_drw_cases x y n s <;>
      obtain rfl := exec_next_unique e h
    · exact .inl ⟨rfl, rfl⟩
    · exact .inr (.of_raise ((State.countFree_faultRecord _).trans (s.drawFreely_faultRecord k)) rfl)
    · exact .inr (.of_raise rfl rfl)
  | ldB x =>
    obtain ⟨_, e⟩ | ⟨_, _, e⟩ | ⟨_, e⟩ := exec_ldB_cases x s <;> obtain rfl := exec_next_unique e h
    · exact .inl ⟨rfl, rfl⟩
    · exact .inr (.of_raise (by rw [State.storeFreely_eq]; rfl) rfl)
    · exact .inr (.of_raise rfl rfl)
  | ldMemI x =>
    obtain ⟨_, e⟩ | ⟨_, e⟩ := exec_ldMemI_cases x s <;> obtain rfl := exec_next_unique e h
    · exact .inl (by rw [State.ite_setIndex]; exact ⟨rfl, rfl⟩)
    · exact .inr (.of_raise rfl rfl)
  | ldVxMem x =>
    obtain ⟨_, e⟩ | ⟨_, e⟩ := exec_ldVxMem_cases x s <;> obtain rfl := exec_next_unique e h
    · exact .inl (by rw [State.ite_setIndex, State.loadFirst_eq]; exact ⟨rfl, rfl⟩)
    · exact .inr (.of_raise (by rw [State.loadFirst_eq]; rfl) rfl)
  | _ => exact .inl (quiet (by simp [writesPiece, these, anyCell]) (by simp [writesPiece, these, anyCell]))

/-- ALL THAT A STEP CAN DO TO THE RESULT AND THE RECORD: it ends without a fault and keeps the record, or it raises
one. -/
theorem step_fault_cases {s t : State} (h : step s = .next t) :
    ((∀ f, t.result ≠ some (.fault f)) ∧ t.faultRecord = s.faultRecord) ∨ RaisesFrom s t := by
  obtain ⟨rate, _, hcases⟩ := step_cases h
  have hticked : (s.ticked rate).faultRecord = s.faultRecord := State.ticked_faultRecord s rate
  obtain ⟨x, _, rfl⟩ | ⟨_, ⟨f, hf, rfl⟩ | ⟨w, _, _, ⟨_, rfl⟩ | ⟨i, _, hexec⟩⟩⟩ := hcases
  · exact .inl ⟨State.awaitKey_result_ne_fault _ x, (State.awaitKey_faultRecord _ x).trans hticked⟩
  · obtain ⟨a, rfl⟩ := State.fetch_error hf
    exact .inr (.of_raise hticked rfl)
  · exact .inr (.of_raise hticked rfl)
  · refine (exec_fault_cases hexec).imp ?_ ?_
    · rintro ⟨hresult, hrecord⟩
      exact ⟨fun f => by rw [hresult]; nofun, hrecord.trans hticked⟩
    · rintro ⟨u, f, hu, hf, rfl⟩
      exact ⟨u, f, hu.trans hticked, hf, rfl⟩

/-- Settles O15: the record is kept, or set to the fault raised unless it holds one (`step_fault_cases`). -/
theorem faultRecordIsSticky : Obligations.FaultRecordIsSticky := by
  intro s t h
  obtain ⟨hresult, hrecord⟩ | ⟨u, g, hu, _, rfl⟩ := step_fault_cases h
  · refine ⟨fun f hf => hrecord.trans hf, fun hnone f => ?_⟩
    rw [hrecord, hnone]
    exact iff_of_false nofun (hresult f)
  · rw [State.raise_faultRecord, State.raise_result, hu]
    refine ⟨fun f hf => by rw [hf, Option.getD_some], fun hnone f => ?_⟩
    simp [hnone]

/-- Settles O16: a fault result is one that a step can take (`step_fault_cases`), and none of these four is. -/
theorem unreachableFaultsAreNeverReturned : Obligations.UnreachableFaultsAreNeverReturned := by
  intro s t h
  have never {f : Fault} (hf : f.ofStep = false) : t.result ≠ some (.fault f) := by
    obtain ⟨hresult, _⟩ | ⟨u, g, _, hg, rfl⟩ := step_fault_cases h
    · exact hresult f
    · rintro e
      obtain rfl : g = f := by simpa using e
      rw [hf] at hg
      cases hg
  exact ⟨never rfl, never rfl, never rfl, fun _ => never rfl⟩

end Sys2Proof.Machine
end

section
/-! THE INVARIANT, one rule per update of a piece that it reads, then for every instruction and every step. -/

namespace Sys2Proof.Machine

namespace State.Inv

variable {s : State}

/-! ## The rules -/

theorem mem_wf (h : s.Inv) : s.mem.wf := h.1

theorem pc_lt (h : s.Inv) : s.pc.toNat < 0x10FF := h.2.2.1

theorem stack_length (h : s.Inv) : s.stack.length ≤ stackCap := h.2.1

theorem stack_le (h : s.Inv) : ∀ a ∈ s.stack, a.toNat ≤ memSize := h.2.2.2.1

theorem setMem (h : s.Inv) {m : Memory} (hm : m.wf) : (s.setMem m).Inv := ⟨hm, h.2⟩

theorem setPc (h : s.Inv) {a : Word} (ha : a.toNat < 0x10FF) : (s.setPc a).Inv := by
  obtain ⟨hmem, hlen, _, hrest⟩ := h
  exact ⟨hmem, hlen, ha, hrest⟩

theorem setStack (h : s.Inv) {l : List Word} (hlen : l.length ≤ stackCap) (hl : ∀ a ∈ l, a.toNat ≤ memSize) :
    (s.setStack l).Inv := by
  obtain ⟨hmem, _, hpc, _, hrest⟩ := h
  exact ⟨hmem, hlen, hpc, hl, hrest⟩

theorem setDT (h : s.Inv) {t : Timer} (ht : t.wf) : (s.setDT t).Inv := by
  obtain ⟨hmem, hlen, hpc, hstack, _, hrest⟩ := h
  exact ⟨hmem, hlen, hpc, hstack, ht, hrest⟩

theorem setST (h : s.Inv) {t : Timer} (ht : t.wf) : (s.setST t).Inv := by
  obtain ⟨hmem, hlen, hpc, hstack, hdt, _, hfault⟩ := h
  exact ⟨hmem, hlen, hpc, hstack, hdt, ht, hfault⟩

theorem setResult (h : s.Inv) {r : Option StepResult} (hr : ∀ f, r ≠ some (.fault f)) : (s.setResult r).Inv := by
  obtain ⟨hmem, hlen, hpc, hstack, hdt, hst, _⟩ := h
  exact ⟨hmem, hlen, hpc, hstack, hdt, hst, fun f hf => absurd hf (hr f)⟩

theorem setRegs (h : s.Inv) (w : Vector Byte 16) : (s.setRegs w).Inv := h

theorem setReg (h : s.Inv) (x : Reg) (b : Byte) : (s.setReg x b).Inv := h

theorem setIndex (h : s.Inv) (a : Word) : (s.setIndex a).Inv := h

theorem setDisplay (h : s.Inv) (d : Display) : (s.setDisplay d).Inv := h

theorem setLatch (h : s.Inv) (l : Option Reg) : (s.setLatch l).Inv := h

theorem startSound (h : s.Inv) : s.startSound.Inv := h

theorem countRandom (h : s.Inv) : s.countRandom.Inv := h

theorem countFree (h : s.Inv) : s.countFree.Inv := h

/-- The tick phase keeps both accumulators in lowest terms, and the step has no result yet. -/
theorem ticked (h : s.Inv) {rate : Nat} (hr : 0 < rate) : (s.ticked rate).Inv := by
  obtain ⟨hmem, hlen, hpc, hstack, hdt, hst, _⟩ := h
  rw [State.ticked_eq]
  exact ⟨hmem, hlen, hpc, hstack, Timer.wf_tick hdt _ hr, Timer.wf_tick hst _ hr, nofun⟩

/-- The key wait. -/
theorem awaitKey (h : s.Inv) (x : Reg) : (s.awaitKey x).Inv := by
  cases hk : s.key with
  | some k => rw [State.awaitKey_of_key hk]; exact ((h.setReg x _).setLatch none).setResult nofun
  | none => rw [State.awaitKey_of_no_key hk]; exact h.setResult nofun

/-- The advance of `pc` past a fetched word (R24). -/
theorem advance (h : s.Inv) (hpc : s.pc.toNat ≤ 4094) : s.advance.Inv :=
  h.setPc (by have := State.advance_pc_toNat hpc; rw [State.advance, State.setPc_pc] at this; omega)

/-- A skip from an address that some instruction was fetched before (R24). -/
theorem skipIf (h : s.Inv) (hpc : s.pc.toNat ≤ memSize) (c : Bool) : (s.skipIf c).Inv := by
  rw [State.skipIf_eq]
  refine h.setPc ?_
  split
  · rw [memSize_eq] at hpc
    rw [BitVec.toNat_add]
    exact (Nat.mod_le _ _).trans_lt (by simp; omega)
  · exact h.pc_lt

theorem writeResultAndFlag (h : s.Inv) (x y : Reg) (r : Byte → Byte → Byte) (f : Byte) :
    (s.writeResultAndFlag x y r f).Inv := by
  rw [State.writeResultAndFlag_eq]
  exact h.setRegs _

theorem loadFirst (h : s.Inv) (n : Nat) : (s.loadFirst n).Inv := by
  rw [State.loadFirst_eq]
  exact h.setRegs _

theorem storeFreely (h : s.Inv) (e a slot : Nat) (bs : List Byte) : (s.storeFreely e a slot bs).Inv := by
  rw [State.storeFreely_eq]
  exact h.setMem (State.wf_storeFreely s e a slot bs h.mem_wf)

theorem ite_setIndex (h : s.Inv) (q : Bool) (a : Word) : (if q = true then s.setIndex a else s).Inv := by
  rw [State.ite_setIndex]
  exact h.setIndex _

end State.Inv

/-! ## The instructions -/

/-- CALL pushes an address that is at most 4096, since an instruction was fetched before it (R24). -/
theorem exec_call_inv {nnn : Addr12} {s t : State} (hs : s.Inv) (hpc : s.pc.toNat ≤ memSize)
    (h : exec (.call nnn) s = .next t) : t.Inv := by
  obtain ⟨hroom, rfl⟩ | ⟨_, rfl⟩ := exec_call_cases h
  · have hentries : ∀ a ∈ s.pc :: s.stack, a.toNat ≤ memSize := List.forall_mem_cons.2 ⟨hpc, hs.stack_le⟩
    exact (hs.setStack (l := s.pc :: s.stack) hroom hentries).setPc
      (by rw [zextAddr_toNat]; exact nnn.isLt.trans (by decide))
  · exact hs.raise _

/-- RET pops an address that is at most 4096. -/
theorem exec_ret_inv {s t : State} (hs : s.Inv) (h : exec .ret s = .next t) : t.Inv := by
  obtain ⟨a, l, hcons, rfl⟩ | ⟨_, rfl⟩ := exec_ret_cases h
  · have hlen := hs.stack_length
    have hle := hs.stack_le
    rw [hcons] at hlen hle
    obtain ⟨ha, hl⟩ := List.forall_mem_cons.1 hle
    exact (hs.setStack (Nat.le_of_succ_le hlen) hl).setPc (ha.trans_lt (by decide))
  · exact hs.raise _

theorem exec_drw_inv {x y : Reg} {n : Nibble} {s t : State} (hs : s.Inv) (h : exec (.drw x y n) s = .next t) :
    t.Inv := by
  obtain ⟨_, k, e, _⟩ | ⟨_, _, _, k, e, _⟩ | ⟨_, _, e⟩ := exec_drw_cases x y n s <;>
    obtain rfl := exec_next_unique e h
  · exact (hs.setDisplay _).setReg _ _
  · exact ((hs.setDisplay _).setReg _ _).countFree.raise _
  · exact hs.raise _

theorem exec_ldB_inv {x : Reg} {s t : State} (hs : s.Inv) (h : exec (.ldB x) s = .next t) : t.Inv := by
  obtain ⟨hfits, e⟩ | ⟨_, _, e⟩ | ⟨_, e⟩ := exec_ldB_cases x s <;> obtain rfl := exec_next_unique e h
  · exact hs.setMem (Memory.wf_setBytes hs.mem_wf _ hfits)
  · exact (hs.storeFreely _ _ _ _).countFree.raise _
  · exact hs.raise _

theorem exec_ldMemI_inv {x : Reg} {s t : State} (hs : s.Inv) (h : exec (.ldMemI x) s = .next t) : t.Inv := by
  have hlen := s.length_regBytes_regsUpTo x
  obtain ⟨hfits, e⟩ | ⟨_, e⟩ := exec_ldMemI_cases x s <;> obtain rfl := exec_next_unique e h
  · exact (hs.setMem (Memory.wf_setBytes hs.mem_wf _ (by omega))).ite_setIndex _ _
  · by_cases hi : s.i.toNat ≤ memSize
    · exact (hs.setMem (Memory.wf_setBytes hs.mem_wf _ (by rw [List.length_take]; omega))).raise _
    · rw [Nat.sub_eq_zero_of_le (Nat.le_of_not_le hi), List.take_zero]
      exact hs.raise _

theorem exec_ldVxMem_inv {x : Reg} {s t : State} (hs : s.Inv) (h : exec (.ldVxMem x) s = .next t) : t.Inv := by
  obtain ⟨_, e⟩ | ⟨_, e⟩ := exec_ldVxMem_cases x s <;> obtain rfl := exec_next_unique e h
  · exact (hs.loadFirst _).ite_setIndex _ _
  · exact (hs.loadFirst _).raise _

/-- EVERY INSTRUCTION KEEPS THE INVARIANT, from a `pc` that is 2 past a fetched word (R24, R105). -/
theorem exec_inv {i : Instr} {s t : State} (hs : s.Inv) (hpc : s.pc.toNat ≤ memSize) (h : exec i s = .next t) :
    t.Inv := by
  cases i with
  | sys => rw [(exec_sys_cases h).2]; exact hs
  | cls => cases h; exact hs.setDisplay _
  | ret => exact exec_ret_inv hs h
  | call => exact exec_call_inv hs hpc h
  | jp nnn => cases h; exact hs.setPc (by rw [zextAddr_toNat]; exact nnn.isLt.trans (by decide))
  | jpV0 nnn =>
    cases h
    refine hs.setPc ?_
    rw [State.offsetTarget_toNat]
    have := nnn.isLt
    have := (s.reg 0).isLt
    omega
  | seImm | sneImm | seReg | sneReg | skp | sknp => cases h; exact hs.skipIf hpc _
  | ldImm | addImm | ldReg | orReg | andReg | xorReg | ldVxDT => cases h; exact hs.setReg _ _
  | addReg | subReg | shr | subn | shl => cases h; exact hs.writeResultAndFlag _ _ _ _
  | rnd => cases h; exact (hs.setReg _ _).countRandom
  | ldI | ldF => cases h; exact hs.setIndex _
  | addI x =>
    rw [exec_addI_eq] at h
    obtain rfl := Host.Outcome.next.inj h
    split
    · exact (hs.setIndex _).setReg _ _
    · exact hs.setIndex _
  | ldVxK => cases h; exact hs.setLatch _
  | ldDTVx => cases h; exact hs.setDT (Timer.wf_set _ _)
  | ldSTVx x =>
    obtain ⟨_, e⟩ | ⟨_, _, e⟩ := exec_ldSTVx_cases x s <;> obtain rfl := exec_next_unique e h
    · exact (hs.setST (Timer.wf_set _ _)).startSound
    · exact hs.setST (Timer.wf_set _ _)
  | drw => exact exec_drw_inv hs h
  | ldB => exact exec_ldB_inv hs h
  | ldMemI => exact exec_ldMemI_inv hs h
  | ldVxMem => exact exec_ldVxMem_inv hs h

/-! ## The step -/

/-- Settles O12: the start of a step keeps the invariant at its positive rate, a fetched word leaves `pc` at most 4096,
and from there every instruction keeps it (`exec_inv`). -/
theorem stepKeepsTheInvariant : Obligations.StepKeepsTheInvariant := by
  intro s t hs h
  obtain ⟨rate, hr, hcases⟩ := step_cases h
  have hticked : (s.ticked rate).Inv := hs.ticked (State.stepRate_pos hr)
  have hadvance (hpc : s.pc.toNat ≤ 4094) : (s.ticked rate).advance.Inv :=
    hticked.advance (by rwa [State.ticked_pc])
  obtain ⟨x, _, rfl⟩ | ⟨_, ⟨f, _, rfl⟩ | ⟨w, _, hpc, ⟨_, rfl⟩ | ⟨i, _, hexec⟩⟩⟩ := hcases
  · exact hticked.awaitKey x
  · exact hticked.raise f
  · exact (hadvance hpc).raise _
  · have hstarted : (s.started rate i).Inv := (hadvance hpc).setResult nofun
    refine exec_inv hstarted ?_ hexec
    rw [State.started, State.setResult_pc, State.ticked_advance_pc_toNat hpc, memSize_eq]
    omega

end Sys2Proof.Machine
end

section
/-! A TIMER'S START IS NEVER READ (10_state.md R35): every instruction, and then every step, gives the same from a state
and from the state with both starts erased, but for the starts. -/

namespace Sys2Proof.Machine

/-- What is to be shown of an outcome: the starts erased before the run make no difference but in the starts. -/
def SameButStarts (run : State → StepOutcome) (s : State) : Prop :=
  mapNext State.eraseStarts (run s) = mapNext State.eraseStarts (run s.eraseStarts)

/-- Both runs answer a next state, and the two states agree but for the starts. -/
theorem SameButStarts.of_next {run : State → StepOutcome} {s t u : State} (h : run s = .next t)
    (h' : run s.eraseStarts = .next u) (e : t.eraseStarts = u.eraseStarts) : SameButStarts run s := by
  rw [SameButStarts, h, h']
  exact congrArg Host.Outcome.next e

/-- Both runs are one update of the state, and erasing the starts goes through the update. -/
theorem SameButStarts.of_commutes {run : State → StepOutcome} {s : State} (g : State → State)
    (hrun : ∀ s, run s = .next (g s)) (hg : ∀ s, (g s).eraseStarts = g s.eraseStarts) : SameButStarts run s :=
  .of_next (hrun s) (hrun _) (by rw [hg, hg, State.eraseStarts_eraseStarts])

/-! ## The instructions with more than one way to end -/

theorem exec_call_sameButStarts (nnn : Addr12) (s : State) : SameButStarts (exec (.call nnn)) s := by
  obtain hroom | hfull := Nat.lt_or_ge s.stack.length stackCap
  · exact .of_next (exec_call_of_lt hroom nnn) (exec_call_of_lt (s := s.eraseStarts) hroom nnn) rfl
  · exact .of_next (exec_call_of_le hfull nnn) (exec_call_of_le (s := s.eraseStarts) hfull nnn) rfl

theorem exec_ret_sameButStarts (s : State) : SameButStarts (exec .ret) s := by
  cases hs : s.stack with
  | cons a l => exact .of_next (exec_ret_of_cons hs) (exec_ret_of_cons (s := s.eraseStarts) hs) rfl
  | nil => exact .of_next (exec_ret_of_nil hs) (exec_ret_of_nil (s := s.eraseStarts) hs) rfl

theorem exec_addI_sameButStarts (x : Reg) (s : State) : SameButStarts (exec (.addI x)) s := by
  cases hq : s.quirks.indexAddSetsVf with
  | true => exact .of_next (exec_addI_of_quirk hq x) (exec_addI_of_quirk (s := s.eraseStarts) hq x) rfl
  | false => exact .of_next (exec_addI_of_not_quirk hq x) (exec_addI_of_not_quirk (s := s.eraseStarts) hq x) rfl

theorem exec_ldSTVx_sameButStarts (x : Reg) (s : State) : SameButStarts (exec (.ldSTVx x)) s := by
  obtain ⟨hloud, e⟩ | ⟨hzero, hquiet, e⟩ := exec_ldSTVx_cases x s <;>
    obtain ⟨hloud', e'⟩ | ⟨hzero', hquiet', e'⟩ := exec_ldSTVx_cases x s.eraseStarts
  · exact .of_next e e' rfl
  · exact absurd hloud (not_or.2 ⟨not_not.2 hzero', ne_true_of_eq_false hquiet'⟩)
  · exact absurd hloud' (not_or.2 ⟨not_not.2 hzero, ne_true_of_eq_false hquiet⟩)
  · exact .of_next e e' rfl

theorem exec_ldB_sameButStarts (x : Reg) (s : State) : SameButStarts (exec (.ldB x)) s := by
  by_cases hfits : s.i.toNat + 2 ≤ 4095
  · exact .of_next (exec_ldB_of_fits hfits x) (exec_ldB_of_fits (s := s.eraseStarts) hfits x) rfl
  · have hout : 4095 < s.i.toNat + 2 := Nat.not_le.1 hfits
    obtain hi | hi := Nat.lt_or_ge s.i.toNat 4096
    · refine .of_next (exec_ldB_of_partial hout hi x) (exec_ldB_of_partial (s := s.eraseStarts) hout hi x) ?_
      simp only [State.eraseStarts_raise, State.eraseStarts_countFree, State.eraseStarts_storeFreely,
        State.eraseStarts_eraseStarts, State.eraseStarts_freeCount, State.eraseStarts_i, State.reg_eraseStarts]
    · exact .of_next (exec_ldB_of_out hi x) (exec_ldB_of_out (s := s.eraseStarts) hi x) rfl

theorem exec_ldMemI_sameButStarts (x : Reg) (s : State) : SameButStarts (exec (.ldMemI x)) s := by
  obtain hout | hfits := Nat.lt_or_ge 4095 (s.i.toNat + x.toNat)
  · exact .of_next (exec_ldMemI_of_out hout) (exec_ldMemI_of_out (s := s.eraseStarts) hout) rfl
  · exact .of_next (exec_ldMemI_of_fits hfits) (exec_ldMemI_of_fits (s := s.eraseStarts) hfits) rfl

theorem exec_ldVxMem_sameButStarts (x : Reg) (s : State) : SameButStarts (exec (.ldVxMem x)) s := by
  obtain hout | hfits := Nat.lt_or_ge 4095 (s.i.toNat + x.toNat)
  · refine .of_next (exec_ldVxMem_of_out hout) (exec_ldVxMem_of_out (s := s.eraseStarts) hout) ?_
    simp only [State.eraseStarts_raise, State.eraseStarts_loadFirst, State.eraseStarts_eraseStarts, State.eraseStarts_i]
  · refine .of_next (exec_ldVxMem_of_fits hfits) (exec_ldVxMem_of_fits (s := s.eraseStarts) hfits) ?_
    simp only [State.eraseStarts_setIndex, State.eraseStarts_loadFirst, State.eraseStarts_eraseStarts]
    rfl

/-- The drawing of both runs is the same, since it reads the memory and I only (`drawRows_congr`). -/
theorem exec_drw_sameButStarts (x y : Reg) (n : Nibble) (s : State) : SameButStarts (exec (.drw x y n)) s := by
  simp only [SameButStarts, exec, execDrw, State.reg_eraseStarts, State.eraseStarts_display,
    drawRows_congr (s := s) (t := s.eraseStarts) rfl rfl]
  split
  · rfl
  · by_cases hi : s.i.toNat < memSize
    · rw [if_pos hi, if_pos (show s.eraseStarts.i.toNat < memSize from hi)]; rfl
    · rw [if_neg hi, if_neg (show ¬ s.eraseStarts.i.toNat < memSize from hi)]; rfl

/-! ## All instructions, and the step -/

theorem exec_sameButStarts (i : Instr) (s : State) : SameButStarts (exec i) s := by
  cases i with
  | sys =>
    simp only [SameButStarts, exec, execSys, State.eraseStarts_params]
    split <;> rfl
  | ret => exact exec_ret_sameButStarts s
  | call nnn => exact exec_call_sameButStarts nnn s
  | seImm | sneImm | seReg | sneReg | skp | sknp =>
    exact .of_commutes _ (fun _ => rfl) fun s => s.eraseStarts_skipIf _
  | addReg | subReg | shr | subn | shl =>
    exact .of_commutes _ (fun _ => rfl) fun s => s.eraseStarts_writeResultAndFlag _ _ _ _
  | addI x => exact exec_addI_sameButStarts x s
  | ldSTVx x => exact exec_ldSTVx_sameButStarts x s
  | drw x y n => exact exec_drw_sameButStarts x y n s
  | ldB x => exact exec_ldB_sameButStarts x s
  | ldMemI x => exact exec_ldMemI_sameButStarts x s
  | ldVxMem x => exact exec_ldVxMem_sameButStarts x s
  | _ => exact .of_next rfl rfl rfl

theorem State.stepRate_eraseStarts (s : State) : s.eraseStarts.stepRate = s.stepRate := by
  rw [State.stepRate, State.takeInput_eraseStarts]; rfl

theorem State.eraseStarts_awaitKey (s : State) (x : Reg) : (s.awaitKey x).eraseStarts = s.eraseStarts.awaitKey x := by
  cases hk : s.key with
  | some k => rw [State.awaitKey_of_key hk, State.awaitKey_of_key (s := s.eraseStarts) hk]; rfl
  | none => rw [State.awaitKey_of_no_key hk, State.awaitKey_of_no_key (s := s.eraseStarts) hk]; rfl

theorem State.started_eraseStarts (s : State) (rate : Nat) (i : Instr) :
    s.eraseStarts.started rate i = (s.started rate i).eraseStarts := by
  rw [State.started, State.ticked_eraseStarts]; rfl

/-- Settles O19, by the ways a step goes on, which the starts do not influence; the execution is that of an instruction
from states that agree but for the starts (`exec_sameButStarts`). -/
theorem timerStartIsNeverRead : Obligations.TimerStartIsNeverRead := by
  intro s
  show SameButStarts step s
  cases hr : s.stepRate with
  | none =>
    rw [SameButStarts, step_of_badRate hr, step_of_badRate (s.stepRate_eraseStarts.trans hr)]
  | some rate =>
    have hr' : s.eraseStarts.stepRate = some rate := s.stepRate_eraseStarts.trans hr
    cases hl : s.latch with
    | some x =>
      refine .of_next (step_of_latch hr hl) (step_of_latch hr' hl) ?_
      rw [State.ticked_eraseStarts, State.eraseStarts_awaitKey, State.eraseStarts_awaitKey,
        State.eraseStarts_eraseStarts]
    | none =>
      cases hf : s.fetch with
      | error f =>
        refine .of_next (step_of_fetchFault hr hl hf) (step_of_fetchFault hr' hl hf) ?_
        rw [State.ticked_eraseStarts]; rfl
      | ok w =>
        cases hd : decode w with
        | error e =>
          refine .of_next (step_of_invalid hr hl hf hd) (step_of_invalid hr' hl hf hd) ?_
          rw [State.ticked_eraseStarts]; rfl
        | ok i =>
          rw [SameButStarts, step_of_decoded hr hl hf hd, step_of_decoded hr' hl hf hd, State.started_eraseStarts]
          exact exec_sameButStarts i _

end Sys2Proof.Machine
end
